-- ==== Sys2Proof/Word.lean ====
section
/-! DEFINITION. The word types of HUFF-CORE (00_scope.md R12) and the entries its RAMs hold
(10_state.md R34, R35), with the tree notation of 00_scope.md R13. -/

namespace Sys2Proof

/-- A register or bus word (00_scope.md R12: "Registers are 32 bits wide"). -/
abbrev Word := BitVec 32
/-- A buffer byte (10_state.md R38, R39). -/
abbrev Byte := BitVec 8
/-- A weight (00_scope.md R12, WEIGHT_W = 32). -/
abbrev Weight := BitVec 32
/-- A symbol ID (00_scope.md R12, SYM_W = 16). -/
abbrev Sym := BitVec 16
/-- A node index in an arena entry (00_scope.md R12: 17 bits). -/
abbrev NodeIdx := BitVec 17

/-- An arena entry (10_state.md R34), as the tagged variant R34 quotes. KIND is the constructor.
A leaf's hidden FIRST equals its SYM in every rule that writes one (R121, R195), so only an internal
node stores FIRST (log 21). -/
inductive Node where
  | leaf (weight : Weight) (sym : Sym)
  | internal (weight : Weight) (left right : NodeIdx) (first : Sym)
  deriving DecidableEq, Repr, Inhabited

/-- A code table entry (10_state.md R35): LEN, 7 bits, and CODE, 64 bits, the code's first bit being the
most significant of the LEN low bits. -/
structure Code where
  len  : BitVec 7
  code : BitVec 64
  deriving DecidableEq, Repr, Inhabited

/-- A Code Tree (00_scope.md R13): `Leaf(w, s)` or `Node(w, L, R)`. -/
inductive CodeTree where
  | leaf (weight : Weight) (sym : Sym)
  | node (weight : Weight) (left right : CodeTree)
  deriving DecidableEq, Repr

end Sys2Proof
end

