-- ==== Sys2Proof/Syntax.lean ====
section
/-! DEFINITION. The commands of HUFF-CORE (30_encoding.md R92, spec/opcode_table.json), the locations of its
address map (10_state.md R23, 20_memory.md R66), and the host's program notation (30_encoding.md R110 to
R112). -/

namespace Sys2Proof

/-- The nine commands (30_encoding.md R92). A command has no operand fields (R95). -/
inductive Instr where
  | nop
  | build
  | genCodes
  | encode
  | pack
  | unpack
  | decode
  | serialize
  | deserialize
  deriving DecidableEq, Repr

/-- The registers of the register map (10_state.md R23). -/
inductive Reg where
  | id | ctrl | status | cmd | errCode | errInfo
  | wtabLen | symCount | bitLen | artLen | treeLen
  | nodeCount | root | leafCount | maxLen
  | capNsym | capSymbuf | capBitbuf | capArt | capTree | capMaxcode
  deriving DecidableEq, Repr

/-- The four words of a CTAB entry (20_memory.md R74). -/
inductive CtabWord where
  | len | hi | lo | zero
  deriving DecidableEq, Repr

/-- The four words of an arena entry in the NODE window (20_memory.md R75); A and B are the names of
30_encoding.md R110. -/
inductive NodeWord where
  | kind | weight | a | b
  deriving DecidableEq, Repr

/-- A location of the address map: a register, or one word of a RAM window (20_memory.md R66, R70 to R75). -/
inductive Loc where
  | reg (r : Reg)
  | wtab (s : Nat)
  | ctab (s : Nat) (w : CtabWord)
  | node (n : Nat) (w : NodeWord)
  | symbuf (w : Nat)
  | bitbuf (w : Nat)
  | artbuf (w : Nat)
  | treebuf (w : Nat)
  deriving DecidableEq, Repr

/-- What the outside world does next: a bus read or write of `size` bytes at an offset from BASE
(20_memory.md R60 to R62), the BUSYLOOP branch of the host (30_encoding.md R110) to a line number, or a
pulse of the reset input (70_reset_and_hazards.md R250, log 15). -/
inductive HostLine where
  | rd (addr size : Nat)
  | wr (addr size : Nat) (v : Word)
  | busyLoop (target : Nat)
  | resetPin
  deriving DecidableEq, Repr

/-- A line of the host program notation (30_encoding.md R110) or a pseudo-instruction (R111). Labels are
numbers (log 16). -/
inductive SrcLine where
  | wr (l : Loc) (v : Word)
  | rd (l : Loc)
  | cmd (i : Instr)
  | label (n : Nat)
  | busyLoop (n : Nat)
  | comment (text : String)
  | run (i : Instr)
  | ack
  | wait
  deriving DecidableEq, Repr

end Sys2Proof
end

