-- ==== Sys2Proof/Decode.lean ====
section
/-! DEFINITION. The command word (30_encoding.md R90): its fields, a total decoder that rejects by name
(R93, R94, R96), the encoder (R92), and the host's table-word form of the decoder. -/

namespace Sys2Proof

/-- Why a command word is no command. Both complete with ILLEGAL_CMD (30_encoding.md R93, R94). -/
inductive DecodeError where
  /-- A bit of RSVD [31:8] is set (R94). -/
  | reservedBits
  /-- OP is 0x09 to 0xFF (R93). -/
  | reservedOp
  deriving DecidableEq, Repr

/-- OP, bits [7:0] (30_encoding.md R90). -/
def opField (w : Word) : BitVec 8 := w.extractLsb' 0 8

/-- RSVD, bits [31:8] (30_encoding.md R90). -/
def rsvdField (w : Word) : BitVec 24 := w.extractLsb' 8 24

/-- The opcode map of 30_encoding.md R92. -/
def opcodeMap (op : BitVec 8) : Option Instr :=
  match op.toNat with
  | 0x00 => some .nop
  | 0x01 => some .build
  | 0x02 => some .genCodes
  | 0x03 => some .encode
  | 0x04 => some .pack
  | 0x05 => some .unpack
  | 0x06 => some .decode
  | 0x07 => some .serialize
  | 0x08 => some .deserialize
  | _ => none

/-- Command decode, total over all words (30_encoding.md R96); reserved bits are checked first (R94). -/
def decode (w : Word) : Except DecodeError Instr :=
  if rsvdField w ≠ 0 then .error .reservedBits
  else
    match opcodeMap (opField w) with
    | some i => .ok i
    | none => .error .reservedOp

/-- The CMD word of each command (30_encoding.md R92). -/
def encode : Instr → Word
  | .nop => 0x00000000
  | .build => 0x00000001
  | .genCodes => 0x00000002
  | .encode => 0x00000003
  | .pack => 0x00000004
  | .unpack => 0x00000005
  | .decode => 0x00000006
  | .serialize => 0x00000007
  | .deserialize => 0x00000008

/-- The 32-bit command word whose low `nbits` bits are those of `w` and whose other bits are 0. The port
takes a command as one word (20_memory.md R63), so no byte order applies. -/
def tableWord (nbits w : Nat) : Word := BitVec.ofNat 32 (w % 2 ^ nbits)

/-- The instruction the decoder reads from a table word (none where it refuses). -/
def decodeTableWord (nbits w : Nat) : Option Instr :=
  match decode (tableWord nbits w) with
  | .ok i => some i
  | .error _ => none

end Sys2Proof
end

