-- ==== Sys2Proof/Config.lean ====
section
/-! DEFINITION. The implementation parameters of 00_scope.md R7, R8, and the free values: the draws of ANY
(10_state.md R44) and the latency LAT (00_scope.md R7). A free value is an opaque constant: no proof can
see what it is. -/

namespace Sys2Proof

/-- The parameters of 00_scope.md R7 that an implementation chooses (log 1, log 2). NODE_MAX and MAX_CODE
are derived below; WEIGHT_W and SYM_W are the widths in Word.lean; LAT is `Config.lat`. -/
structure Config where
  base       : Nat
  nsym       : Nat
  symbufMax  : Nat
  bitbufBits : Nat
  artMax     : Nat
  treeMax    : Nat
  deriving DecidableEq, Repr

/-- The defaults of 00_scope.md R7. BASE is OPEN there; 0 is the model's (log 2, DESIGN CHOICE). -/
def Config.default : Config :=
  { base := 0, nsym := 256, symbufMax := 4096, bitbufBits := 65536, artMax := 8196, treeMax := 3068 }

/-- NODE_MAX = 2·NSYM − 1 (00_scope.md R7, R8). -/
def Config.nodeMax (c : Config) : Nat := 2 * c.nsym - 1

/-- MAX_CODE, "fixed at 64" (00_scope.md R7). -/
def Config.maxCode : Nat := 64

/-! The draws of ANY (10_state.md R44, log 4): the value that an unwritten entry shows, by the number of
the draw that made it ANY and the entry's index. One constant for each RAM. -/

/-- The draw of an ANY entry of WTAB. -/
opaque Config.anyWtab : Nat → Nat → Weight
/-- The draw of an ANY entry of the arena. -/
opaque Config.anyNode : Nat → Nat → Node
/-- The draw of an ANY entry of CTAB. -/
opaque Config.anyCtab : Nat → Nat → Code
/-- The draw of an ANY entry of SYMBUF. -/
opaque Config.anySymbuf : Nat → Nat → Sym
/-- The draw of an ANY bit of BITBUF. -/
opaque Config.anyBitbuf : Nat → Nat → Bool
/-- The draw of an ANY byte of ARTBUF. -/
opaque Config.anyArtbuf : Nat → Nat → Byte
/-- The draw of an ANY byte of TREEBUF. -/
opaque Config.anyTreebuf : Nat → Nat → Byte
/-- The draw of a word of the NODE window where 20_memory.md R75 says the entry reads ANY (log 9). -/
opaque Config.anyNodeWord : Nat → Nat → Word

/-- LAT (00_scope.md R7, 60_exceptions.md R210): how many turns the host still gets after the issue with
this draw number before the completion step. Any natural number, so LAT is finite and at least one
step (log 3). -/
opaque Config.lat : Nat → Nat

end Sys2Proof
end

