-- ==== Sys2Proof/Machine/State.lean ====
section
/-! DEFINITION. The state of HUFF-CORE as plain data (10_state.md), the reasons a step can stop, and the
state after power-on reset (10_state.md R45, 70_reset_and_hazards.md R250). -/

namespace Sys2Proof.Machine

/-- Which check of the bus port failed (20_memory.md R63, R64, R67, R68, R69). -/
inductive BusCause where
  /-- Not a 32-bit access (R63). -/
  | size
  /-- addr[1:0] ≠ 0 (R64). -/
  | misaligned
  /-- The offset maps no location (R67), or lies outside the 32 MiB region (R60, log 2). -/
  | unmapped
  /-- A write to a read-only location (R68). -/
  | readOnly
  /-- An access not accepted while STATUS.BUSY = 1 (R69). -/
  | busy
  deriving DecidableEq, Repr

/-- Why the machine stops. -/
inductive Fault where
  /-- Raised by the host's bus read or write: the bus error of 20_memory.md R65, "a fault outcome of the
  host step, never ... a value". Safe: the hardware goes on unchanged, the model's run ends as the faulted
  run of R84 (log 8). -/
  | busError (c : BusCause)
  /-- Raised by GEN_CODES and SERIALIZE when TREE_VALID = 1 and the arena holds no tree at ROOT. Such a
  state contradicts 10_state.md R41 and R42 and no run reaches it. Safe (log 10). -/
  | arenaNotTree
  deriving DecidableEq, Repr

/-- Why an instruction has no meaning. -/
inductive Refusal where
  /-- Raised by an arm of exec whose instruction has no meaning yet, by its mnemonic; no arm does now. Safe. -/
  | notModelled (mnemonic : String)
  deriving DecidableEq, Repr

/-- The result codes (60_exceptions.md R211), by name (log 19). -/
inductive ResultCode where
  | ok | illegalCmd | badLength | emptyInput | weightOverflow | noTree | noCodes | unknownSymbol
  | codeTooLong | outOverflow | malformedArtifact | treeBitstreamMismatch | treeMalformed
  deriving DecidableEq, Repr

/-- The engine phase (10_state.md R43, 30_encoding.md R91): IDLE, or RUNNING one command word, with the
number of turns the host still gets before the completion step (log 3). STATUS.BUSY is 1 exactly in
RUNNING (log 6). -/
inductive Phase where
  | idle
  | running (word : Word) (wait : Nat)
  deriving DecidableEq, Repr

/-- An internal RAM (10_state.md section 3): the entries that hold a written value, by rising index, and
the number of the draw that the other entries show (R44; log 4, log 5). -/
structure Ram (α : Type) where
  cells : List (Nat × α)
  draw  : Nat
  deriving DecidableEq, Repr

/-- The seven internal RAMs (10_state.md R33 to R39). BITBUF is held bit by bit (R37). -/
structure Memory where
  wtab    : Ram Weight
  node    : Ram Node
  ctab    : Ram Code
  symbuf  : Ram Sym
  bitbuf  : Ram Bool
  artbuf  : Ram Byte
  treebuf : Ram Byte
  deriving DecidableEq, Repr

/-- The port's last answer to the host (20_memory.md R60 to R62). -/
inductive Response where
  | none
  | ok
  | data (v : Word)
  deriving DecidableEq, Repr

/-- The whole machine: the parameters the CAP registers show, the registers, the RAMs, the engine phase,
the model's draw numbers, and the host's list of lines with its position and last answer. -/
structure State where
  /-- CAP_NSYM to CAP_MAXCODE (10_state.md R40) and the other parameters (00_scope.md R7). -/
  cfg        : Config
  /-- CTRL.IRQ_EN (10_state.md R25). -/
  irqEn      : Bool
  /-- STATUS.DONE (10_state.md R26). -/
  done       : Bool
  /-- STATUS.ERR (10_state.md R26). -/
  err        : Bool
  /-- STATUS.TREE_VALID (10_state.md R26, R41). -/
  treeValid  : Bool
  /-- STATUS.CODES_VALID (10_state.md R26, R41). -/
  codesValid : Bool
  /-- CMD (10_state.md R27). -/
  cmd        : Word
  /-- ERR_CODE (10_state.md R28). -/
  errCode    : ResultCode
  /-- ERR_INFO (10_state.md R29). -/
  errInfo    : Word
  /-- The five length registers (10_state.md R30). -/
  wtabLen    : Word
  symCount   : Word
  bitLen     : Word
  artLen     : Word
  treeLen    : Word
  /-- The tree descriptor registers (10_state.md R31). -/
  nodeCount  : Word
  root       : Word
  leafCount  : Word
  /-- MAX_LEN (10_state.md R32). -/
  maxLen     : Word
  /-- The internal RAMs (10_state.md R33 to R39). -/
  mem        : Memory
  /-- The engine phase (10_state.md R43); it holds STATUS.BUSY. -/
  phase      : Phase
  /-- The number of the next draw (log 4). -/
  draws      : Nat
  /-- The draw the NODE window shows where an entry reads ANY (20_memory.md R75, log 9). -/
  nodeView   : Nat
  /-- The host's lines (30_encoding.md R110, log 7). -/
  program    : List HostLine
  /-- The line the host is at. -/
  line       : Nat
  /-- The port's last answer. -/
  response   : Response
  deriving DecidableEq, Repr

/-- The RAMs after power-on: every entry ANY (10_state.md R45), by draw `d`. -/
def Memory.powerOn (d : Nat) : Memory :=
  { wtab := ⟨[], d⟩, node := ⟨[], d⟩, ctab := ⟨[], d⟩, symbuf := ⟨[], d⟩, bitbuf := ⟨[], d⟩,
    artbuf := ⟨[], d⟩, treebuf := ⟨[], d⟩ }

/-- The state after power-on reset (10_state.md R45, 70_reset_and_hazards.md R250) of an implementation
with parameters `c`, whose RAM contents are draw `d`. The host has no line yet (log 7, log 11). -/
def State.powerOn (c : Config) (d : Nat) : State :=
  { cfg := c, irqEn := false, done := false, err := false, treeValid := false, codesValid := false,
    cmd := 0, errCode := .ok, errInfo := 0,
    wtabLen := 0, symCount := 0, bitLen := 0, artLen := 0, treeLen := 0,
    nodeCount := 0, root := 0, leafCount := 0, maxLen := 0,
    mem := Memory.powerOn d, phase := .idle, draws := d + 1, nodeView := d,
    program := [], line := 0, response := .none }

/-- The state right after power-on reset at the default parameters (00_scope.md R7; log 1, log 17). -/
def State.reset : State := State.powerOn Config.default 0

end Sys2Proof.Machine
end

