-- ==== Sys2Proof/Machine/Flags.lean ====
section
/-! DEFINITION. The flag and status registers as words: STATUS, CTRL, ERR_CODE (10_state.md R25, R26, R28),
the write-one-to-clear rule, and the interrupt line (60_exceptions.md R220). -/

namespace Sys2Proof.Machine

/-- STATUS.BUSY (10_state.md R26, R43): the engine is RUNNING (log 6). -/
def State.busy (s : State) : Bool :=
  match s.phase with
  | .idle => false
  | .running _ _ => true

/-- STATUS read as a word (10_state.md R26): BUSY 0, DONE 1, ERR 2, TREE_VALID 3, CODES_VALID 4, the rest 0. -/
def State.statusWord (s : State) : Word :=
  BitVec.ofNat 32 (s.busy.toNat + 2 * s.done.toNat + 4 * s.err.toNat + 8 * s.treeValid.toNat
    + 16 * s.codesValid.toNat)

/-- A write to STATUS (10_state.md R26): 1 in bit 1 clears DONE, 1 in bit 2 clears ERR, other bits are
ignored. ERR_CODE stays (R28). This is the host's return from a completion (60_exceptions.md R221). -/
def State.writeStatus (s : State) (v : Word) : State :=
  { s with done := s.done && !v.getLsbD 1, err := s.err && !v.getLsbD 2 }

/-- CTRL read as a word (10_state.md R25): IRQ_EN in bit 0, SRST and the reserved bits read 0. -/
def State.ctrlWord (s : State) : Word := BitVec.ofNat 32 s.irqEn.toNat

/-- The interrupt output (60_exceptions.md R220): CTRL.IRQ_EN and STATUS.DONE. -/
def State.irq (s : State) : Bool := s.irqEn && s.done

/-- The code of a result (60_exceptions.md R211). -/
def ResultCode.byte : ResultCode → Byte
  | .ok => 0x00
  | .illegalCmd => 0x01
  | .badLength => 0x02
  | .emptyInput => 0x03
  | .weightOverflow => 0x04
  | .noTree => 0x05
  | .noCodes => 0x06
  | .unknownSymbol => 0x07
  | .codeTooLong => 0x08
  | .outOverflow => 0x09
  | .malformedArtifact => 0x0A
  | .treeBitstreamMismatch => 0x0B
  | .treeMalformed => 0x0C

/-- ERR_CODE read as a word (10_state.md R28): the code in bits [7:0], the rest 0. -/
def State.errCodeWord (s : State) : Word := s.errCode.byte.setWidth 32

end Sys2Proof.Machine
end

