-- ==== Sys2Proof/Machine/Ops.lean ====
section
/-! DEFINITION. The named operations over the RAMs and the registers: reading and writing an entry, making
a RAM ANY (10_state.md R44), the issue of a command (30_encoding.md R91), its completion with or without
an error (60_exceptions.md R210, R212, R214, R215), the soft reset (70_reset_and_hazards.md R251) and the
reset input (R250). -/

namespace Sys2Proof.Machine

/-! ### RAM entries -/

/-- The written value at index `i`, if there is one. -/
def cellsLookup {α : Type} : List (Nat × α) → Nat → Option α
  | [], _ => none
  | (k, v) :: rest, i => if k = i then some v else cellsLookup rest i

/-- The cells with `v` written at index `i`; rising cells stay rising. -/
def cellsWrite {α : Type} : List (Nat × α) → Nat → α → List (Nat × α)
  | [], i, v => [(i, v)]
  | (k, u) :: rest, i, v =>
    if i < k then (i, v) :: (k, u) :: rest
    else if i = k then (i, v) :: rest
    else (k, u) :: cellsWrite rest i v

/-- The values at indices `i`, `i + 1`, … -/
def cellsFrom {α : Type} : Nat → List α → List (Nat × α)
  | _, [] => []
  | i, v :: vs => (i, v) :: cellsFrom (i + 1) vs

/-- The value of entry `i`: the written one, else the draw that made the entry ANY (10_state.md R44). -/
def Ram.read {α : Type} (any : Nat → Nat → α) (r : Ram α) (i : Nat) : α :=
  (cellsLookup r.cells i).getD (any r.draw i)

/-- Writes entry `i`; the other ANY entries keep their draw (10_state.md R44). -/
def Ram.write {α : Type} (r : Ram α) (i : Nat) (v : α) : Ram α :=
  { r with cells := cellsWrite r.cells i v }

/-- Writes the values at indices `i`, `i + 1`, … -/
def Ram.writeFrom {α : Type} : Ram α → Nat → List α → Ram α
  | r, _, [] => r
  | r, i, v :: vs => Ram.writeFrom (r.write i v) (i + 1) vs

/-- The RAM whose entries 0, 1, … are `vs` and whose other entries are ANY by draw `d`
(60_exceptions.md R216, log 12). -/
def Ram.ofList {α : Type} (d : Nat) (vs : List α) : Ram α := { cells := cellsFrom 0 vs, draw := d }

/-- The RAM whose every entry is ANY by draw `d` (60_exceptions.md R215). -/
def Ram.allAny {α : Type} (d : Nat) : Ram α := { cells := [], draw := d }

/-- The canonical form: indices strictly rising (log 5). -/
def Ram.rising {α : Type} (r : Ram α) : Bool := decide ((r.cells.map Prod.fst).Pairwise (· < ·))

/-- Every written index is below the capacity. -/
def Ram.within {α : Type} (cap : Nat) (r : Ram α) : Bool := r.cells.all fun c => c.1 < cap

/-- Canonical and inside its capacity. -/
def Ram.wf {α : Type} (cap : Nat) (r : Ram α) : Bool := r.rising && r.within cap

/-- Every RAM is canonical and inside the capacity of 00_scope.md R7 (10_state.md R33 to R39). -/
def Memory.wf (c : Config) (m : Memory) : Bool :=
  m.wtab.wf c.nsym && m.node.wf c.nodeMax && m.ctab.wf c.nsym && m.symbuf.wf c.symbufMax
    && m.bitbuf.wf c.bitbufBits && m.artbuf.wf c.artMax && m.treebuf.wf c.treeMax

/-! ### Reading the RAMs (00_scope.md R11) -/

/-- `WTAB[i]`. -/
def State.wtabAt (s : State) (i : Nat) : Weight := s.mem.wtab.read Config.anyWtab i
/-- `NODE[i]`. -/
def State.nodeAt (s : State) (i : Nat) : Node := s.mem.node.read Config.anyNode i
/-- `CTAB[i]`. -/
def State.ctabAt (s : State) (i : Nat) : Code := s.mem.ctab.read Config.anyCtab i
/-- `SYMBUF[i]`. -/
def State.symAt (s : State) (i : Nat) : Sym := s.mem.symbuf.read Config.anySymbuf i
/-- `BITBUF.bit(i)`. -/
def State.bitAt (s : State) (i : Nat) : Bool := s.mem.bitbuf.read Config.anyBitbuf i
/-- `ARTBUF.byte(i)`. -/
def State.artByte (s : State) (i : Nat) : Byte := s.mem.artbuf.read Config.anyArtbuf i
/-- `TREEBUF.byte(i)`. -/
def State.treeByte (s : State) (i : Nat) : Byte := s.mem.treebuf.read Config.anyTreebuf i

/-! ### Making a RAM ANY (10_state.md R44): each takes a fresh draw -/

/-- Every NODE entry, and what the NODE window shows of it, becomes ANY (20_memory.md R75). -/
def State.anyNodes (s : State) : State :=
  { s with mem := { s.mem with node := Ram.allAny s.draws }, nodeView := s.draws, draws := s.draws + 1 }
/-- Every CTAB entry becomes ANY. -/
def State.anyCodes (s : State) : State :=
  { s with mem := { s.mem with ctab := Ram.allAny s.draws }, draws := s.draws + 1 }
/-- Every SYMBUF entry becomes ANY. -/
def State.anySyms (s : State) : State :=
  { s with mem := { s.mem with symbuf := Ram.allAny s.draws }, draws := s.draws + 1 }
/-- Every BITBUF bit becomes ANY. -/
def State.anyBits (s : State) : State :=
  { s with mem := { s.mem with bitbuf := Ram.allAny s.draws }, draws := s.draws + 1 }
/-- Every ARTBUF byte becomes ANY. -/
def State.anyArt (s : State) : State :=
  { s with mem := { s.mem with artbuf := Ram.allAny s.draws }, draws := s.draws + 1 }
/-- Every TREEBUF byte becomes ANY. -/
def State.anyTreeBytes (s : State) : State :=
  { s with mem := { s.mem with treebuf := Ram.allAny s.draws }, draws := s.draws + 1 }

/-! ### Writing a command's output: the new entries, and ANY beyond them (60_exceptions.md R216) -/

/-- BITBUF and BIT_LEN as ENCODE and UNPACK write them (42_bit_packer.md R150, R170). -/
def State.setBits (s : State) (bits : List Bool) : State :=
  { s with
    mem := { s.mem with bitbuf := Ram.ofList s.draws bits }
    draws := s.draws + 1
    bitLen := BitVec.ofNat 32 bits.length }

/-- ARTBUF and ART_LEN as PACK writes them (42_bit_packer.md R160). -/
def State.setArt (s : State) (bytes : List Byte) : State :=
  { s with
    mem := { s.mem with artbuf := Ram.ofList s.draws bytes }
    draws := s.draws + 1
    artLen := BitVec.ofNat 32 bytes.length }

/-- SYMBUF and SYM_COUNT as DECODE writes them (43_decoder.md R180). -/
def State.setSyms (s : State) (syms : List Sym) : State :=
  { s with
    mem := { s.mem with symbuf := Ram.ofList s.draws syms }
    draws := s.draws + 1
    symCount := BitVec.ofNat 32 syms.length }

/-- TREEBUF and TREE_LEN as SERIALIZE writes them: the bytes, then ANY from byte `n` on
(44_tree_serializer.md R190). -/
def State.setTreeBytes (s : State) (bytes : List Byte) (n : Nat) : State :=
  { s with
    mem := { s.mem with treebuf := Ram.ofList s.draws (bytes.take n) }
    draws := s.draws + 1
    treeLen := BitVec.ofNat 32 n }

/-- The arena, its descriptor and the flags as BUILD and DESERIALIZE write them on success
(40_tree_builder.md R121, 44_tree_serializer.md R195). -/
def State.setArena (s : State) (nodes : List Node) (root leaves : Nat) : State :=
  { s with
    mem := { s.mem with node := Ram.ofList s.draws nodes }
    nodeView := s.draws
    draws := s.draws + 1
    nodeCount := BitVec.ofNat 32 nodes.length
    root := BitVec.ofNat 32 root
    leafCount := BitVec.ofNat 32 leaves
    treeValid := true
    codesValid := false }

/-- CTAB, MAX_LEN and CODES_VALID as GEN_CODES writes them on success (41_code_map.md R140); all entries
are written, so none becomes ANY (R144). -/
def State.setCodes (s : State) (codes : List Code) (maxLen : Nat) : State :=
  { s with
    mem := { s.mem with ctab := Ram.ofList s.mem.ctab.draw codes }
    maxLen := BitVec.ofNat 32 maxLen
    codesValid := true }

/-! ### What an in-flight error leaves (60_exceptions.md R215) -/

/-- GEN_CODES: CODES_VALID ← 0, MAX_LEN ← 0, every CTAB entry ANY. -/
def State.loseCodes (s : State) : State := { s.anyCodes with codesValid := false, maxLen := 0 }
/-- ENCODE: BIT_LEN ← 0, every BITBUF bit ANY. -/
def State.loseBits (s : State) : State := { s.anyBits with bitLen := 0 }
/-- DECODE: SYM_COUNT ← 0, every SYMBUF entry ANY. -/
def State.loseSyms (s : State) : State := { s.anySyms with symCount := 0 }
/-- DESERIALIZE: both flags ← 0, the descriptor ← 0, every NODE entry ANY. -/
def State.loseArena (s : State) : State :=
  { s.anyNodes with treeValid := false, codesValid := false, nodeCount := 0, root := 0, leafCount := 0 }

/-! ### Issue and completion -/

/-- The issue of command word `v` (30_encoding.md R91), with `wait` host turns before the completion. -/
def State.issueWith (s : State) (v : Word) (wait : Nat) : State :=
  { s with
    cmd := v, errCode := .ok, errInfo := 0, done := false, err := false
    phase := .running v wait }

/-- The issue of command word `v` (30_encoding.md R91); the latency is free (00_scope.md R7, log 3). -/
def State.issue (s : State) (v : Word) : State :=
  { s.issueWith v (Config.lat s.draws) with draws := s.draws + 1 }

/-- Completion (60_exceptions.md R210): the result is recorded, DONE rises, the engine is IDLE again. -/
def State.complete (s : State) (code : ResultCode) (info : Word) : State :=
  { s with
    errCode := code, errInfo := info, err := decide (code ≠ .ok), done := true
    phase := .idle }

/-- "complete OK": the outcome of a command that succeeded, leaving `s`. -/
def succeed (s : State) : Host.Outcome State Fault Refusal := .next (s.complete .ok 0)

/-- `raise Err(code, info)` (60_exceptions.md R212): the outcome of a command that failed, leaving `s`
(the state before the command for a pre-check error, R214; the state of R215 for an in-flight one). -/
def raiseErr (s : State) (code : ResultCode) (info : Word) : Host.Outcome State Fault Refusal :=
  .next (s.complete code info)

/-- A word that is no command completes with ILLEGAL_CMD and itself in ERR_INFO (30_encoding.md R93, R94). -/
def illegalCommand (s : State) (w : Word) : Host.Outcome State Fault Refusal := raiseErr s .illegalCmd w

/-! ### Reset -/

/-- The output of a command that a soft reset abandons becomes ANY (70_reset_and_hazards.md R251, table). -/
def State.loseOutputOf (s : State) : Instr → State
  | .nop => s
  | .build => s.anyNodes
  | .genCodes => s.anyCodes
  | .encode => s.anyBits
  | .pack => s.anyArt
  | .unpack => s.anyBits
  | .decode => s.anySyms
  | .serialize => s.anyTreeBytes
  | .deserialize => s.anyNodes

/-- Abandons the running command, if there is one (70_reset_and_hazards.md R251). -/
def State.abandon (s : State) : State :=
  match s.phase with
  | .idle => s
  | .running w _ =>
    match decode w with
    | .ok i => s.loseOutputOf i
    | .error _ => s

/-- Every register of 10_state.md R23 at its reset value (R45), the engine IDLE. -/
def State.clearRegisters (s : State) : State :=
  { s with
    irqEn := false, done := false, err := false, treeValid := false, codesValid := false
    cmd := 0, errCode := .ok, errInfo := 0
    wtabLen := 0, symCount := 0, bitLen := 0, artLen := 0, treeLen := 0
    nodeCount := 0, root := 0, leafCount := 0, maxLen := 0
    phase := .idle }

/-- The soft reset (70_reset_and_hazards.md R251): RAM contents other than an abandoned command's outputs
keep their values, and so does the draw of the NODE window: an entry that read ANY before keeps its draw
(10_state.md R44), and one that showed the tree reads, as TREE_VALID falls, its part of that draw, which
nothing has shown yet (20_memory.md R75, log 9). -/
def State.softReset (s : State) : State := s.abandon.clearRegisters

/-- A pulse of the reset input (70_reset_and_hazards.md R250): the values of 10_state.md R45, every RAM
entry a fresh draw, a running command abandoned. The host keeps its lines (log 15). -/
def State.powerReset (s : State) : State :=
  { State.powerOn s.cfg s.draws with program := s.program, line := s.line, response := s.response }

end Sys2Proof.Machine
end

