-- ==== Sys2Proof/Machine/Operands.lean ====
section
/-! DEFINITION. The operand forms of the commands (30_encoding.md R95): fields of an arena entry
(10_state.md R34), the lists of entries a length register names (R30), bits and bytes (00_scope.md R10,
20_memory.md R70, R71), big-endian fields (44_tree_serializer.md), and the tree that the arena holds
(00_scope.md R13, 10_state.md R42). -/

namespace Sys2Proof

/-! ### Fields of an arena entry (10_state.md R34) -/

/-- KIND = 0, a leaf. -/
def Node.isLeaf : Node → Bool
  | .leaf _ _ => true
  | .internal _ _ _ _ => false

/-- WEIGHT. -/
def Node.weight : Node → Weight
  | .leaf w _ => w
  | .internal w _ _ _ => w

/-- SYM; only a leaf has one (log 21). -/
def Node.sym : Node → Sym
  | .leaf _ s => s
  | .internal _ _ _ _ => 0

/-- LEFT; only an internal node has one (log 21). -/
def Node.left : Node → NodeIdx
  | .leaf _ _ => 0
  | .internal _ l _ _ => l

/-- RIGHT; only an internal node has one (log 21). -/
def Node.right : Node → NodeIdx
  | .leaf _ _ => 0
  | .internal _ _ r _ => r

/-- FIRST: the leftmost symbol of the node's subtree (10_state.md R34, R43). -/
def Node.first : Node → Sym
  | .leaf _ s => s
  | .internal _ _ _ f => f

/-! ### Trees (00_scope.md R13) -/

/-- The weight of a tree's root. -/
def CodeTree.weight : CodeTree → Weight
  | .leaf w _ => w
  | .node w _ _ => w

/-- `first(T)`: the symbol of the leftmost leaf (00_scope.md R13). -/
def CodeTree.first : CodeTree → Sym
  | .leaf _ s => s
  | .node _ l _ => l.first

/-- The symbols of the leaves, left to right. -/
def CodeTree.syms : CodeTree → List Sym
  | .leaf _ s => [s]
  | .node _ l r => l.syms ++ r.syms

/-- The leaves with their paths: `path(T, leaf)` is the bitstring of edges from the root, a left edge 0
and a right edge 1 (00_scope.md R13). -/
def CodeTree.paths : CodeTree → List (Sym × List Bool)
  | .leaf _ s => [(s, [])]
  | .node _ l r =>
    l.paths.map (fun p => (p.1, false :: p.2)) ++ r.paths.map (fun p => (p.1, true :: p.2))

/-- Every leaf's WEIGHT is at least 1 (10_state.md R42 clause 3). -/
def CodeTree.leavesPositive : CodeTree → Prop
  | .leaf w _ => 1 ≤ w.toNat
  | .node _ l r => l.leavesPositive ∧ r.leavesPositive

/-- Every internal node's weight is the exact sum of its children's (10_state.md R42 clause 4). -/
def CodeTree.sumsExact : CodeTree → Prop
  | .leaf _ _ => True
  | .node w l r => w.toNat = l.weight.toNat + r.weight.toNat ∧ l.sumsExact ∧ r.sumsExact

end Sys2Proof

namespace Sys2Proof.Machine

/-! ### Bits and bytes -/

/-- `bits8(v)`: the 8 bits of a byte, the most significant first (00_scope.md R10). -/
def bits8 (v : Byte) : List Bool :=
  [v.getLsbD 7, v.getLsbD 6, v.getLsbD 5, v.getLsbD 4, v.getLsbD 3, v.getLsbD 2, v.getLsbD 1, v.getLsbD 0]

/-- The byte with these 8 bits, the first one most significant (20_memory.md R71). -/
def byteOfBits (b0 b1 b2 b3 b4 b5 b6 b7 : Bool) : Byte :=
  BitVec.ofNat 8 (128 * b0.toNat + 64 * b1.toNat + 32 * b2.toNat + 16 * b3.toNat + 8 * b4.toNat
    + 4 * b5.toNat + 2 * b6.toNat + b7.toNat)

/-- Splits a bitstring into groups of 8, one byte each (42_bit_packer.md R160, step 4); the bitstrings it
is used on have a length that is a multiple of 8. -/
def bytesOfBits : List Bool → List Byte
  | b0 :: b1 :: b2 :: b3 :: b4 :: b5 :: b6 :: b7 :: rest =>
    byteOfBits b0 b1 b2 b3 b4 b5 b6 b7 :: bytesOfBits rest
  | _ => []

/-- Expands bytes into bits, the most significant first (42_bit_packer.md R170, step 1). -/
def bitsOfBytes : List Byte → List Bool
  | [] => []
  | b :: bs => bits8 b ++ bitsOfBytes bs

/-- The word with these bytes in bits [7:0], [15:8], [23:16], [31:24] (20_memory.md R70). -/
def wordOfBytes (b0 b1 b2 b3 : Byte) : Word := b3 ++ b2 ++ b1 ++ b0

/-- The four bytes of a word, lane by lane (20_memory.md R70). -/
def bytesOfWord (v : Word) : List Byte :=
  [v.extractLsb' 0 8, v.extractLsb' 8 8, v.extractLsb' 16 8, v.extractLsb' 24 8]

/-! ### Operand lists (10_state.md R30) -/

/-- `BITBUF.bit(0 .. n−1)`. -/
def State.bitstring (s : State) (n : Nat) : List Bool := (List.range n).map s.bitAt

/-- `SYMBUF[0 .. n−1]`. -/
def State.symbols (s : State) (n : Nat) : List Sym := (List.range n).map s.symAt

/-- `ARTBUF.byte(0 .. n−1)`. -/
def State.artBytes (s : State) (n : Nat) : List Byte := (List.range n).map s.artByte

/-- The (symbol, weight) pairs of the nonzero entries of `WTAB[0 .. n−1]`, ascending (40_tree_builder.md
R121). -/
def State.weighted (s : State) (n : Nat) : List (Nat × Weight) :=
  (List.range n).filterMap fun i => if s.wtabAt i ≠ 0 then some (i, s.wtabAt i) else none

/-- `be32(p)` over a byte buffer (44_tree_serializer.md). -/
def be32 (byte : Nat → Byte) (p : Nat) : Weight := byte p ++ byte (p + 1) ++ byte (p + 2) ++ byte (p + 3)

/-- `be16(p)` over a byte buffer (44_tree_serializer.md). -/
def be16 (byte : Nat → Byte) (p : Nat) : Sym := byte p ++ byte (p + 1)

/-- A 32-bit field, the most significant byte first (30_encoding.md R105). -/
def bytesBe32 (w : Weight) : List Byte :=
  [w.extractLsb' 24 8, w.extractLsb' 16 8, w.extractLsb' 8 8, w.extractLsb' 0 8]

/-- A 16-bit field, the most significant byte first (30_encoding.md R105). -/
def bytesBe16 (s : Sym) : List Byte := [s.extractLsb' 8 8, s.extractLsb' 0 8]

/-! ### The tree of the arena (10_state.md R42) -/

/-- The tree at arena index `n`, read down to `fuel` levels (10_state.md R42). -/
def treeAt (node : Nat → Node) : Nat → Nat → Option CodeTree
  | 0, _ => none
  | fuel + 1, n =>
    match node n with
    | .leaf w s => some (.leaf w s)
    | .internal w l r _ =>
      match treeAt node fuel l.toNat, treeAt node fuel r.toNat with
      | some a, some b => some (.node w a b)
      | _, _ => none

/-- The tree at ROOT. A tree of the arena has at most NODE_MAX levels (10_state.md R42, R34), so `none`
means that the arena holds no tree there (log 10, log 13). -/
def State.tree (s : State) : Option CodeTree := treeAt s.nodeAt s.cfg.nodeMax s.root.toNat

/-- Index `n` of the arena holds the tree, whose entries in pre-order are `is` (10_state.md R42 clauses 1,
4 and 6: each internal node's children, its exact weight, its FIRST). -/
def holdsTree (node : Nat → Node) : CodeTree → Nat → List Nat → Prop
  | .leaf w s, n, is => node n = .leaf w s ∧ is = [n]
  | .node w a b, n, is =>
    ∃ l r ia ib, node n = .internal w l r a.first ∧ holdsTree node a l.toNat ia ∧
      holdsTree node b r.toNat ib ∧ is = n :: (ia ++ ib) ∧
      w.toNat = a.weight.toNat + b.weight.toNat

end Sys2Proof.Machine
end

