-- ==== Sys2Proof/Machine/BitPacker.lean ====
section
/-! DEFINITION. ENCODE, PACK and UNPACK (42_bit_packer.md R150 to R173, 30_encoding.md R97, R98). -/

namespace Sys2Proof.Machine

/-- The bitstring of a code (10_state.md R35): `c[i] = CODE[LEN−1−i]`. -/
def codeBits (c : Code) : List Bool :=
  (List.range c.len.toNat).map fun j => c.code.getLsbD (c.len.toNat - 1 - j)

/-- The loop of ENCODE (42_bit_packer.md R150) from entry `e` on, with `p` bits emitted: the bits of the
remaining symbols, or the first error. For one entry UNKNOWN_SYMBOL is checked before OUT_OVERFLOW. -/
def encodeFrom (ctab : Nat → Code) (nsym cap : Nat) :
    Nat → Nat → List Sym → Except (ResultCode × Word) (List Bool)
  | _, _, [] => .ok []
  | e, p, s :: rest =>
    if s.toNat ≥ nsym ∨ (ctab s.toNat).len = 0 then .error (.unknownSymbol, BitVec.ofNat 32 e)
    else if p + (ctab s.toNat).len.toNat > cap then .error (.outOverflow, BitVec.ofNat 32 e)
    else
      match encodeFrom ctab nsym cap (e + 1) (p + (ctab s.toNat).len.toNat) rest with
      | .error x => .error x
      | .ok bits => .ok (codeBits (ctab s.toNat) ++ bits)

/-- ENCODE (42_bit_packer.md R150). -/
def execEncode (s : State) : Host.Outcome State Fault Refusal :=
  if s.codesValid = false then raiseErr s .noCodes 0
  else if s.symCount.toNat > s.cfg.symbufMax then raiseErr s .badLength 0x01C
  else
    match encodeFrom s.ctabAt s.cfg.nsym s.cfg.bitbufBits 0 0 (s.symbols s.symCount.toNat) with
    | .error (code, info) => raiseErr s.loseBits code info
    | .ok bits => succeed (s.setBits bits)

/-- `pad = 8 − (L mod 8)` (30_encoding.md R97, 42_bit_packer.md R160). -/
def padLength (len : Nat) : Nat := 8 - len % 8

/-- The Packed Artifact of a bitstring: `bits8(pad) ++ B ++ "0" * pad`, byte by byte (30_encoding.md R97). -/
def artifactOf (bits : List Bool) : List Byte :=
  BitVec.ofNat 8 (padLength bits.length)
    :: bytesOfBits (bits ++ List.replicate (padLength bits.length) false)

/-- The length of the artifact of `len` bits: `1 + (L + pad) / 8` (42_bit_packer.md R160, 30_encoding.md
R98). -/
def artifactLength (len : Nat) : Nat := 1 + (len + padLength len) / 8

/-- PACK (42_bit_packer.md R160). -/
def execPack (s : State) : Host.Outcome State Fault Refusal :=
  if s.bitLen.toNat > s.cfg.bitbufBits then raiseErr s .badLength 0x020
  else if artifactLength s.bitLen.toNat > s.cfg.artMax then
    raiseErr s .outOverflow (BitVec.ofNat 32 (artifactLength s.bitLen.toNat))
  else succeed (s.setArt (artifactOf (s.bitstring s.bitLen.toNat)))

/-- The bitstring of an artifact after its header, without the last `pad` bits (42_bit_packer.md R170,
steps 1 to 3); `len` is the length that stays. The padding is dropped unread (R172). -/
def unpackedBits (artifact : List Byte) (len : Nat) : List Bool :=
  (bitsOfBytes (artifact.drop 1)).take len

/-- UNPACK (42_bit_packer.md R170). -/
def execUnpack (s : State) : Host.Outcome State Fault Refusal :=
  let n := s.artLen.toNat
  let pad := (s.artByte 0).toNat
  let rem := 8 * (n - 1)
  if n > s.cfg.artMax then raiseErr s .badLength 0x024
  else if n = 0 then raiseErr s .malformedArtifact 0
  else if pad < 1 ∨ pad > 8 then raiseErr s .malformedArtifact 1
  else if pad > rem then raiseErr s .malformedArtifact 2
  else if rem - pad > s.cfg.bitbufBits then raiseErr s .outOverflow (BitVec.ofNat 32 (rem - pad))
  else succeed (s.setBits (unpackedBits (s.artBytes n) (rem - pad)))

end Sys2Proof.Machine
end

