-- ==== Sys2Proof/Machine/CodeMap.lean ====
section
/-! DEFINITION. GEN_CODES (41_code_map.md R140 to R144). -/

namespace Sys2Proof.Machine

/-- `visit` (41_code_map.md R140) on the tree: the codes of the leaves in pre-order, `d` the depth and `c`
the code so far as a d-bit number; the symbol of the first leaf deeper than 64 if there is one. -/
def visitCodes : CodeTree → Nat → Nat → Except Sym (List (Sym × Code))
  | .leaf _ s, d, c =>
    if d > Config.maxCode then .error s
    else .ok [(s, { len := BitVec.ofNat 7 d, code := BitVec.ofNat 64 c })]
  | .node _ l r, d, c =>
    match visitCodes l (d + 1) (2 * c) with
    | .error e => .error e
    | .ok a =>
      match visitCodes r (d + 1) (2 * c + 1) with
      | .error e => .error e
      | .ok b => .ok (a ++ b)

/-- The codes of a tree (41_code_map.md R140): a lone leaf gets the code "0" (R141). -/
def treeCodes : CodeTree → Except Sym (List (Sym × Code))
  | .leaf _ s => .ok [(s, { len := 1, code := 0 })]
  | .node w l r => visitCodes (.node w l r) 0 0

/-- The CTAB entry of symbol `i`: LEN = 0 and CODE = 0 if no leaf has it (41_code_map.md R140, R144). -/
def codeFor (codes : List (Sym × Code)) (i : Nat) : Code :=
  match codes.find? (fun p => p.1.toNat == i) with
  | some p => p.2
  | none => { len := 0, code := 0 }

/-- The longest LEN (41_code_map.md R140, MAX_LEN). -/
def longestCode : List (Sym × Code) → Nat
  | [] => 0
  | p :: rest => max p.2.len.toNat (longestCode rest)

/-- CTAB whole: entries 0 .. NSYM−1 (41_code_map.md R144). -/
def codeTable (nsym : Nat) (codes : List (Sym × Code)) : List Code :=
  (List.range nsym).map (codeFor codes)

/-- GEN_CODES (41_code_map.md R140). The tree is read whole first (log 13). -/
def execGenCodes (s : State) : Host.Outcome State Fault Refusal :=
  if s.treeValid = false then raiseErr s .noTree 0
  else
    match s.tree with
    | none => .fault .arenaNotTree
    | some t =>
      match treeCodes t with
      | .error sym => raiseErr s.loseCodes .codeTooLong (sym.setWidth 32)
      | .ok codes => succeed (s.setCodes (codeTable s.cfg.nsym codes) (longestCode codes))

end Sys2Proof.Machine
end

