-- ==== Sys2Proof/Machine/Decoder.lean ====
section
/-! DEFINITION. DECODE (43_decoder.md R180 to R184). -/

namespace Sys2Proof.Machine

/-- One transition of the automaton (43_decoder.md R180): bit 0 goes left, bit 1 goes right. -/
def nextNode (node : Nat → Node) (n : Nat) (b : Bool) : Nat :=
  if b then (node n).right.toNat else (node n).left.toNat

/-- The loop of DECODE for a root that is an internal node (43_decoder.md R180), from bit `i` on: `n` is
the current node, `start` the first bit of the code being read, `c` the symbols emitted so far. -/
def walkBits (node : Nat → Node) (root cap : Nat) :
    Nat → Nat → Nat → Nat → List Bool → Except (ResultCode × Word) (List Sym)
  | _, n, start, _, [] =>
    if n ≠ root then .error (.treeBitstreamMismatch, BitVec.ofNat 32 start) else .ok []
  | i, n, start, c, b :: bits =>
    let begun := if n = root then i else start
    match node (nextNode node n b) with
    | .leaf _ s =>
      if c ≥ cap then .error (.outOverflow, BitVec.ofNat 32 i)
      else
        match walkBits node root cap (i + 1) root begun (c + 1) bits with
        | .error x => .error x
        | .ok syms => .ok (s :: syms)
    | .internal _ _ _ _ => walkBits node root cap (i + 1) (nextNode node n b) begun c bits

/-- The loop of DECODE for a root that is a leaf (43_decoder.md R180, R181), from bit `i` on: every bit
emits the symbol, so `i` symbols were emitted before bit `i`. -/
def repeatSym (sym : Sym) (cap : Nat) : Nat → List Bool → Except (ResultCode × Word) (List Sym)
  | _, [] => .ok []
  | i, _ :: bits =>
    if i ≥ cap then .error (.outOverflow, BitVec.ofNat 32 i)
    else
      match repeatSym sym cap (i + 1) bits with
      | .error x => .error x
      | .ok syms => .ok (sym :: syms)

/-- The symbols a bitstring decodes to at the arena's root, or the first error (43_decoder.md R180). -/
def decodedSymbols (node : Nat → Node) (root cap : Nat) (bits : List Bool) :
    Except (ResultCode × Word) (List Sym) :=
  match node root with
  | .leaf _ s => repeatSym s cap 0 bits
  | .internal _ _ _ _ => walkBits node root cap 0 root 0 0 bits

/-- DECODE (43_decoder.md R180). -/
def execDecode (s : State) : Host.Outcome State Fault Refusal :=
  if s.treeValid = false then raiseErr s .noTree 0
  else if s.bitLen.toNat > s.cfg.bitbufBits then raiseErr s .badLength 0x020
  else
    match decodedSymbols s.nodeAt s.root.toNat s.cfg.symbufMax (s.bitstring s.bitLen.toNat) with
    | .error (code, info) => raiseErr s.loseSyms code info
    | .ok syms => succeed (s.setSyms syms)

end Sys2Proof.Machine
end

