-- ==== Sys2Proof/Machine/TreeBuilder.lean ====
section
/-! DEFINITION. NOP and BUILD (40_tree_builder.md R120 to R128). -/

namespace Sys2Proof.Machine

/-- NOP (40_tree_builder.md R120): completes OK. -/
def execNop (s : State) : Host.Outcome State Fault Refusal := succeed s

/-- The queue order (40_tree_builder.md R122): the key (WEIGHT, FIRST), compared lexicographically. -/
def keyBefore (x y : Node) : Bool :=
  x.weight.toNat < y.weight.toNat ||
    (x.weight.toNat == y.weight.toNat && x.first.toNat < y.first.toNat)

/-- `least(Q)` and Q without it (40_tree_builder.md R121); Q is a list of arena entries with their
indices, in no order. -/
def popLeast : List (Nat × Node) → Option ((Nat × Node) × List (Nat × Node))
  | [] => none
  | x :: xs =>
    match popLeast xs with
    | none => some (x, [])
    | some (m, rest) => if keyBefore m.2 x.2 then some (m, x :: rest) else some (x, xs)

/-- The internal node of a merge: `a` was popped first and is the left child (40_tree_builder.md R121). The
sum is exact: it is at most the total, which fits (R121, corner cases). -/
def mergedNode (a b : Nat × Node) : Node :=
  .internal (BitVec.ofNat 32 (a.2.weight.toNat + b.2.weight.toNat)) (BitVec.ofNat 17 a.1)
    (BitVec.ofNat 17 b.1) a.2.first

/-- Step 2, merge (40_tree_builder.md R121): at most `n` merges of the two least queue members; the new
node takes the next arena index. Each merge shortens the queue by one. -/
def mergeQueue : Nat → List Node → List (Nat × Node) → List Node × List (Nat × Node)
  | 0, nodes, q => (nodes, q)
  | n + 1, nodes, q =>
    match popLeast q with
    | none => (nodes, q)
    | some (a, q1) =>
      match popLeast q1 with
      | none => (nodes, q)
      | some (b, q2) =>
        mergeQueue n (nodes ++ [mergedNode a b]) ((nodes.length, mergedNode a b) :: q2)

/-- The running sum of the weights (40_tree_builder.md R121): the symbol at which it first exceeds
0xFFFFFFFF. -/
def overflowAt : Nat → List (Nat × Weight) → Option Nat
  | _, [] => none
  | total, (i, w) :: rest =>
    if total + w.toNat > 0xFFFFFFFF then some i else overflowAt (total + w.toNat) rest

/-- Step 1, seed (40_tree_builder.md R121): one leaf for each nonzero weight, ascending symbol IDs. -/
def seedLeaves (ws : List (Nat × Weight)) : List Node :=
  ws.map fun p => .leaf p.2 (BitVec.ofNat 16 p.1)

/-- The arena of the tree of the weights `ws`, and the index of its root (40_tree_builder.md R121 steps 1
to 3). -/
def buildArena (ws : List (Nat × Weight)) : List Node × Nat :=
  let leaves := seedLeaves ws
  let out := mergeQueue ws.length leaves (cellsFrom 0 leaves)
  (out.1, ((out.2.head?).map Prod.fst).getD 0)

/-- BUILD (40_tree_builder.md R121). -/
def execBuild (s : State) : Host.Outcome State Fault Refusal :=
  if s.wtabLen.toNat > s.cfg.nsym then raiseErr s .badLength 0x018
  else
    let ws := s.weighted s.wtabLen.toNat
    match overflowAt 0 ws with
    | some i => raiseErr s .weightOverflow (BitVec.ofNat 32 i)
    | none =>
      if ws.isEmpty then raiseErr s .emptyInput 0
      else succeed (s.setArena (buildArena ws).1 (buildArena ws).2 ws.length)

end Sys2Proof.Machine
end

