-- ==== Sys2Proof/Machine/TreeSerializer.lean ====
section
/-! DEFINITION. SERIALIZE and DESERIALIZE (44_tree_serializer.md R190 to R200) and the wire format
(30_encoding.md R105 to R109). -/

namespace Sys2Proof.Machine

/-- A leaf record, 7 bytes (30_encoding.md R106). -/
def leafRecord (w : Weight) (s : Sym) : List Byte := 0x00 :: (bytesBe32 w ++ bytesBe16 s)

/-- An internal record, 5 bytes (30_encoding.md R107). -/
def internalRecord (w : Weight) : List Byte := 0x01 :: bytesBe32 w

/-- `ser(T)` (30_encoding.md R105). -/
def serTree : CodeTree → List Byte
  | .leaf w s => leafRecord w s
  | .node w l r => internalRecord w ++ (serTree l ++ serTree r)

/-- SERIALIZE (44_tree_serializer.md R190). The tree is read whole first (log 13). The length is computed from
LEAF_COUNT, as R190 says; the table of 30_encoding.md R95 lists NODE_COUNT instead (log 24). -/
def execSerialize (s : State) : Host.Outcome State Fault Refusal :=
  let n := 12 * s.leafCount.toNat - 5
  if s.treeValid = false then raiseErr s .noTree 0
  else if n > s.cfg.treeMax then raiseErr s .outOverflow (BitVec.ofNat 32 n)
  else
    match s.tree with
    | none => .fault .arenaNotTree
    | some t => succeed (s.setTreeBytes (serTree t) n)

/-- What `parse` (44_tree_serializer.md R195) gives for one subtree: the position after it, the symbols
seen, its arena entries in the order of their indices (R198), its root's WEIGHT and FIRST. -/
structure Parsed where
  pos    : Nat
  seen   : List Sym
  nodes  : List Node
  weight : Nat
  first  : Sym
  deriving DecidableEq, Repr

/-- `parse()` (44_tree_serializer.md R195) at position `p` with `i` records taken and `seen` the symbols so
far; an error is the ERR_INFO of TREE_MALFORMED (R196). `len` is TREE_LEN. The first argument bounds the
depth; with NODE_MAX + 1 it never runs out, since a record at depth d has d records before it (log 14). -/
def parseRecord (byte : Nat → Byte) (len nodeMax nsym : Nat) :
    Nat → Nat → Nat → List Sym → Except Nat Parsed
  | 0, _, p, _ => .error p
  | fuel + 1, i, p, seen =>
    if p ≥ len then .error len
    else if (byte p).toNat > 1 then .error p
    else if (byte p).toNat = 0 then
      if p + 7 > len then .error len
      else if i ≥ nodeMax then .error p
      else
        let w := be32 byte (p + 1)
        let s := be16 byte (p + 5)
        if w = 0 ∨ s.toNat ≥ nsym ∨ s ∈ seen then .error p
        else .ok { pos := p + 7, seen := s :: seen, nodes := [.leaf w s], weight := w.toNat, first := s }
    else
      if p + 5 > len then .error len
      else if i ≥ nodeMax then .error p
      else
        let w := be32 byte (p + 1)
        match parseRecord byte len nodeMax nsym fuel (i + 1) (p + 5) seen with
        | .error e => .error e
        | .ok a =>
          match parseRecord byte len nodeMax nsym fuel (i + 1 + a.nodes.length) a.pos a.seen with
          | .error e => .error e
          | .ok b =>
            if a.weight + b.weight ≠ w.toNat then .error p
            else
              .ok
                { pos := b.pos
                  seen := b.seen
                  nodes := .internal w (BitVec.ofNat 17 (i + 1)) (BitVec.ofNat 17 (i + 1 + a.nodes.length))
                    a.first :: (a.nodes ++ b.nodes)
                  weight := w.toNat
                  first := a.first }

/-- The whole blob (44_tree_serializer.md R195): one record set from offset 0, and no trailing byte. -/
def parseBlob (byte : Nat → Byte) (len nodeMax nsym : Nat) : Except Nat Parsed :=
  match parseRecord byte len nodeMax nsym (nodeMax + 1) 0 0 [] with
  | .error e => .error e
  | .ok r => if r.pos ≠ len then .error r.pos else .ok r

/-- DESERIALIZE (44_tree_serializer.md R195). -/
def execDeserialize (s : State) : Host.Outcome State Fault Refusal :=
  if s.treeLen.toNat > s.cfg.treeMax then raiseErr s .badLength 0x028
  else
    match parseBlob s.treeByte s.treeLen.toNat s.cfg.nodeMax s.cfg.nsym with
    | .error info => raiseErr s.loseArena .treeMalformed (BitVec.ofNat 32 info)
    | .ok r => succeed (s.setArena r.nodes 0 ((r.nodes.length + 1) / 2))

end Sys2Proof.Machine
end

