-- ==== Sys2Proof/Machine/Bus.lean ====
section
/-! DEFINITION. The host's bus port: the address map (20_memory.md R66, R67, 10_state.md R23), the word views
(R70 to R75), reads and writes with their checks in order (R61, R62, R63 to R69), and the side effects of
CTRL, STATUS and CMD (10_state.md R25, R26, R27). -/

namespace Sys2Proof.Machine

/-! ### The address map -/

/-- The register at an offset (10_state.md R23). -/
def regAt (off : Nat) : Option Reg :=
  match off with
  | 0x000 => some .id
  | 0x004 => some .ctrl
  | 0x008 => some .status
  | 0x00C => some .cmd
  | 0x010 => some .errCode
  | 0x014 => some .errInfo
  | 0x018 => some .wtabLen
  | 0x01C => some .symCount
  | 0x020 => some .bitLen
  | 0x024 => some .artLen
  | 0x028 => some .treeLen
  | 0x02C => some .nodeCount
  | 0x030 => some .root
  | 0x034 => some .leafCount
  | 0x038 => some .maxLen
  | 0x040 => some .capNsym
  | 0x044 => some .capSymbuf
  | 0x048 => some .capBitbuf
  | 0x04C => some .capArt
  | 0x050 => some .capTree
  | 0x054 => some .capMaxcode
  | _ => none

/-- The offset of a register (10_state.md R23). -/
def regOffset : Reg → Nat
  | .id => 0x000
  | .ctrl => 0x004
  | .status => 0x008
  | .cmd => 0x00C
  | .errCode => 0x010
  | .errInfo => 0x014
  | .wtabLen => 0x018
  | .symCount => 0x01C
  | .bitLen => 0x020
  | .artLen => 0x024
  | .treeLen => 0x028
  | .nodeCount => 0x02C
  | .root => 0x030
  | .leafCount => 0x034
  | .maxLen => 0x038
  | .capNsym => 0x040
  | .capSymbuf => 0x044
  | .capBitbuf => 0x048
  | .capArt => 0x04C
  | .capTree => 0x050
  | .capMaxcode => 0x054

/-- The place of a word in a CTAB entry (20_memory.md R74). -/
def ctabWordAt (k : Nat) : CtabWord :=
  match k with
  | 0 => .len
  | 1 => .hi
  | 2 => .lo
  | _ => .zero

/-- The place of a word in a CTAB entry, as a number. -/
def ctabWordIndex : CtabWord → Nat
  | .len => 0
  | .hi => 1
  | .lo => 2
  | .zero => 3

/-- The place of a word in an arena entry (20_memory.md R75). -/
def nodeWordAt (k : Nat) : NodeWord :=
  match k with
  | 0 => .kind
  | 1 => .weight
  | 2 => .a
  | _ => .b

/-- The place of a word in an arena entry, as a number. -/
def nodeWordIndex : NodeWord → Nat
  | .kind => 0
  | .weight => 1
  | .a => 2
  | .b => 3

/-- The location lies in the mapped part of its region (20_memory.md R66, R67). -/
def mapped (c : Config) : Loc → Bool
  | .reg _ => true
  | .wtab s => 4 * s < 4 * c.nsym
  | .ctab s _ => 16 * s < 16 * c.nsym
  | .node n _ => 16 * n < 16 * c.nodeMax
  | .symbuf w => 4 * w < 2 * c.symbufMax
  | .bitbuf w => 4 * w < c.bitbufBits / 8
  | .artbuf w => 4 * w < c.artMax
  | .treebuf w => 4 * w < c.treeMax

/-- The location whose word lies at a word-aligned offset of one of the eight 4 MiB regions (20_memory.md
R66), before the check that it is mapped. -/
def regionLoc (addr : Nat) : Option Loc :=
  let off := addr % 0x400000
  match addr / 0x400000 with
  | 0 => (regAt off).map Loc.reg
  | 1 => some (.wtab (off / 4))
  | 2 => some (.ctab (off / 16) (ctabWordAt (off % 16 / 4)))
  | 3 => some (.node (off / 16) (nodeWordAt (off % 16 / 4)))
  | 4 => some (.symbuf (off / 4))
  | 5 => some (.bitbuf (off / 4))
  | 6 => some (.artbuf (off / 4))
  | 7 => some (.treebuf (off / 4))
  | _ => none

/-- The location at a word-aligned offset, if the offset is mapped (20_memory.md R66, R67). -/
def locate (c : Config) (addr : Nat) : Option Loc :=
  match regionLoc addr with
  | some l => if mapped c l then some l else none
  | none => none

/-- `off(loc)`: the offset of a location from BASE (30_encoding.md R110, 20_memory.md R66). -/
def locOffset : Loc → Nat
  | .reg r => regOffset r
  | .wtab s => 0x0400000 + 4 * s
  | .ctab s w => 0x0800000 + 16 * s + 4 * ctabWordIndex w
  | .node n w => 0x0C00000 + 16 * n + 4 * nodeWordIndex w
  | .symbuf w => 0x1000000 + 4 * w
  | .bitbuf w => 0x1400000 + 4 * w
  | .artbuf w => 0x1800000 + 4 * w
  | .treebuf w => 0x1C00000 + 4 * w

/-! ### Which accesses are accepted -/

/-- The read-only locations (20_memory.md R68). -/
def readOnly : Loc → Bool
  | .reg .id | .reg .errCode | .reg .errInfo | .reg .nodeCount | .reg .root | .reg .leafCount
  | .reg .maxLen | .reg .capNsym | .reg .capSymbuf | .reg .capBitbuf | .reg .capArt | .reg .capTree
  | .reg .capMaxcode => true
  | .ctab _ _ | .node _ _ => true
  | .reg .ctrl | .reg .status | .reg .cmd | .reg .wtabLen | .reg .symCount | .reg .bitLen
  | .reg .artLen | .reg .treeLen => false
  | .wtab _ | .symbuf _ | .bitbuf _ | .artbuf _ | .treebuf _ => false

/-- BUSY_READABLE (20_memory.md R69). -/
def busyReadable : Loc → Bool
  | .reg .id | .reg .ctrl | .reg .status | .reg .cmd | .reg .errCode | .reg .errInfo | .reg .capNsym
  | .reg .capSymbuf | .reg .capBitbuf | .reg .capArt | .reg .capTree | .reg .capMaxcode => true
  | .reg .wtabLen | .reg .symCount | .reg .bitLen | .reg .artLen | .reg .treeLen | .reg .nodeCount
  | .reg .root | .reg .leafCount | .reg .maxLen => false
  | .wtab _ | .ctab _ _ | .node _ _ | .symbuf _ | .bitbuf _ | .artbuf _ | .treebuf _ => false

/-- BUSY_WRITABLE (20_memory.md R69). -/
def busyWritable (l : Loc) : Bool := l == .reg .ctrl || l == .reg .status

/-! ### The word views -/

/-- The value of a register (10_state.md section 2). -/
def State.regWord (s : State) : Reg → Word
  | .id => 0x48554646
  | .ctrl => s.ctrlWord
  | .status => s.statusWord
  | .cmd => s.cmd
  | .errCode => s.errCodeWord
  | .errInfo => s.errInfo
  | .wtabLen => s.wtabLen
  | .symCount => s.symCount
  | .bitLen => s.bitLen
  | .artLen => s.artLen
  | .treeLen => s.treeLen
  | .nodeCount => s.nodeCount
  | .root => s.root
  | .leafCount => s.leafCount
  | .maxLen => s.maxLen
  | .capNsym => BitVec.ofNat 32 s.cfg.nsym
  | .capSymbuf => BitVec.ofNat 32 s.cfg.symbufMax
  | .capBitbuf => BitVec.ofNat 32 s.cfg.bitbufBits
  | .capArt => BitVec.ofNat 32 s.cfg.artMax
  | .capTree => BitVec.ofNat 32 s.cfg.treeMax
  | .capMaxcode => BitVec.ofNat 32 Config.maxCode

/-- The CTAB view of an entry (20_memory.md R74). -/
def codeWordOf (c : Code) : CtabWord → Word
  | .len => c.len.setWidth 32
  | .hi => c.code.extractLsb' 32 32
  | .lo => c.code.extractLsb' 0 32
  | .zero => 0

/-- The NODE view of an entry that holds a node of the tree (20_memory.md R75). -/
def nodeWordOf (n : Node) : NodeWord → Word
  | .kind => if n.isLeaf then 0 else 1
  | .weight => n.weight
  | .a => if n.isLeaf then n.sym.setWidth 32 else n.left.setWidth 32
  | .b => if n.isLeaf then 0 else n.right.setWidth 32

/-- The NODE window (20_memory.md R75): ANY while TREE_VALID = 0 and at n ≥ NODE_COUNT (log 9). -/
def State.nodeWindow (s : State) (n : Nat) (w : NodeWord) : Word :=
  if s.treeValid = true ∧ n < s.nodeCount.toNat then nodeWordOf (s.nodeAt n) w
  else Config.anyNodeWord s.nodeView (4 * n + nodeWordIndex w)

/-- `BITBUF.byte(b)`: bits 8·b .. 8·b+7 of the bitstring, the first one most significant (20_memory.md
R71). -/
def State.bitByte (s : State) (b : Nat) : Byte :=
  byteOfBits (s.bitAt (8 * b)) (s.bitAt (8 * b + 1)) (s.bitAt (8 * b + 2)) (s.bitAt (8 * b + 3))
    (s.bitAt (8 * b + 4)) (s.bitAt (8 * b + 5)) (s.bitAt (8 * b + 6)) (s.bitAt (8 * b + 7))

/-- The word a read of a location returns (20_memory.md R61, R70 to R75). -/
def State.readLoc (s : State) : Loc → Word
  | .reg r => s.regWord r
  | .wtab i => s.wtabAt i
  | .ctab i w => codeWordOf (s.ctabAt i) w
  | .node n w => s.nodeWindow n w
  | .symbuf w => s.symAt (2 * w + 1) ++ s.symAt (2 * w)
  | .bitbuf w => wordOfBytes (s.bitByte (4 * w)) (s.bitByte (4 * w + 1)) (s.bitByte (4 * w + 2))
      (s.bitByte (4 * w + 3))
  | .artbuf w => wordOfBytes (s.artByte (4 * w)) (s.artByte (4 * w + 1)) (s.artByte (4 * w + 2))
      (s.artByte (4 * w + 3))
  | .treebuf w => wordOfBytes (s.treeByte (4 * w)) (s.treeByte (4 * w + 1)) (s.treeByte (4 * w + 2))
      (s.treeByte (4 * w + 3))

/-! ### The writes -/

/-- A write to CTRL (10_state.md R25): SRST = 1 performs the soft reset instead of writing IRQ_EN. -/
def State.writeCtrl (s : State) (v : Word) : State :=
  if v.getLsbD 1 then s.softReset else { s with irqEn := v.getLsbD 0 }

/-- What a write stores in a register, with its side effects (10_state.md R25, R26, R27, R30); a read-only
register keeps its value, and the port never lets such a write through (20_memory.md R68). -/
def State.writeReg (s : State) (v : Word) : Reg → State
  | .ctrl => s.writeCtrl v
  | .status => s.writeStatus v
  | .cmd => s.issue v
  | .wtabLen => { s with wtabLen := v }
  | .symCount => { s with symCount := v }
  | .bitLen => { s with bitLen := v }
  | .artLen => { s with artLen := v }
  | .treeLen => { s with treeLen := v }
  | .id | .errCode | .errInfo | .nodeCount | .root | .leafCount | .maxLen | .capNsym | .capSymbuf
  | .capBitbuf | .capArt | .capTree | .capMaxcode => s

/-- What a write stores at a location (20_memory.md R62, R70 to R73); the read-only windows keep their
values, and the port never lets such a write through (R68). -/
def State.writeLoc (s : State) (v : Word) : Loc → State
  | .reg r => s.writeReg v r
  | .wtab i => { s with mem := { s.mem with wtab := s.mem.wtab.write i v } }
  | .ctab _ _ => s
  | .node _ _ => s
  | .symbuf w =>
    { s with mem := { s.mem with
        symbuf := s.mem.symbuf.writeFrom (2 * w) [v.extractLsb' 0 16, v.extractLsb' 16 16] } }
  | .bitbuf w =>
    { s with mem := { s.mem with bitbuf := s.mem.bitbuf.writeFrom (32 * w) (bitsOfBytes (bytesOfWord v)) } }
  | .artbuf w =>
    { s with mem := { s.mem with artbuf := s.mem.artbuf.writeFrom (4 * w) (bytesOfWord v) } }
  | .treebuf w =>
    { s with mem := { s.mem with treebuf := s.mem.treebuf.writeFrom (4 * w) (bytesOfWord v) } }

/-! ### The port -/

/-- `MemRead(addr, size)` (20_memory.md R61), its checks in the order of the rule. -/
def memRead (s : State) (addr size : Nat) : Except Fault Word :=
  if size ≠ 4 then .error (.busError .size)
  else if addr % 4 ≠ 0 then .error (.busError .misaligned)
  else
    match locate s.cfg addr with
    | none => .error (.busError .unmapped)
    | some l =>
      if s.busy = true ∧ busyReadable l = false then .error (.busError .busy)
      else .ok (s.readLoc l)

/-- `MemWrite(addr, size, v)` (20_memory.md R62), its checks in the order of the rule. -/
def memWrite (s : State) (addr size : Nat) (v : Word) : Except Fault State :=
  if size ≠ 4 then .error (.busError .size)
  else if addr % 4 ≠ 0 then .error (.busError .misaligned)
  else
    match locate s.cfg addr with
    | none => .error (.busError .unmapped)
    | some l =>
      if readOnly l = true then .error (.busError .readOnly)
      else if s.busy = true ∧ busyWritable l = false then .error (.busError .busy)
      else .ok (s.writeLoc v l)

end Sys2Proof.Machine
end

