-- ==== Sys2Proof/Machine/HostPort.lean ====
section
/-! DEFINITION. The host's turn: one line of its list (30_encoding.md R110), one bus transaction
(20_memory.md R60); and the assembler of the host program notation (R110 to R112). -/

namespace Sys2Proof.Machine

/-- The host goes on to line `l` with the port's answer `r`. -/
def State.answer (s : State) (r : Response) (l : Nat) : State := { s with response := r, line := l }

/-- One turn of the host (20_memory.md R60, 30_encoding.md R110). A bus error is a fault (20_memory.md R65,
log 8). BUSYLOOP reads STATUS and goes back to its line while bit 0 is 1. A host at the end of its list
does nothing. -/
def hostTurn (s : State) : Host.Outcome State Fault Refusal :=
  match s.program[s.line]? with
  | none => .next s
  | some (.rd addr size) =>
    match memRead s addr size with
    | .error f => .fault f
    | .ok v => .next (s.answer (.data v) (s.line + 1))
  | some (.wr addr size v) =>
    match memWrite s addr size v with
    | .error f => .fault f
    | .ok t => .next (t.answer .ok (s.line + 1))
  | some (.busyLoop target) =>
    match memRead s 0x008 4 with
    | .error f => .fault f
    | .ok v => .next (s.answer (.data v) (if v.getLsbD 0 then target else s.line + 1))
  | some .resetPin => .next (s.powerReset.answer .none (s.line + 1))

/-! ### The assembler (30_encoding.md R110 to R112, log 16) -/

/-- How many host lines a source line stands for (30_encoding.md R110, R111). -/
def srcSize : SrcLine → Nat
  | .wr _ _ | .rd _ | .cmd _ | .busyLoop _ | .ack | .wait => 1
  | .run _ => 2
  | .label _ | .comment _ => 0

/-- The host line that label `n` names, counting from `pos`. -/
def labelPos (n : Nat) : Nat → List SrcLine → Option Nat
  | _, [] => none
  | pos, .label m :: rest => if m = n then some pos else labelPos n pos rest
  | pos, l :: rest => labelPos n (pos + srcSize l) rest

/-- The host lines of one source line at position `pos` of the program `p` (30_encoding.md R110, R111). RUN
and WAIT loop on their own STATUS read, the fresh label of R111. -/
def expandLine (p : List SrcLine) (pos : Nat) : SrcLine → Option (List HostLine)
  | .wr l v => some [.wr (locOffset l) 4 v]
  | .rd l => some [.rd (locOffset l) 4]
  | .cmd i => some [.wr 0x00C 4 (encode i)]
  | .label _ => some []
  | .busyLoop n => (labelPos n 0 p).map fun k => [.busyLoop k]
  | .comment _ => some []
  | .run i => some [.wr 0x00C 4 (encode i), .busyLoop (pos + 1)]
  | .ack => some [.wr 0x008 4 0x00000006]
  | .wait => some [.busyLoop pos]

/-- The host lines of the source lines from position `pos` on. -/
def expandFrom (p : List SrcLine) : Nat → List SrcLine → Option (List HostLine)
  | _, [] => some []
  | pos, l :: rest =>
    match expandLine p pos l, expandFrom p (pos + srcSize l) rest with
    | some a, some b => some (a ++ b)
    | _, _ => none

/-- The bus transactions of a host program (30_encoding.md R112); none if a BUSYLOOP names no label. -/
def assemble (p : List SrcLine) : Option (List HostLine) := expandFrom p 0 p

end Sys2Proof.Machine
end

