-- ==== Sys2Proof/Machine/Step.lean ====
section
/-! DEFINITION. One step of the machine: the engine's completion step (60_exceptions.md R210) or one turn of
the host (20_memory.md R60), as the engine phase says (log 3); and the placing of one command word for the
next step (log 11). -/

namespace Sys2Proof.Machine

/-- One step. While the engine is RUNNING with host turns left, the host moves and one turn is used up; with
none left the engine completes the command word (30_encoding.md R96, 60_exceptions.md R210). While it is
IDLE the host moves. -/
def step (s : State) : Host.Outcome State Fault Refusal :=
  match s.phase with
  | .idle => hostTurn s
  | .running w (n + 1) => hostTurn { s with phase := .running w n }
  | .running w 0 =>
    match decode w with
    | .ok i => exec i s
    | .error _ => illegalCommand s w

/-- The table word issued as the running command (30_encoding.md R91) with no host turn before its
completion step, so that the very next step completes it (log 11). -/
def State.withFetchWord (s : State) (nbits w : Nat) : State := s.issueWith (tableWord nbits w) 0

end Sys2Proof.Machine
end

