-- ==== Sys2Proof/WellFormed.lean ====
section
/-! DEFINITION. Which parameter sets, host lines and host programs are well formed: the
configuration checks of 00_scope.md R7 and R8, and the access form of 20_memory.md R60, R63 and R64. A command has no operands (30_encoding.md R95), so every command is well formed. -/

namespace Sys2Proof

/-- Every command is well formed: it has no operand (30_encoding.md R95). -/
def Instr.wf : Instr → Bool
  | .nop | .build | .genCodes | .encode | .pack | .unpack | .decode | .serialize | .deserialize => true

/-- BASE is a multiple of 0x2000000 (00_scope.md R7). -/
def Config.baseLegal (c : Config) : Bool := c.base % 0x2000000 == 0
/-- NSYM is 1 .. 65536 (00_scope.md R7). -/
def Config.nsymLegal (c : Config) : Bool := 1 ≤ c.nsym && c.nsym ≤ 65536
/-- SYMBUF_MAX is even, 2 .. 2^21 (00_scope.md R7). -/
def Config.symbufLegal (c : Config) : Bool :=
  c.symbufMax % 2 == 0 && 2 ≤ c.symbufMax && c.symbufMax ≤ 2097152
/-- BITBUF_BITS is a multiple of 32, 32 .. 2^25 (00_scope.md R7). -/
def Config.bitbufLegal (c : Config) : Bool :=
  c.bitbufBits % 32 == 0 && 32 ≤ c.bitbufBits && c.bitbufBits ≤ 33554432
/-- ART_MAX is a multiple of 4, at least BITBUF_BITS/8 + 2, at most 2^22 (00_scope.md R7, R8). -/
def Config.artLegal (c : Config) : Bool :=
  c.artMax % 4 == 0 && c.bitbufBits / 8 + 2 ≤ c.artMax && c.artMax ≤ 4194304
/-- TREE_MAX is a multiple of 4, at least 12·NSYM − 5, at most 2^22 (00_scope.md R7, R8). -/
def Config.treeLegal (c : Config) : Bool :=
  c.treeMax % 4 == 0 && 12 * c.nsym - 5 ≤ c.treeMax && c.treeMax ≤ 4194304

/-- The legal parameter sets of 00_scope.md R7 and R8. -/
def Config.legal (c : Config) : Bool :=
  c.baseLegal && c.nsymLegal && c.symbufLegal && c.bitbufLegal && c.artLegal && c.treeLegal

/-- A bus access of the form the port takes: one aligned 32-bit word in the region (20_memory.md R60, R63,
R64). -/
def accessForm (addr size : Nat) : Bool := size == 4 && addr % 4 == 0 && addr < 0x2000000

/-- A host line whose access has the form the port takes. -/
def HostLine.wf : HostLine → Bool
  | .rd addr size => accessForm addr size
  | .wr addr size _ => accessForm addr size
  | .busyLoop _ => true
  | .resetPin => true

/-- The labels a source program names (30_encoding.md R110). -/
def labelsOf (p : List SrcLine) : List Nat :=
  p.filterMap fun l => match l with
    | .label n => some n
    | _ => none

/-- A source program is well formed if no label is given twice and every BUSYLOOP's label is given. -/
def srcWf (p : List SrcLine) : Bool :=
  (labelsOf p).Nodup &&
    p.all fun l => match l with
      | .busyLoop n => (labelsOf p).contains n
      | _ => true

end Sys2Proof
end

