-- ==== Sys2Proof/Safety.lean ====
section
/-! DEFINITION. What a safe state is, and which results a command can end with (60_exceptions.md R211): the
invariants of 10_state.md R31, R41 and R42 and of the completion registers (R26, R28, R29, 30_encoding.md
R91), what stands before a record of a Serialized Tree (30_encoding.md R105), and the end of a run with its
observation (20_memory.md R84). -/

namespace Sys2Proof.Machine

/-- The arena invariant (10_state.md R42), clause by clause: the entries reachable from ROOT form one tree
in which every entry is reached exactly once, with children below NODE_COUNT (1), distinct symbols below
NSYM (2), leaf weights of at least 1 (3), exact internal weights (4, in `holdsTree`), the counts (5) and
FIRST (6, in `holdsTree`). -/
def arenaOk (s : State) : Prop :=
  ∃ t is, holdsTree s.nodeAt t s.root.toNat is ∧ is.Nodup ∧ (∀ n ∈ is, n < s.nodeCount.toNat) ∧
    t.syms.Nodup ∧ (∀ x ∈ t.syms, x.toNat < s.cfg.nsym) ∧ t.leavesPositive ∧
    s.leafCount.toNat = t.syms.length ∧ s.nodeCount.toNat = 2 * t.syms.length - 1

/-- A tree that 10_state.md R42 allows. -/
def treeOk (nsym : Nat) (t : CodeTree) : Prop :=
  t.syms.Nodup ∧ (∀ x ∈ t.syms, x.toNat < nsym) ∧ t.leavesPositive ∧ t.sumsExact

/-! What stands before a record of a Serialized Tree, in the pre-order of 30_encoding.md R105: `up` lists the
internal nodes the record lies under, from the root down, each with its weight and, where the record lies in
its right subtree, with its left subtree. -/

/-- The bytes before the record. -/
def bytesBefore : List (Weight × Option CodeTree) → List Byte
  | [] => []
  | (w, none) :: up => internalRecord w ++ bytesBefore up
  | (w, some l) :: up => internalRecord w ++ (serTree l ++ bytesBefore up)

/-- The whole subtrees before the record. -/
def treesBefore (up : List (Weight × Option CodeTree)) : List CodeTree := up.filterMap Prod.snd

/-- The number of records of a list of trees: a tree of k leaves has 2·k − 1 (30_encoding.md R108). -/
def recordsOf (ts : List CodeTree) : Nat := (ts.map fun t => 2 * t.syms.length - 1).sum

/-- The number of records before the record. -/
def recordsBefore (up : List (Weight × Option CodeTree)) : Nat := up.length + recordsOf (treesBefore up)

/-- No leaf and no weight of these subtrees of one tree breaks a clause of 10_state.md R42. -/
def subtreesOk (nsym : Nat) (ts : List CodeTree) : Prop :=
  (ts.flatMap CodeTree.syms).Nodup ∧ (∀ x ∈ ts.flatMap CodeTree.syms, x.toNat < nsym) ∧
    ∀ t ∈ ts, t.leavesPositive ∧ t.sumsExact

/-- CTAB and MAX_LEN hold the Code Map of the arena's tree, as GEN_CODES produces it (10_state.md R41,
R32). -/
def codesOk (s : State) : Prop :=
  ∃ t codes, s.tree = some t ∧ treeCodes t = .ok codes ∧
    (∀ i, i < s.cfg.nsym → s.ctabAt i = codeFor codes i) ∧ s.maxLen.toNat = longestCode codes

/-- The invariant of the machine: every state of a run from power-on reset has it. -/
structure State.Inv (s : State) : Prop where
  /-- The parameters are legal (00_scope.md R7, R8). -/
  legal : s.cfg.legal = true
  /-- Every RAM is in canonical form and inside its capacity (log 5). -/
  memWf : s.mem.wf s.cfg = true
  /-- While a command runs, CMD holds its word and the completion registers are cleared (R91, R69). -/
  issued : ∀ w n, s.phase = .running w n →
    s.cmd = w ∧ s.done = false ∧ s.err = false ∧ s.errCode = .ok ∧ s.errInfo = 0
  /-- ERR = 1 only with ERR_CODE ≠ 0 (R26, R28). -/
  errCoded : s.err = true → s.errCode ≠ .ok
  /-- CODES_VALID = 1 implies TREE_VALID = 1 (R41). -/
  codesNeedTree : s.codesValid = true → s.treeValid = true
  /-- TREE_VALID = 1 means the arena holds a tree (R41, R42). -/
  tree : s.treeValid = true → arenaOk s
  /-- TREE_VALID = 0 means the tree descriptor registers are 0 (R31, R215, R251). -/
  noTree : s.treeValid = false → s.nodeCount = 0 ∧ s.root = 0 ∧ s.leafCount = 0
  /-- CODES_VALID = 1 means CTAB holds the Code Map of that tree (R41). -/
  codes : s.codesValid = true → codesOk s

/-- The pre-check errors a command can raise (60_exceptions.md R211). -/
def preCheckCodes : Instr → List ResultCode
  | .nop => []
  | .build => [.badLength, .emptyInput, .weightOverflow]
  | .genCodes => [.noTree]
  | .encode => [.badLength, .noCodes]
  | .pack => [.badLength, .outOverflow]
  | .unpack => [.badLength, .outOverflow, .malformedArtifact]
  | .decode => [.badLength, .noTree]
  | .serialize => [.noTree, .outOverflow]
  | .deserialize => [.badLength]

/-- The in-flight errors a command can raise (60_exceptions.md R211). -/
def inFlightCodes : Instr → List ResultCode
  | .genCodes => [.codeTooLong]
  | .encode => [.unknownSymbol, .outOverflow]
  | .decode => [.outOverflow, .treeBitstreamMismatch]
  | .deserialize => [.treeMalformed]
  | .nop | .build | .pack | .unpack | .serialize => []

/-- The run has ended (20_memory.md R84): the host has issued its last line and STATUS.BUSY = 0. -/
def State.runEnded (s : State) : Bool := decide (s.program.length ≤ s.line) && !s.busy

/-- The final observation (20_memory.md R84): what a read of an offset would return. -/
def State.observe (s : State) (addr : Nat) : Except Fault Word := memRead s addr 4

/-- The machine with a host program loaded from outside (log 11): reset, and the program's first line next. -/
def loaded (c : Config) (program : List HostLine) : State :=
  { State.powerOn c 0 with program := program }

end Sys2Proof.Machine
end

