-- ==== Sys2Proof/Certificates/Slice0/Obligations.lean ====
section
/-! DEFINITION. The statements for the provers. Each one's docstring names the rules of spec/ it rests on.
`s.complete code info` is the completion of 60_exceptions.md R210, whose fields CompletionRecordsTheResult
states. In a frame `t = { s with … }` every field that is not named keeps its value, the RAMs among them;
`draws` is the model's own counter (log 4). -/

namespace Sys2Proof.Claims

open Sys2Proof Sys2Proof.Machine

/-- The sum of the first `n` weights of WTAB. -/
def weightSum (s : State) (n : Nat) : Nat := ((List.range n).map fun i => (s.wtabAt i).toNat).sum

/-- The symbols below `n` with a nonzero weight, ascending. -/
def weightedSyms (s : State) (n : Nat) : List Nat := (List.range n).filter fun i => s.wtabAt i ≠ 0

/-- BUILD has an input it can build a tree of (40_tree_builder.md R121: none of its errors applies). -/
def buildable (s : State) : Prop :=
  s.wtabLen.toNat ≤ s.cfg.nsym ∧ weightedSyms s s.wtabLen.toNat ≠ [] ∧
    weightSum s s.wtabLen.toNat ≤ 0xFFFFFFFF

/-- The key order of 40_tree_builder.md R122. -/
def keyLess (x y : Node) : Prop :=
  x.weight.toNat < y.weight.toNat ∨ (x.weight = y.weight ∧ x.first.toNat < y.first.toNat)

/-- Arena entry `m` is in the queue when entry `j` is made, in an arena whose internal entries start at `k`:
it exists and no earlier merge took it (40_tree_builder.md R121). -/
def inQueue (node : Nat → Node) (k j m : Nat) : Prop :=
  m < j ∧ ∀ j', k ≤ j' → j' < j → m ≠ (node j').left.toNat ∧ m ≠ (node j').right.toNat

/-- SYMBUF entry `e` names a symbol with a code (42_bit_packer.md R150). -/
def coded (s : State) (e : Nat) : Prop :=
  (s.symAt e).toNat < s.cfg.nsym ∧ (s.ctabAt (s.symAt e).toNat).len ≠ 0

/-- The total LEN of the first `n` symbols of SYMBUF. -/
def codeLengthSum (s : State) (n : Nat) : Nat :=
  ((List.range n).map fun e => (s.ctabAt (s.symAt e).toNat).len.toNat).sum

/-- The bit of the artifact at index `i` after the header: bit 7 − (i mod 8) of byte 1 + ⌊i/8⌋
(42_bit_packer.md). -/
def artBit (s : State) (i : Nat) : Bool := (s.artByte (1 + i / 8)).getLsbD (7 - i % 8)

/-- The bytes of TREEBUF that TREE_LEN counts. -/
def treeBytes (s : State) : List Byte := (List.range s.treeLen.toNat).map s.treeByte

/-- A location that only stores: a length register or a word of a writable RAM window (20_memory.md R66,
R77). -/
def plainStorage : Loc → Bool
  | .reg .wtabLen | .reg .symCount | .reg .bitLen | .reg .artLen | .reg .treeLen => true
  | .wtab _ | .symbuf _ | .bitbuf _ | .artbuf _ | .treebuf _ => true
  | .reg _ | .ctab _ _ | .node _ _ => false

/-- The state a failed DESERIALIZE leaves (60_exceptions.md R215), with the NODE RAM, the window draw and the
draw counter taken from `u`. -/
def arenaLost (s u : State) (info : Word) : State :=
  ({ s with
      mem := { s.mem with node := u.mem.node }, nodeView := u.nodeView, draws := u.draws
      treeValid := false, codesValid := false, nodeCount := 0, root := 0, leafCount := 0 } : State).complete
    .treeMalformed info

/-- DESERIALIZE ends with TREE_MALFORMED, this ERR_INFO, and the tree lost (44_tree_serializer.md R195). -/
def malformedAt (s : State) (info : Nat) : Prop :=
  ∃ u, exec .deserialize s = .next u ∧ u = arenaLost s u (BitVec.ofNat 32 info)

end Sys2Proof.Claims

open Sys2Proof Sys2Proof.Machine Sys2Proof.Claims

/-! ### Command words and steps -/

/-- 30_encoding.md R92: the words of the opcode map decode to their commands, and OP 0x09 to 0xFF is
reserved. -/
def Obligations.CommandWordsDecode : Prop :=
  decode 0x00000000 = .ok .nop ∧ decode 0x00000001 = .ok .build ∧ decode 0x00000002 = .ok .genCodes ∧
  decode 0x00000003 = .ok .encode ∧ decode 0x00000004 = .ok .pack ∧ decode 0x00000005 = .ok .unpack ∧
  decode 0x00000006 = .ok .decode ∧ decode 0x00000007 = .ok .serialize ∧
  decode 0x00000008 = .ok .deserialize ∧
  ∀ op : Nat, 0x09 ≤ op → op ≤ 0xFF → decode (BitVec.ofNat 32 op) = .error .reservedOp

/-- 30_encoding.md R96, R94: decode is total over all words; exactly the nine encodings are commands, a
word with a bit of [31:8] set is refused for its reserved bits, the rest for their OP. -/
def Obligations.DecodeExactlyTheNineWords : Prop :=
  ∀ w : Word,
    (∀ i, decode w = .ok i ↔ w = encode i) ∧
    (decode w = .error .reservedBits ↔ 0x100 ≤ w.toNat) ∧
    (decode w = .error .reservedOp ↔ 0x09 ≤ w.toNat ∧ w.toNat ≤ 0xFF)

/-- 60_exceptions.md R210, 30_encoding.md R96: with no host turn left the step is the running command's own
completion step; with turns left, or IDLE, it is a turn of the host (log 3). A placed word is the running
command of the next step (log 11). -/
def Obligations.StepRunsTheIssuedCommand : Prop :=
  (∀ s w i, s.phase = .running w 0 → decode w = .ok i → step s = exec i s) ∧
  (∀ s w n, s.phase = .running w (n + 1) → step s = hostTurn { s with phase := .running w n }) ∧
  (∀ s, s.phase = .idle → step s = hostTurn s) ∧
  (∀ (s : State) i, step (s.withFetchWord 32 (encode i).toNat) = exec i (s.withFetchWord 32 (encode i).toNat))

/-- 30_encoding.md R93, R94: a word with a reserved OP or a reserved bit completes with ILLEGAL_CMD and the
word in ERR_INFO, and changes no other state. -/
def Obligations.IllegalWordsComplete : Prop :=
  ∀ (s : State) (w : Word), s.phase = .running w 0 →
    (w.extractLsb' 8 24 ≠ 0 ∨ 0x09 ≤ (w.extractLsb' 0 8).toNat) →
    step s = .next { s with
      errCode := .illegalCmd, errInfo := w, err := true, done := true, phase := .idle }

/-- 10_state.md R27 with the action of 30_encoding.md R91: a write to CMD while BUSY = 0 stores and issues
the word, clearing the result; while BUSY = 1 it gets a bus error; a read returns the stored word. -/
def Obligations.IssueStoresTheCommand : Prop :=
  ∀ (s : State) (v : Word),
    (s.busy = false → ∃ t n, memWrite s 0x00C 4 v = .ok t ∧
      t = { s with
        cmd := v, errCode := .ok, errInfo := 0, done := false, err := false, phase := .running v n
        draws := t.draws } ∧ t.busy = true) ∧
    (s.busy = true → memWrite s 0x00C 4 v = .error (.busError .busy)) ∧
    memRead s 0x00C 4 = .ok s.cmd ∧
    ∀ c d, memRead (State.powerOn c d) 0x00C 4 = .ok 0

/-- 60_exceptions.md R210, 30_encoding.md R95: every command that answers a next state has recorded its
result, raised DONE and made the engine IDLE; no command writes CTRL, CMD, WTAB_LEN, WTAB, the parameters
or the host. -/
def Obligations.CompletionRecordsTheResult : Prop :=
  (∀ (s : State) code info, s.complete code info = { s with
    errCode := code, errInfo := info, err := decide (code ≠ .ok), done := true, phase := .idle }) ∧
  ∀ i s t, exec i s = .next t →
    t.phase = .idle ∧ t.busy = false ∧ t.done = true ∧ (t.err = true ↔ t.errCode ≠ .ok) ∧
    (t.errCode = .ok → t.errInfo = 0) ∧ t.irqEn = s.irqEn ∧ t.cmd = s.cmd ∧ t.wtabLen = s.wtabLen ∧
    t.mem.wtab = s.mem.wtab ∧ t.cfg = s.cfg ∧ t.program = s.program ∧ t.line = s.line ∧
    t.response = s.response

/-! ### Result codes -/

/-- 60_exceptions.md R211: the codes and their numbers, and which command raises which. -/
def Obligations.ResultCodesOfEachCommand : Prop :=
  ResultCode.byte .ok = 0x00 ∧ ResultCode.byte .illegalCmd = 0x01 ∧ ResultCode.byte .badLength = 0x02 ∧
  ResultCode.byte .emptyInput = 0x03 ∧ ResultCode.byte .weightOverflow = 0x04 ∧
  ResultCode.byte .noTree = 0x05 ∧ ResultCode.byte .noCodes = 0x06 ∧
  ResultCode.byte .unknownSymbol = 0x07 ∧ ResultCode.byte .codeTooLong = 0x08 ∧
  ResultCode.byte .outOverflow = 0x09 ∧ ResultCode.byte .malformedArtifact = 0x0A ∧
  ResultCode.byte .treeBitstreamMismatch = 0x0B ∧ ResultCode.byte .treeMalformed = 0x0C ∧
  (∀ s : State, memRead s 0x010 4 = .ok (s.errCode.byte.setWidth 32) ∧ s.errCode.byte.toNat ≤ 0x0C) ∧
  ∀ i s t, exec i s = .next t →
    t.errCode = .ok ∨ t.errCode ∈ preCheckCodes i ∨ t.errCode ∈ inFlightCodes i

/-- 60_exceptions.md R214: a pre-check error, ILLEGAL_CMD among them, changes no state but the completion
fields. -/
def Obligations.PreCheckErrorsChangeNothing : Prop :=
  (∀ i s t, exec i s = .next t → t.errCode ∈ preCheckCodes i →
    t = { s with
      errCode := t.errCode, errInfo := t.errInfo, err := true, done := true, phase := .idle }) ∧
  ∀ (s : State) w e, s.phase = .running w 0 → decode w = .error e →
    ∃ t, step s = .next t ∧ t.errCode = .illegalCmd ∧
      t = { s with
        errCode := t.errCode, errInfo := t.errInfo, err := true, done := true, phase := .idle }

/-- 60_exceptions.md R215: what an in-flight error of each command invalidates, and that the inputs and
everything else stay unchanged. That ANY is the draw of the command's own number, and that the NODE window
has a draw of its own, are the model's choices (logs 4 and 9). -/
def Obligations.InFlightErrorsInvalidateTheOutput : Prop :=
  (∀ s t, exec .genCodes s = .next t → t.errCode ∈ inFlightCodes .genCodes →
    t = ({ s with
      mem := { s.mem with ctab := t.mem.ctab }, draws := t.draws, codesValid := false
      maxLen := 0 } : State).complete t.errCode t.errInfo ∧
    ∀ k, t.ctabAt k = Config.anyCtab s.draws k) ∧
  (∀ s t, exec .encode s = .next t → t.errCode ∈ inFlightCodes .encode →
    t = ({ s with
      mem := { s.mem with bitbuf := t.mem.bitbuf }, draws := t.draws
      bitLen := 0 } : State).complete t.errCode t.errInfo ∧
    ∀ k, t.bitAt k = Config.anyBitbuf s.draws k) ∧
  (∀ s t, exec .decode s = .next t → t.errCode ∈ inFlightCodes .decode →
    t = ({ s with
      mem := { s.mem with symbuf := t.mem.symbuf }, draws := t.draws
      symCount := 0 } : State).complete t.errCode t.errInfo ∧
    ∀ k, t.symAt k = Config.anySymbuf s.draws k) ∧
  (∀ s t, exec .deserialize s = .next t → t.errCode ∈ inFlightCodes .deserialize →
    t = arenaLost s t t.errInfo ∧ t.nodeView = s.draws ∧ ∀ k, t.nodeAt k = Config.anyNode s.draws k)

/-- 60_exceptions.md R216: after a successful command the entries of its output buffer beyond the new
length are ANY, by a fresh draw. -/
def Obligations.EntriesBeyondTheNewLengthAreAny : Prop :=
  ∀ s t, s.cfg.legal = true →
    (exec .encode s = .next t → t.errCode = .ok →
      ∀ k, t.bitLen.toNat ≤ k → t.bitAt k = Config.anyBitbuf s.draws k) ∧
    (exec .unpack s = .next t → t.errCode = .ok →
      ∀ k, t.bitLen.toNat ≤ k → t.bitAt k = Config.anyBitbuf s.draws k) ∧
    (exec .pack s = .next t → t.errCode = .ok →
      ∀ k, t.artLen.toNat ≤ k → t.artByte k = Config.anyArtbuf s.draws k) ∧
    (exec .decode s = .next t → t.errCode = .ok →
      ∀ k, t.symCount.toNat ≤ k → t.symAt k = Config.anySymbuf s.draws k) ∧
    (exec .serialize s = .next t → t.errCode = .ok →
      ∀ k, t.treeLen.toNat ≤ k → t.treeByte k = Config.anyTreebuf s.draws k) ∧
    (exec .build s = .next t → t.errCode = .ok →
      ∀ k, t.nodeCount.toNat ≤ k → t.nodeAt k = Config.anyNode s.draws k) ∧
    (exec .deserialize s = .next t → t.errCode = .ok →
      ∀ k, t.nodeCount.toNat ≤ k → t.nodeAt k = Config.anyNode s.draws k)

/-- 60_exceptions.md R221: a second issue of a failed command with the same inputs fails again with the same
code and ERR_INFO. -/
def Obligations.FailedCommandFailsAgain : Prop :=
  ∀ i s t, exec i s = .next t → t.errCode ≠ .ok →
    ∃ u, exec i t = .next u ∧ u.errCode = t.errCode ∧ u.errInfo = t.errInfo

/-- 60_exceptions.md R217 clauses 2 and 3: a missing prerequisite is reported before a bad length, and a bad
length before anything the input holds. -/
def Obligations.PrerequisitesAndLengthsComeFirst : Prop :=
  ∀ s : State,
    (s.treeValid = false → ∀ i ∈ [Instr.genCodes, .decode, .serialize],
      exec i s = .next (s.complete .noTree 0)) ∧
    (s.codesValid = false → exec .encode s = .next (s.complete .noCodes 0)) ∧
    (s.codesValid = true → s.cfg.symbufMax < s.symCount.toNat →
      exec .encode s = .next (s.complete .badLength 0x01C)) ∧
    (s.treeValid = true → s.cfg.bitbufBits < s.bitLen.toNat →
      exec .decode s = .next (s.complete .badLength 0x020))

/-! ### NOP and BUILD -/

/-- 40_tree_builder.md R120: NOP completes OK and changes nothing else. -/
def Obligations.NopCompletes : Prop :=
  ∀ s : State, exec .nop s = .next { s with
    errCode := .ok, errInfo := 0, err := false, done := true, phase := .idle }

/-- 40_tree_builder.md R121, R124, R126: on a buildable WTAB, BUILD completes OK with one leaf for each
nonzero weight in symbol order, the internal nodes after them with children at lower indices, the root
last with the total weight, TREE_VALID set and CODES_VALID cleared; nothing else changes. -/
def Obligations.BuildCompletes : Prop :=
  ∀ s : State, s.cfg.legal = true → buildable s →
    let ys := weightedSyms s s.wtabLen.toNat
    ∃ t, exec .build s = .next t ∧
      t.leafCount.toNat = ys.length ∧ t.nodeCount.toNat = 2 * ys.length - 1 ∧
      t.root.toNat = 2 * ys.length - 2 ∧
      (∀ j x, ys[j]? = some x → t.nodeAt j = .leaf (s.wtabAt x) (BitVec.ofNat 16 x)) ∧
      (∀ j, ys.length ≤ j → j < 2 * ys.length - 1 →
        (t.nodeAt j).isLeaf = false ∧ (t.nodeAt j).left.toNat < j ∧ (t.nodeAt j).right.toNat < j) ∧
      (t.nodeAt t.root.toNat).weight.toNat = weightSum s s.wtabLen.toNat ∧
      t = ({ s with
        mem := { s.mem with node := t.mem.node }, nodeView := t.nodeView, draws := t.draws
        nodeCount := t.nodeCount, root := t.root, leafCount := t.leafCount
        treeValid := true, codesValid := false } : State).complete .ok 0

/-- 40_tree_builder.md R121, R122, R123: each internal node, in the order of creation, has as left child
the least member of the queue by the key (WEIGHT, FIRST), as right child the least of the others, their
exact weight sum, and the left child's FIRST. -/
def Obligations.BuildMergesTheTwoLeast : Prop :=
  ∀ s : State, s.cfg.legal = true → buildable s →
    let k := (weightedSyms s s.wtabLen.toNat).length
    ∃ t, exec .build s = .next t ∧
      ∀ j, k ≤ j → j < 2 * k - 1 →
        ∃ w l r f, t.nodeAt j = .internal w l r f ∧
          inQueue t.nodeAt k j l.toNat ∧ inQueue t.nodeAt k j r.toNat ∧ l ≠ r ∧
          (∀ m, inQueue t.nodeAt k j m → m ≠ l.toNat → keyLess (t.nodeAt l.toNat) (t.nodeAt m)) ∧
          (∀ m, inQueue t.nodeAt k j m → m ≠ l.toNat → m ≠ r.toNat →
            keyLess (t.nodeAt r.toNat) (t.nodeAt m)) ∧
          w.toNat = (t.nodeAt l.toNat).weight.toNat + (t.nodeAt r.toNat).weight.toNat ∧
          f = (t.nodeAt l.toNat).first

/-- 40_tree_builder.md R127: after a successful BUILD the arena satisfies the invariant of 10_state.md
R42. -/
def Obligations.BuildGivesTheArenaInvariant : Prop :=
  ∀ s t : State, s.cfg.legal = true → exec .build s = .next t → t.errCode = .ok → arenaOk t

/-- 40_tree_builder.md R125: two BUILD commands with equal WTAB_LEN and equal WTAB[0 .. WTAB_LEN−1] give
equal results. -/
def Obligations.BuildReadsOnlyItsWeights : Prop :=
  ∀ s s' t : State, s.cfg.legal = true → s'.cfg = s.cfg → s'.wtabLen = s.wtabLen →
    (∀ i, i < s.wtabLen.toNat → s'.wtabAt i = s.wtabAt i) → exec .build s = .next t →
    ∃ t', exec .build s' = .next t' ∧ t'.errCode = t.errCode ∧ t'.errInfo = t.errInfo ∧
      (t.errCode = .ok →
        t'.nodeCount = t.nodeCount ∧ t'.root = t.root ∧ t'.leafCount = t.leafCount ∧
        ∀ j, j < t.nodeCount.toNat → t'.nodeAt j = t.nodeAt j)

/-- 40_tree_builder.md R121: the errors of BUILD, each when it applies, and that nothing else changes. -/
def Obligations.BuildPreCheckErrors : Prop :=
  ∀ s : State,
    (s.cfg.nsym < s.wtabLen.toNat → exec .build s = .next (s.complete .badLength 0x018)) ∧
    (s.wtabLen.toNat ≤ s.cfg.nsym → ∀ i, i < s.wtabLen.toNat → weightSum s i ≤ 0xFFFFFFFF →
      0xFFFFFFFF < weightSum s (i + 1) →
      exec .build s = .next (s.complete .weightOverflow (BitVec.ofNat 32 i))) ∧
    (s.wtabLen.toNat ≤ s.cfg.nsym → weightedSyms s s.wtabLen.toNat = [] →
      exec .build s = .next (s.complete .emptyInput 0))

/-- 40_tree_builder.md R128: exactly one nonzero weight gives the tree that is a single leaf. -/
def Obligations.LoneSymbolGivesTheDegenerateTree : Prop :=
  ∀ (s : State) (x : Nat), s.cfg.legal = true → s.wtabLen.toNat ≤ s.cfg.nsym →
    weightedSyms s s.wtabLen.toNat = [x] →
    ∃ t, exec .build s = .next t ∧ t.errCode = .ok ∧
      t.nodeAt 0 = .leaf (s.wtabAt x) (BitVec.ofNat 16 x) ∧ t.root = 0 ∧ t.nodeCount = 1 ∧
      t.leafCount = 1 ∧ t.treeValid = true ∧ t.codesValid = false

/-! ### GEN_CODES -/

/-- 41_code_map.md R142, R144 (and R140): on a tree of at least two leaves, none deeper than 64, GEN_CODES
completes OK; the code of each leaf's symbol is its path, every other entry is (0, 0), MAX_LEN is the
longest length, CODES_VALID is set, and nothing else changes. -/
def Obligations.GenCodesWritesThePaths : Prop :=
  ∀ (s : State) (w : Weight) (l r : CodeTree), s.cfg.legal = true → s.treeValid = true → arenaOk s →
    s.tree = some (.node w l r) → (∀ p ∈ (CodeTree.node w l r).paths, p.2.length ≤ 64) →
    ∃ u, exec .genCodes s = .next u ∧
      (∀ p ∈ (CodeTree.node w l r).paths,
        (u.ctabAt p.1.toNat).len.toNat = p.2.length ∧ 1 ≤ p.2.length ∧
        (∀ j, j < p.2.length →
          (u.ctabAt p.1.toNat).code.getLsbD (p.2.length - 1 - j) = p.2.getD j false) ∧
        (∀ j, p.2.length ≤ j → (u.ctabAt p.1.toNat).code.getLsbD j = false)) ∧
      (∀ i, i < s.cfg.nsym → (∀ x ∈ (CodeTree.node w l r).syms, x.toNat ≠ i) →
        u.ctabAt i = { len := 0, code := 0 }) ∧
      (∃ p ∈ (CodeTree.node w l r).paths, u.maxLen.toNat = p.2.length) ∧
      (∀ p ∈ (CodeTree.node w l r).paths, p.2.length ≤ u.maxLen.toNat) ∧
      u = ({ s with
        mem := { s.mem with ctab := u.mem.ctab }, maxLen := u.maxLen
        codesValid := true } : State).complete .ok 0

/-- 41_code_map.md R141: when the root is a leaf, its symbol gets the code "0", LEN = 1 and CODE = 0; the
other entries are (0, 0) (R144). -/
def Obligations.DegenerateTreeGetsCodeZero : Prop :=
  ∀ (s : State) (w : Weight) (x : Sym), s.cfg.legal = true → s.treeValid = true →
    s.nodeAt s.root.toNat = .leaf w x → x.toNat < s.cfg.nsym →
    ∃ u, exec .genCodes s = .next u ∧ u.ctabAt x.toNat = { len := 1, code := 0 } ∧
      (∀ i, i < s.cfg.nsym → i ≠ x.toNat → u.ctabAt i = { len := 0, code := 0 }) ∧ u.maxLen = 1 ∧
      u = ({ s with
        mem := { s.mem with ctab := u.mem.ctab }, maxLen := 1
        codesValid := true } : State).complete .ok 0

/-- 41_code_map.md R142: for all symbols x ≠ y in a Code Map, neither code is a prefix of the other. -/
def Obligations.CodesArePrefixFree : Prop :=
  ∀ s u : State, s.cfg.legal = true → arenaOk s → exec .genCodes s = .next u → u.errCode = .ok →
    ∀ x y, x < s.cfg.nsym → y < s.cfg.nsym → x ≠ y → (u.ctabAt x).len ≠ 0 → (u.ctabAt y).len ≠ 0 →
      ¬ codeBits (u.ctabAt x) <+: codeBits (u.ctabAt y)

/-- 41_code_map.md R140: a leaf deeper than 64 ends GEN_CODES with CODE_TOO_LONG and the symbol of the first
such leaf in pre-order; CODES_VALID and MAX_LEN become 0, CTAB becomes ANY, nothing else changes. -/
def Obligations.DeepTreeEndsWithCodeTooLong : Prop :=
  ∀ (s : State) (t : CodeTree) (p : Sym × List Bool), s.treeValid = true → s.tree = some t →
    t.paths.find? (fun q => 64 < q.2.length) = some p →
    ∃ u, exec .genCodes s = .next u ∧
      u = ({ s with
        mem := { s.mem with ctab := u.mem.ctab }, draws := u.draws, codesValid := false
        maxLen := 0 } : State).complete .codeTooLong (p.1.setWidth 32) ∧
      ∀ k, u.ctabAt k = Config.anyCtab s.draws k

/-! ### ENCODE, PACK and UNPACK -/

/-- 42_bit_packer.md R150: when every entry is coded and the bits fit, ENCODE completes OK with the codes
concatenated in symbol order and BIT_LEN their length; nothing else changes. -/
def Obligations.EncodeConcatenatesTheCodes : Prop :=
  ∀ s : State, s.cfg.legal = true → s.codesValid = true → s.symCount.toNat ≤ s.cfg.symbufMax →
    (∀ e, e < s.symCount.toNat → coded s e) →
    codeLengthSum s s.symCount.toNat ≤ s.cfg.bitbufBits →
    ∃ t, exec .encode s = .next t ∧
      t.bitLen.toNat = codeLengthSum s s.symCount.toNat ∧
      t.bitstring t.bitLen.toNat =
        (s.symbols s.symCount.toNat).flatMap (fun x => codeBits (s.ctabAt x.toNat)) ∧
      t = ({ s with
        mem := { s.mem with bitbuf := t.mem.bitbuf }, draws := t.draws
        bitLen := t.bitLen } : State).complete .ok 0

/-- 42_bit_packer.md R150: the first entry without a code, or the first whose code does not fit, is
reported by its index; for one entry UNKNOWN_SYMBOL comes before OUT_OVERFLOW. BIT_LEN becomes 0. -/
def Obligations.EncodeReportsTheFirstBadEntry : Prop :=
  ∀ (s : State) (e : Nat), s.codesValid = true → s.symCount.toNat ≤ s.cfg.symbufMax →
    e < s.symCount.toNat → (∀ j, j < e → coded s j) → codeLengthSum s e ≤ s.cfg.bitbufBits →
    (¬ coded s e → ∃ t, exec .encode s = .next t ∧
      t = ({ s with
        mem := { s.mem with bitbuf := t.mem.bitbuf }, draws := t.draws
        bitLen := 0 } : State).complete .unknownSymbol (BitVec.ofNat 32 e)) ∧
    (coded s e → s.cfg.bitbufBits < codeLengthSum s (e + 1) → ∃ t, exec .encode s = .next t ∧
      t = ({ s with
        mem := { s.mem with bitbuf := t.mem.bitbuf }, draws := t.draws
        bitLen := 0 } : State).complete .outOverflow (BitVec.ofNat 32 e))

/-- 30_encoding.md R97, R98 and 42_bit_packer.md R161: PACK of L bits completes OK with the pad byte
8 − (L mod 8), then the bits, most significant first, then zero bits; the artifact has ⌊L/8⌋ + 2 bytes;
nothing else changes. -/
def Obligations.PackWritesTheArtifact : Prop :=
  ∀ s : State, s.cfg.legal = true → s.bitLen.toNat ≤ s.cfg.bitbufBits →
    ∃ t, exec .pack s = .next t ∧
      t.artLen.toNat = 1 + s.bitLen.toNat / 8 + 1 ∧
      (t.artByte 0).toNat = 8 - s.bitLen.toNat % 8 ∧ 1 ≤ (t.artByte 0).toNat ∧
      (t.artByte 0).toNat ≤ 8 ∧
      (∀ i, i < s.bitLen.toNat → artBit t i = s.bitAt i) ∧
      (∀ i, s.bitLen.toNat ≤ i → i < s.bitLen.toNat + (8 - s.bitLen.toNat % 8) → artBit t i = false) ∧
      t = ({ s with
        mem := { s.mem with artbuf := t.mem.artbuf }, draws := t.draws
        artLen := t.artLen } : State).complete .ok 0

/-- 42_bit_packer.md R160, R170, R171: the pre-check errors of PACK and UNPACK, each when it applies, with
its ERR_INFO, and that nothing else changes. -/
def Obligations.PackAndUnpackPreCheckErrors : Prop :=
  ∀ s : State,
    (s.cfg.bitbufBits < s.bitLen.toNat → exec .pack s = .next (s.complete .badLength 0x020)) ∧
    (s.bitLen.toNat ≤ s.cfg.bitbufBits → s.cfg.artMax < 2 + s.bitLen.toNat / 8 →
      exec .pack s = .next (s.complete .outOverflow (BitVec.ofNat 32 (2 + s.bitLen.toNat / 8)))) ∧
    (s.cfg.artMax < s.artLen.toNat → exec .unpack s = .next (s.complete .badLength 0x024)) ∧
    (s.artLen = 0 → exec .unpack s = .next (s.complete .malformedArtifact 0)) ∧
    (s.artLen.toNat ≤ s.cfg.artMax → 1 ≤ s.artLen.toNat →
      (s.artByte 0).toNat = 0 ∨ 8 < (s.artByte 0).toNat →
      exec .unpack s = .next (s.complete .malformedArtifact 1)) ∧
    (s.artLen.toNat ≤ s.cfg.artMax → 1 ≤ s.artLen.toNat → 1 ≤ (s.artByte 0).toNat →
      (s.artByte 0).toNat ≤ 8 →
      (8 * (s.artLen.toNat - 1) < (s.artByte 0).toNat →
        exec .unpack s = .next (s.complete .malformedArtifact 2)) ∧
      ((s.artByte 0).toNat ≤ 8 * (s.artLen.toNat - 1) →
        s.cfg.bitbufBits < 8 * (s.artLen.toNat - 1) - (s.artByte 0).toNat →
        exec .unpack s = .next (s.complete .outOverflow
          (BitVec.ofNat 32 (8 * (s.artLen.toNat - 1) - (s.artByte 0).toNat)))))

/-- 42_bit_packer.md R170: UNPACK of a well-formed artifact completes OK with the bits after the header,
less the last pad bits, and BIT_LEN their number; nothing else changes. -/
def Obligations.UnpackRecoversTheBits : Prop :=
  ∀ s : State, s.cfg.legal = true → s.artLen.toNat ≤ s.cfg.artMax →
    1 ≤ (s.artByte 0).toNat → (s.artByte 0).toNat ≤ 8 →
    (s.artByte 0).toNat ≤ 8 * (s.artLen.toNat - 1) →
    8 * (s.artLen.toNat - 1) - (s.artByte 0).toNat ≤ s.cfg.bitbufBits →
    ∃ t, exec .unpack s = .next t ∧
      t.bitLen.toNat = 8 * (s.artLen.toNat - 1) - (s.artByte 0).toNat ∧
      (∀ i, i < t.bitLen.toNat → t.bitAt i = artBit s i) ∧
      t = ({ s with
        mem := { s.mem with bitbuf := t.mem.bitbuf }, draws := t.draws
        bitLen := t.bitLen } : State).complete .ok 0

/-- 42_bit_packer.md R172: UNPACK does not read the padding bits: two artifacts that agree in the header
and in the bits before the padding unpack alike. -/
def Obligations.UnpackIgnoresThePadding : Prop :=
  ∀ s s' t : State, s'.cfg = s.cfg → s'.artLen = s.artLen → s'.artByte 0 = s.artByte 0 →
    (∀ i, i < 8 * (s.artLen.toNat - 1) - (s.artByte 0).toNat → artBit s' i = artBit s i) →
    exec .unpack s = .next t →
    ∃ t', exec .unpack s' = .next t' ∧ t'.errCode = t.errCode ∧ t'.errInfo = t.errInfo ∧
      (t.errCode = .ok → t'.bitLen = t.bitLen ∧ ∀ i, i < t.bitLen.toNat → t'.bitAt i = t.bitAt i)

/-- 42_bit_packer.md R173: PACK then UNPACK restores BIT_LEN and the bits. -/
def Obligations.PackThenUnpackRestoresTheBits : Prop :=
  ∀ s : State, s.cfg.legal = true → s.bitLen.toNat ≤ s.cfg.bitbufBits →
    ∃ t u, exec .pack s = .next t ∧ exec .unpack t = .next u ∧ u.errCode = .ok ∧
      u.bitLen = s.bitLen ∧ ∀ i, i < s.bitLen.toNat → u.bitAt i = s.bitAt i

/-! ### DECODE -/

/-- 43_decoder.md R180: on a tree of at least two leaves, a bitstring that is a sequence of leaf paths
decodes to the leaves' symbols in order, if they fit; nothing else changes. -/
def Obligations.DecodeFollowsThePaths : Prop :=
  ∀ (s : State) (w : Weight) (l r : CodeTree) (xs : List (Sym × List Bool)), s.cfg.legal = true →
    s.treeValid = true → arenaOk s → s.tree = some (.node w l r) →
    s.bitLen.toNat ≤ s.cfg.bitbufBits → (∀ x ∈ xs, x ∈ (CodeTree.node w l r).paths) →
    s.bitstring s.bitLen.toNat = xs.flatMap Prod.snd → xs.length ≤ s.cfg.symbufMax →
    ∃ u, exec .decode s = .next u ∧ u.symCount.toNat = xs.length ∧
      u.symbols xs.length = xs.map Prod.fst ∧
      u = ({ s with
        mem := { s.mem with symbuf := u.mem.symbuf }, draws := u.draws
        symCount := u.symCount } : State).complete .ok 0

/-- 43_decoder.md R182: bits that run out part-way down a path end DECODE with TREE_BITSTREAM_MISMATCH and
the index of the first bit of the unfinished code; SYM_COUNT becomes 0. -/
def Obligations.DecodeReportsAnUnfinishedCode : Prop :=
  ∀ (s : State) (w : Weight) (l r : CodeTree) (xs : List (Sym × List Bool)) (q : List Bool),
    s.cfg.legal = true → s.treeValid = true → arenaOk s → s.tree = some (.node w l r) →
    s.bitLen.toNat ≤ s.cfg.bitbufBits → (∀ x ∈ xs, x ∈ (CodeTree.node w l r).paths) →
    (∃ p ∈ (CodeTree.node w l r).paths, q <+: p.2 ∧ q ≠ p.2) → q ≠ [] →
    s.bitstring s.bitLen.toNat = xs.flatMap Prod.snd ++ q → xs.length ≤ s.cfg.symbufMax →
    ∃ u, exec .decode s = .next u ∧
      u = ({ s with
        mem := { s.mem with symbuf := u.mem.symbuf }, draws := u.draws
        symCount := 0 } : State).complete .treeBitstreamMismatch
          (BitVec.ofNat 32 (xs.flatMap Prod.snd).length)

/-- 43_decoder.md R180, R181: the symbol after the last that fits SYMBUF ends DECODE with OUT_OVERFLOW and
the index of the bit that completed it, on a tree of two leaves or more and on the one-leaf tree. -/
def Obligations.DecodeReportsSymbolOverflow : Prop :=
  (∀ (s : State) (w : Weight) (l r : CodeTree) (xs : List (Sym × List Bool)) (rest : List Bool),
    s.cfg.legal = true → s.treeValid = true → arenaOk s → s.tree = some (.node w l r) →
    s.bitLen.toNat ≤ s.cfg.bitbufBits → (∀ x ∈ xs, x ∈ (CodeTree.node w l r).paths) →
    s.bitstring s.bitLen.toNat = xs.flatMap Prod.snd ++ rest → xs.length = s.cfg.symbufMax + 1 →
    ∃ u, exec .decode s = .next u ∧
      u = ({ s with
        mem := { s.mem with symbuf := u.mem.symbuf }, draws := u.draws
        symCount := 0 } : State).complete .outOverflow
          (BitVec.ofNat 32 ((xs.flatMap Prod.snd).length - 1))) ∧
  (∀ (s : State) (w : Weight) (x : Sym), s.treeValid = true → s.nodeAt s.root.toNat = .leaf w x →
    s.bitLen.toNat ≤ s.cfg.bitbufBits → s.cfg.symbufMax < s.bitLen.toNat →
    ∃ u, exec .decode s = .next u ∧
      u = ({ s with
        mem := { s.mem with symbuf := u.mem.symbuf }, draws := u.draws
        symCount := 0 } : State).complete .outOverflow (BitVec.ofNat 32 s.cfg.symbufMax))

/-- 43_decoder.md R181: when the root is a leaf, each bit, whether 0 or 1, emits its symbol once. -/
def Obligations.DegenerateTreeDecodesEveryBit : Prop :=
  ∀ (s : State) (w : Weight) (x : Sym), s.treeValid = true → s.nodeAt s.root.toNat = .leaf w x →
    s.bitLen.toNat ≤ s.cfg.bitbufBits → s.bitLen.toNat ≤ s.cfg.symbufMax →
    ∃ u, exec .decode s = .next u ∧ u.symCount = s.bitLen ∧
      u.symbols s.bitLen.toNat = List.replicate s.bitLen.toNat x ∧
      u = ({ s with
        mem := { s.mem with symbuf := u.mem.symbuf }, draws := u.draws
        symCount := s.bitLen } : State).complete .ok 0

/-- 43_decoder.md R184: a DECODE after a successful ENCODE gives back SYM_COUNT and the symbols. -/
def Obligations.EncodeThenDecodeRestoresTheSymbols : Prop :=
  ∀ s t : State, s.Inv → exec .encode s = .next t → t.errCode = .ok →
    ∃ u, exec .decode t = .next u ∧ u.errCode = .ok ∧ u.symCount = s.symCount ∧
      ∀ j, j < s.symCount.toNat → u.symAt j = s.symAt j

/-! ### SERIALIZE and DESERIALIZE -/

/-- 30_encoding.md R106, R107: the leaf record of 7 bytes and the internal record of 5, weights and symbols
big-endian, the subtrees left before right (R105). -/
def Obligations.RecordsAreBigEndian : Prop :=
  (∀ (w : Weight) (x : Sym), serTree (.leaf w x) =
    [0x00, w.extractLsb' 24 8, w.extractLsb' 16 8, w.extractLsb' 8 8, w.extractLsb' 0 8,
      x.extractLsb' 8 8, x.extractLsb' 0 8]) ∧
  ∀ (w : Weight) (l r : CodeTree), serTree (.node w l r) =
    [0x01, w.extractLsb' 24 8, w.extractLsb' 16 8, w.extractLsb' 8 8, w.extractLsb' 0 8]
      ++ serTree l ++ serTree r

/-- 44_tree_serializer.md R190, 30_encoding.md R108: with a tree, SERIALIZE completes OK, TREE_LEN is
12·k − 5 and TREEBUF holds the tree's records; nothing else changes. -/
def Obligations.SerializeWritesTheTree : Prop :=
  ∀ (s : State) (t : CodeTree), s.cfg.legal = true → s.treeValid = true → arenaOk s → s.tree = some t →
    ∃ u, exec .serialize s = .next u ∧ u.treeLen.toNat = 12 * t.syms.length - 5 ∧
      treeBytes u = serTree t ∧
      u = ({ s with
        mem := { s.mem with treebuf := u.mem.treebuf }, draws := u.draws
        treeLen := u.treeLen } : State).complete .ok 0

/-- 44_tree_serializer.md R195, R198: DESERIALIZE of the records of a tree that R42 allows completes OK with
that tree in the arena, in pre-order from index 0; nothing else changes. -/
def Obligations.DeserializeRebuildsTheTree : Prop :=
  ∀ (s : State) (t : CodeTree), s.cfg.legal = true → s.treeLen.toNat ≤ s.cfg.treeMax →
    treeOk s.cfg.nsym t → treeBytes s = serTree t →
    ∃ u, exec .deserialize s = .next u ∧ u.tree = some t ∧ arenaOk u ∧ u.root = 0 ∧
      u.leafCount.toNat = t.syms.length ∧ u.nodeCount.toNat = 2 * t.syms.length - 1 ∧
      (∀ j, j < u.nodeCount.toNat → (u.nodeAt j).isLeaf = false → (u.nodeAt j).left.toNat = j + 1) ∧
      u = ({ s with
        mem := { s.mem with node := u.mem.node }, nodeView := u.nodeView, draws := u.draws
        nodeCount := u.nodeCount, root := 0, leafCount := u.leafCount
        treeValid := true, codesValid := false } : State).complete .ok 0

/-- 44_tree_serializer.md R197, R196: DESERIALIZE succeeds exactly on the records of a tree that 10_state.md
R42 allows; after it the arena satisfies R42. -/
def Obligations.DeserializeAcceptsExactlySerializedTrees : Prop :=
  ∀ s u : State, s.cfg.legal = true → s.treeLen.toNat ≤ s.cfg.treeMax → exec .deserialize s = .next u →
    (u.errCode = .ok ↔ ∃ t, treeOk s.cfg.nsym t ∧ treeBytes s = serTree t) ∧
    (u.errCode = .ok → arenaOk u)

/-- 44_tree_serializer.md R195, R196: what DESERIALIZE reports about the first record and the end of the
blob, and about the first record in pre-order that is wrong, wherever it stands: `up` says what is before
it. An internal node's weight is checked after both its subtrees. A bad length changes nothing,
TREE_MALFORMED loses the tree. -/
def Obligations.FirstRecordErrors : Prop :=
  ∀ s : State, s.cfg.legal = true →
    (s.cfg.treeMax < s.treeLen.toNat → exec .deserialize s = .next (s.complete .badLength 0x028)) ∧
    (s.treeLen.toNat ≤ s.cfg.treeMax →
      (s.treeLen = 0 → ∃ u, exec .deserialize s = .next u ∧ u = arenaLost s u 0) ∧
      (1 ≤ s.treeLen.toNat → 1 < (s.treeByte 0).toNat →
        ∃ u, exec .deserialize s = .next u ∧ u = arenaLost s u 0) ∧
      ((s.treeByte 0).toNat = 0 → s.treeLen.toNat < 7 →
        ∃ u, exec .deserialize s = .next u ∧ u = arenaLost s u s.treeLen) ∧
      ((s.treeByte 0).toNat = 1 → s.treeLen.toNat < 5 →
        ∃ u, exec .deserialize s = .next u ∧ u = arenaLost s u s.treeLen) ∧
      ((s.treeByte 0).toNat = 0 → 7 ≤ s.treeLen.toNat →
        (be32 s.treeByte 1 = 0 ∨ s.cfg.nsym ≤ (be16 s.treeByte 5).toNat →
          ∃ u, exec .deserialize s = .next u ∧ u = arenaLost s u 0) ∧
        (be32 s.treeByte 1 ≠ 0 → (be16 s.treeByte 5).toNat < s.cfg.nsym → 7 < s.treeLen.toNat →
          ∃ u, exec .deserialize s = .next u ∧ u = arenaLost s u 7)) ∧
      (∀ up rest, treeBytes s = bytesBefore up ++ rest → subtreesOk s.cfg.nsym (treesBefore up) →
        recordsBefore up ≤ s.cfg.nodeMax →
        (rest = [] → malformedAt s s.treeLen.toNat) ∧
        (∀ b bs, rest = b :: bs → 1 < b.toNat → malformedAt s (bytesBefore up).length) ∧
        (∀ bs, rest = 0x00 :: bs → bs.length < 6 → malformedAt s s.treeLen.toNat) ∧
        (∀ bs, rest = 0x01 :: bs → bs.length < 4 → malformedAt s s.treeLen.toNat) ∧
        (∀ w x bs, rest = leafRecord w x ++ bs →
          recordsBefore up = s.cfg.nodeMax ∨ w = 0 ∨ s.cfg.nsym ≤ x.toNat ∨
            x ∈ (treesBefore up).flatMap CodeTree.syms →
          malformedAt s (bytesBefore up).length) ∧
        (∀ w bs, rest = internalRecord w ++ bs → recordsBefore up = s.cfg.nodeMax →
          malformedAt s (bytesBefore up).length) ∧
        (∀ w l r bs, rest = internalRecord w ++ serTree l ++ serTree r ++ bs →
          subtreesOk s.cfg.nsym (treesBefore up ++ [l, r]) →
          recordsBefore up + 1 + recordsOf [l, r] ≤ s.cfg.nodeMax →
          w.toNat ≠ l.weight.toNat + r.weight.toNat → malformedAt s (bytesBefore up).length)) ∧
      (∀ t rest, treeOk s.cfg.nsym t → treeBytes s = serTree t ++ rest → rest ≠ [] →
        malformedAt s (serTree t).length))

/-- 44_tree_serializer.md R199: SERIALIZE, then DESERIALIZE of the bytes it wrote, gives the tree back, and
SERIALIZE of that gives the same bytes. -/
def Obligations.SerializeThenDeserializeRestoresTheTree : Prop :=
  ∀ s : State, s.Inv → s.treeValid = true →
    ∃ t u v, exec .serialize s = .next t ∧ exec .deserialize t = .next u ∧ u.errCode = .ok ∧
      u.treeValid = true ∧ u.tree = s.tree ∧ u.leafCount = s.leafCount ∧ u.nodeCount = s.nodeCount ∧
      exec .serialize u = .next v ∧ treeBytes v = treeBytes t

/-! ### The bus port -/

/-- 10_state.md R24: ID always reads 0x48554646 and a write to it gets a bus error. -/
def Obligations.IdentityIsConstant : Prop :=
  ∀ (s : State) (v : Word), memRead s 0x000 4 = .ok 0x48554646 ∧
    memWrite s 0x000 4 v = .error (.busError .readOnly)

/-- 10_state.md R29, R40: ERR_INFO and the capability registers read their values in every state; R30, R31,
R32: the length registers, the tree descriptor and MAX_LEN read theirs while the engine is IDLE. -/
def Obligations.RegistersReadTheirValues : Prop :=
  ∀ s : State,
    memRead s 0x014 4 = .ok s.errInfo ∧
    memRead s 0x040 4 = .ok (BitVec.ofNat 32 s.cfg.nsym) ∧
    memRead s 0x044 4 = .ok (BitVec.ofNat 32 s.cfg.symbufMax) ∧
    memRead s 0x048 4 = .ok (BitVec.ofNat 32 s.cfg.bitbufBits) ∧
    memRead s 0x04C 4 = .ok (BitVec.ofNat 32 s.cfg.artMax) ∧
    memRead s 0x050 4 = .ok (BitVec.ofNat 32 s.cfg.treeMax) ∧ memRead s 0x054 4 = .ok 64 ∧
    (s.busy = false →
      memRead s 0x018 4 = .ok s.wtabLen ∧ memRead s 0x01C 4 = .ok s.symCount ∧
      memRead s 0x020 4 = .ok s.bitLen ∧ memRead s 0x024 4 = .ok s.artLen ∧
      memRead s 0x028 4 = .ok s.treeLen ∧ memRead s 0x02C 4 = .ok s.nodeCount ∧
      memRead s 0x030 4 = .ok s.root ∧ memRead s 0x034 4 = .ok s.leafCount ∧
      memRead s 0x038 4 = .ok s.maxLen)

/-- 20_memory.md R63, R64: an access of another size than 32 bits, or at an offset that is not a multiple of
4, gets a bus error. -/
def Obligations.BadAccessFormsAreBusErrors : Prop :=
  ∀ (s : State) (addr size : Nat) (v : Word), size ≠ 4 ∨ addr % 4 ≠ 0 →
    (∃ c, memRead s addr size = .error (.busError c)) ∧
    (∃ c, memWrite s addr size v = .error (.busError c))

/-- 20_memory.md R66, R67, 10_state.md R23: the address map: an aligned offset is mapped exactly when it is
the offset of a location in the mapped part of its region, which is then the location there; any other
access gets a bus error. -/
def Obligations.MappedOffsetsAreLocations : Prop :=
  (∀ (c : Config) (l : Loc), c.legal = true → mapped c l = true →
    locOffset l % 4 = 0 ∧ locOffset l < 0x2000000 ∧ locate c (locOffset l) = some l) ∧
  (∀ (c : Config) (a : Nat) (l : Loc), a % 4 = 0 → locate c a = some l →
    mapped c l = true ∧ locOffset l = a) ∧
  (∀ (s : State) (a size : Nat) (v : Word), locate s.cfg a = none →
    (∃ c, memRead s a size = .error (.busError c)) ∧ (∃ c, memWrite s a size v = .error (.busError c)))

/-- 20_memory.md R69: while BUSY = 1 the accepted accesses are exactly the reads of ID, CTRL, STATUS, CMD,
ERR_CODE, ERR_INFO and CAP_* and the writes of CTRL and STATUS. -/
def Obligations.BusyAcceptsOnlyStatusAndControl : Prop :=
  ∀ (s : State) (addr size : Nat) (v : Word), s.busy = true →
    ((∃ d, memRead s addr size = .ok d) ↔ size = 4 ∧
      addr ∈ [0x000, 0x004, 0x008, 0x00C, 0x010, 0x014, 0x040, 0x044, 0x048, 0x04C, 0x050, 0x054]) ∧
    ((∃ t, memWrite s addr size v = .ok t) ↔ size = 4 ∧ addr ∈ [0x004, 0x008])

/-- 20_memory.md R68: a write to a read-only register or to the CTAB and NODE windows gets a bus error;
CTRL and STATUS are writable and their reserved bits are ignored; CMD stores every bit of the written word,
the reserved ones too, which is the choice of log 23. -/
def Obligations.ReadOnlyLocationsRejectWrites : Prop :=
  ∀ (s : State) (addr : Nat) (v v' : Word),
    (addr ∈ [0x000, 0x010, 0x014, 0x02C, 0x030, 0x034, 0x038, 0x040, 0x044, 0x048, 0x04C, 0x050, 0x054] ∨
      (0x0800000 ≤ addr ∧ addr < 0x1000000) →
      ∃ c, memWrite s addr 4 v = .error (.busError c)) ∧
    (v.getLsbD 0 = v'.getLsbD 0 → v.getLsbD 1 = v'.getLsbD 1 →
      memWrite s 0x004 4 v = memWrite s 0x004 4 v' ∧ ∃ t, memWrite s 0x004 4 v = .ok t) ∧
    (v.getLsbD 1 = v'.getLsbD 1 → v.getLsbD 2 = v'.getLsbD 2 →
      memWrite s 0x008 4 v = memWrite s 0x008 4 v' ∧ ∃ t, memWrite s 0x008 4 v = .ok t) ∧
    (s.busy = false → ∃ t, memWrite s 0x00C 4 v = .ok t ∧ t.cmd = v ∧ memRead t 0x00C 4 = .ok v)

/-- 20_memory.md R70, R71, R72: the lanes of the byte buffers, the bit order of BITBUF, and the two entries
of a SYMBUF word, as a read shows them and as a write stores them. -/
def Obligations.WordLanes : Prop :=
  ∀ (s : State) (v : Word) (w : Nat),
    (∀ j, j < 4 →
      (s.readLoc (.artbuf w)).extractLsb' (8 * j) 8 = s.artByte (4 * w + j) ∧
      (s.writeLoc v (.artbuf w)).artByte (4 * w + j) = v.extractLsb' (8 * j) 8 ∧
      (s.readLoc (.treebuf w)).extractLsb' (8 * j) 8 = s.treeByte (4 * w + j) ∧
      (s.writeLoc v (.treebuf w)).treeByte (4 * w + j) = v.extractLsb' (8 * j) 8) ∧
    (∀ i, i < 32 →
      (s.readLoc (.bitbuf w)).getLsbD (8 * (i / 8) + (7 - i % 8)) = s.bitAt (32 * w + i) ∧
      (s.writeLoc v (.bitbuf w)).bitAt (32 * w + i) = v.getLsbD (8 * (i / 8) + (7 - i % 8))) ∧
    (∀ j, j < 2 →
      (s.readLoc (.symbuf w)).extractLsb' (16 * j) 16 = s.symAt (2 * w + j) ∧
      (s.writeLoc v (.symbuf w)).symAt (2 * w + j) = v.extractLsb' (16 * j) 16)

/-- 20_memory.md R74, R75: what the four words of a CTAB entry and of an arena entry read; an arena entry
reads ANY (a free word) at n ≥ NODE_COUNT and while TREE_VALID = 0 (log 9), and keeps that value through a
soft reset (10_state.md R44, 70_reset_and_hazards.md R251). -/
def Obligations.CodeAndNodeWindows : Prop :=
  (∀ (s : State) (v : Word), s.busy = false → v.getLsbD 1 = true → s.cfg.legal = true →
    ∃ t, memWrite s 0x004 4 v = .ok t ∧
      ∀ n k, n < s.cfg.nodeMax → k < 4 → s.treeValid = false ∨ s.nodeCount.toNat ≤ n →
        memRead t (0x0C00000 + 16 * n + 4 * k) 4 = memRead s (0x0C00000 + 16 * n + 4 * k) 4) ∧
  ∀ s : State, s.busy = false →
    (∀ i, i < s.cfg.nsym → s.cfg.legal = true →
      memRead s (0x0800000 + 16 * i) 4 = .ok ((s.ctabAt i).len.setWidth 32) ∧
      memRead s (0x0800000 + 16 * i + 0x4) 4 = .ok ((s.ctabAt i).code.extractLsb' 32 32) ∧
      memRead s (0x0800000 + 16 * i + 0x8) 4 = .ok ((s.ctabAt i).code.extractLsb' 0 32) ∧
      memRead s (0x0800000 + 16 * i + 0xC) 4 = .ok 0) ∧
    (∀ n, n < s.cfg.nodeMax → s.cfg.legal = true →
      (s.treeValid = true → n < s.nodeCount.toNat →
        (∀ w x, s.nodeAt n = .leaf w x →
          memRead s (0x0C00000 + 16 * n) 4 = .ok 0 ∧ memRead s (0x0C00000 + 16 * n + 0x4) 4 = .ok w ∧
          memRead s (0x0C00000 + 16 * n + 0x8) 4 = .ok (x.setWidth 32) ∧
          memRead s (0x0C00000 + 16 * n + 0xC) 4 = .ok 0) ∧
        (∀ w l r f, s.nodeAt n = .internal w l r f →
          memRead s (0x0C00000 + 16 * n) 4 = .ok 1 ∧ memRead s (0x0C00000 + 16 * n + 0x4) 4 = .ok w ∧
          memRead s (0x0C00000 + 16 * n + 0x8) 4 = .ok (l.setWidth 32) ∧
          memRead s (0x0C00000 + 16 * n + 0xC) 4 = .ok (r.setWidth 32))) ∧
      (s.treeValid = false ∨ s.nodeCount.toNat ≤ n → ∀ k, k < 4 →
        memRead s (0x0C00000 + 16 * n + 4 * k) 4 = .ok (Config.anyNodeWord s.nodeView (4 * n + k))))

/-- 20_memory.md R62, R79 clause 1: while the engine is IDLE, a write to a length register or to a word of a
writable window is accepted, a read then returns the value, and every other location reads as before. -/
def Obligations.WriteThenReadGivesTheValue : Prop :=
  ∀ (s : State) (l : Loc) (v : Word), s.cfg.legal = true → s.busy = false → mapped s.cfg l = true →
    plainStorage l = true →
    ∃ t, memWrite s (locOffset l) 4 v = .ok t ∧ memRead t (locOffset l) 4 = .ok v ∧
      ∀ l', mapped s.cfg l' = true → l' ≠ l → t.readLoc l' = s.readLoc l'

/-- 10_state.md R26, R28 and 60_exceptions.md R221: a write to STATUS is accepted in every state; 1 in bit 1
clears DONE, 1 in bit 2 clears ERR, and nothing else changes, ERR_CODE included. -/
def Obligations.StatusAcknowledge : Prop :=
  ∀ (s : State) (v : Word),
    memWrite s 0x008 4 v = .ok { s with
      done := s.done && !v.getLsbD 1, err := s.err && !v.getLsbD 2 } ∧
    ∃ d, memRead s 0x008 4 = .ok d ∧ d.getLsbD 0 = s.busy ∧ d.getLsbD 1 = s.done ∧ d.getLsbD 2 = s.err ∧
      d.getLsbD 3 = s.treeValid ∧ d.getLsbD 4 = s.codesValid ∧ ∀ j, 5 ≤ j → d.getLsbD j = false

/-- 60_exceptions.md R220, R252, 10_state.md R25: a write of CTRL with SRST = 0 stores IRQ_EN and nothing else,
and a read of CTRL shows it; completion of any command, with or without error, raises IRQ when IRQ_EN is 1,
as IRQ = IRQ_EN and DONE; writing 1 to DONE, issuing a command, writing IRQ_EN = 0 and a reset clear it. -/
def Obligations.InterruptFollowsDone : Prop :=
  (∀ s : State, s.irq = (s.irqEn && s.done)) ∧
  (∀ (s : State) (v : Word), v.getLsbD 1 = false →
    memWrite s 0x004 4 v = .ok { s with irqEn := v.getLsbD 0 }) ∧
  (∀ s : State, ∃ d, memRead s 0x004 4 = .ok d ∧ d.getLsbD 0 = s.irqEn ∧ ∀ j, 1 ≤ j → d.getLsbD j = false) ∧
  (∀ i s t, exec i s = .next t → t.irq = s.irqEn) ∧
  (∀ (s t : State) (v : Word), memWrite s 0x008 4 v = .ok t → v.getLsbD 1 = true → t.irq = false) ∧
  (∀ (s t : State) (v : Word), memWrite s 0x00C 4 v = .ok t → t.irq = false) ∧
  (∀ (s t : State) (v : Word), memWrite s 0x004 4 v = .ok t →
    v.getLsbD 0 = false ∨ v.getLsbD 1 = true → t.irq = false) ∧
  (∀ s : State, s.powerReset.irq = false)

/-! ### Reset -/

/-- 10_state.md R45: the value of every piece of state after power-on reset, for any parameters; every RAM
entry is ANY (a free draw); the soft reset sets the same register values. -/
def Obligations.PowerOnValues : Prop :=
  (∀ (s : State) r, s.softReset.regWord r = (State.powerOn s.cfg s.draws).regWord r) ∧
  ∀ (c : Config) (d : Nat),
    let s := State.powerOn c d
    s.regWord .id = 0x48554646 ∧ s.regWord .ctrl = 0 ∧ s.regWord .status = 0 ∧ s.regWord .cmd = 0 ∧
    s.regWord .errCode = 0 ∧ s.regWord .errInfo = 0 ∧ s.regWord .wtabLen = 0 ∧
    s.regWord .symCount = 0 ∧ s.regWord .bitLen = 0 ∧ s.regWord .artLen = 0 ∧ s.regWord .treeLen = 0 ∧
    s.regWord .nodeCount = 0 ∧ s.regWord .root = 0 ∧ s.regWord .leafCount = 0 ∧ s.regWord .maxLen = 0 ∧
    s.regWord .capNsym = BitVec.ofNat 32 c.nsym ∧ s.regWord .capSymbuf = BitVec.ofNat 32 c.symbufMax ∧
    s.regWord .capBitbuf = BitVec.ofNat 32 c.bitbufBits ∧ s.regWord .capArt = BitVec.ofNat 32 c.artMax ∧
    s.regWord .capTree = BitVec.ofNat 32 c.treeMax ∧ s.regWord .capMaxcode = 64 ∧
    (∀ i, s.wtabAt i = Config.anyWtab d i ∧ s.nodeAt i = Config.anyNode d i ∧
      s.ctabAt i = Config.anyCtab d i ∧ s.symAt i = Config.anySymbuf d i ∧
      s.bitAt i = Config.anyBitbuf d i ∧ s.artByte i = Config.anyArtbuf d i ∧
      s.treeByte i = Config.anyTreebuf d i) ∧
    s.phase = .idle ∧ s.irq = false

/-- 70_reset_and_hazards.md R251: a write of CTRL with SRST = 1 is accepted busy or idle; every register
takes its reset value, the engine is IDLE, the RAMs keep their contents but the output of an abandoned
command, which becomes ANY. -/
def Obligations.SoftResetClearsRegisters : Prop :=
  ∀ (s : State) (v : Word), v.getLsbD 1 = true →
    ∃ t, memWrite s 0x004 4 v = .ok t ∧
      t = ({ State.powerOn s.cfg s.draws with
        mem := t.mem, draws := t.draws, nodeView := t.nodeView, program := s.program, line := s.line
        response := s.response } : State) ∧
      (s.busy = false → t.mem = s.mem) ∧
      (∀ w n, s.phase = .running w n →
        ((∀ i, w ≠ encode i) → t.mem = s.mem) ∧
        (w = encode .nop → t.mem = s.mem) ∧
        (w = encode .build ∨ w = encode .deserialize →
          t.mem = { s.mem with node := t.mem.node } ∧ ∀ k, t.nodeAt k = Config.anyNode s.draws k) ∧
        (w = encode .genCodes →
          t.mem = { s.mem with ctab := t.mem.ctab } ∧ ∀ k, t.ctabAt k = Config.anyCtab s.draws k) ∧
        (w = encode .encode ∨ w = encode .unpack →
          t.mem = { s.mem with bitbuf := t.mem.bitbuf } ∧ ∀ k, t.bitAt k = Config.anyBitbuf s.draws k) ∧
        (w = encode .pack →
          t.mem = { s.mem with artbuf := t.mem.artbuf } ∧ ∀ k, t.artByte k = Config.anyArtbuf s.draws k) ∧
        (w = encode .decode →
          t.mem = { s.mem with symbuf := t.mem.symbuf } ∧ ∀ k, t.symAt k = Config.anySymbuf s.draws k) ∧
        (w = encode .serialize →
          t.mem = { s.mem with treebuf := t.mem.treebuf } ∧
            ∀ k, t.treeByte k = Config.anyTreebuf s.draws k))

/-- 70_reset_and_hazards.md R257: after BUILD or DESERIALIZE succeeds, CTAB still holds the old codes, but
CODES_VALID = 0 and ENCODE ends with NO_CODES. -/
def Obligations.StaleCodesAreRefused : Prop :=
  ∀ s t : State, exec .build s = .next t ∨ exec .deserialize s = .next t → t.errCode = .ok →
    t.mem.ctab = s.mem.ctab ∧ t.codesValid = false ∧ exec .encode t = .next (t.complete .noCodes 0)

/-! ### The invariant of the machine -/

/-- 10_state.md R45, R41, R42: every power-on state of legal parameters has the invariant, the reset state
among them. -/
def Obligations.ResetHasTheInvariant : Prop :=
  (∀ c d, Config.legal c = true → (State.powerOn c d).Inv) ∧ State.reset.Inv ∧
    ∀ c p, Config.legal c = true → (loaded c p).Inv

/-- 10_state.md R41, R42, R31, R26: every step keeps the invariant: legal parameters, canonical RAMs inside
their capacities, the arena invariant while TREE_VALID = 1, the Code Map while CODES_VALID = 1, CODES_VALID
implying TREE_VALID, cleared descriptors without a tree, and the completion registers. -/
def Obligations.StepKeepsTheInvariant : Prop :=
  ∀ s s' : State, s.Inv → step s = .next s' → s'.Inv

/-- 20_memory.md R65, R219: from every state with the invariant the only thing that stops a step is a bus
error of the host's access, and no step is refused. -/
def Obligations.OnlyBusErrorsStop : Prop :=
  (∀ s f, State.Inv s → step s = .fault f → ∃ c, f = .busError c) ∧ ∀ s r, step s ≠ .refused r

/-- 70_reset_and_hazards.md R260, R261: every running command completes: with a host that has ended its
list or waits on its BUSYLOOP, after the command's host turns and its completion step BUSY is 0 and DONE
is 1. -/
def Obligations.RunningCommandCompletes : Prop :=
  ∀ (s : State) (w : Word) (n : Nat), s.Inv → s.phase = .running w n →
    s.program.length ≤ s.line ∨ s.program[s.line]? = some (.busyLoop s.line) →
    ∃ t : State, Sys2Proof.core.run (n + 1) s = .next t ∧ t.busy = false ∧ t.done = true ∧ t.cmd = w

/-- 30_encoding.md R110, R111: RUN is CMD and a loop on the STATUS read after it, ACK writes 0x00000006 to
STATUS, WAIT is a loop on its own STATUS read; CMD writes the command's word to CMD. -/
def Obligations.PseudoInstructionsExpand : Prop :=
  ∀ (p : List SrcLine) (pos : Nat) (i : Instr),
    expandLine p pos (.cmd i) = some [.wr 0x00C 4 (encode i)] ∧
    expandLine p pos (.run i) = some [.wr 0x00C 4 (encode i), .busyLoop (pos + 1)] ∧
    expandLine p pos .ack = expandLine p pos (.wr (.reg .status) 0x00000006) ∧
    expandLine p pos .wait = some [.busyLoop pos]
end

