-- ==== Sys2Proof/Laws/Bits.lean ====
section
/-! SUPPORT. Bits and bytes: the two directions of 20_memory.md R71, the lanes of R70, and the lengths of the
artifact. -/

namespace Sys2Proof.Machine

@[simp] theorem bits8_length (v : Byte) : (bits8 v).length = 8 := rfl

theorem bits8_byteOfBits (b0 b1 b2 b3 b4 b5 b6 b7 : Bool) :
    bits8 (byteOfBits b0 b1 b2 b3 b4 b5 b6 b7) = [b0, b1, b2, b3, b4, b5, b6, b7] := by
  revert b0 b1 b2 b3 b4 b5 b6 b7; decide

theorem bits8_getElem? (v : Byte) (k : Nat) :
    (bits8 v)[k]? = if k < 8 then some (v.getLsbD (7 - k)) else none := by
  match k with
  | 0 | 1 | 2 | 3 | 4 | 5 | 6 | 7 => rfl
  | k + 8 => simp [bits8]

@[simp] theorem bitsOfBytes_length (bs : List Byte) : (bitsOfBytes bs).length = 8 * bs.length := by
  induction bs with
  | nil => rfl
  | cons b bs ih => simp [bitsOfBytes, ih]; omega

theorem bitsOfBytes_getElem? (bs : List Byte) (i : Nat) :
    (bitsOfBytes bs)[i]? = (bs[i / 8]?).map fun b => b.getLsbD (7 - i % 8) := by
  induction bs generalizing i with
  | nil => simp [bitsOfBytes]
  | cons b bs ih =>
    simp only [bitsOfBytes, List.getElem?_append, bits8_length]
    by_cases h : i < 8
    · have h1 : i / 8 = 0 := by omega
      have h2 : i % 8 = i := by omega
      simp [h, h1, h2, bits8_getElem?]
    · obtain ⟨k, rfl⟩ : ∃ k, i = k + 8 := ⟨i - 8, by omega⟩
      simp only [h, if_false, Nat.add_sub_cancel, ih]
      have h1 : (k + 8) / 8 = k / 8 + 1 := by omega
      have h2 : (k + 8) % 8 = k % 8 := by omega
      simp [h1, h2]

/-- A list that is not eight elements and a rest is shorter than eight. -/
theorem length_lt_eight {l : List Bool}
    (h : ∀ b0 b1 b2 b3 b4 b5 b6 b7 rest, l = b0 :: b1 :: b2 :: b3 :: b4 :: b5 :: b6 :: b7 :: rest → False) :
    l.length < 8 := by
  match l, h with
  | a :: b :: c :: d :: e :: f :: g :: k :: r, h => exact (h a b c d e f g k r rfl).elim
  | [], _ | [_], _ | [_, _], _ | [_, _, _], _ | [_, _, _, _], _ | [_, _, _, _, _], _
  | [_, _, _, _, _, _], _ | [_, _, _, _, _, _, _], _ => simp

theorem bytesOfBits_length (l : List Bool) : (bytesOfBits l).length = l.length / 8 := by
  induction l using bytesOfBits.induct with
  | case1 b0 b1 b2 b3 b4 b5 b6 b7 rest ih => simp only [bytesOfBits, List.length_cons, ih]; omega
  | case2 l h =>
    rw [bytesOfBits.eq_2 l h, Nat.div_eq_of_lt (length_lt_eight h)]; rfl

/-- Packing bits into bytes and expanding them again gives the bits, for whole bytes. -/
theorem bitsOfBytes_bytesOfBits (l : List Bool) (h : l.length % 8 = 0) :
    bitsOfBytes (bytesOfBits l) = l := by
  induction l using bytesOfBits.induct with
  | case1 b0 b1 b2 b3 b4 b5 b6 b7 rest ih =>
    have h' : rest.length % 8 = 0 := by simp only [List.length_cons] at h; omega
    simp [bytesOfBits, bitsOfBytes, bits8_byteOfBits, ih h']
  | case2 l hl =>
    have := length_lt_eight hl
    have : l = [] := List.length_eq_zero_iff.mp (by omega)
    subst this
    rfl

theorem padLength_range (n : Nat) : 1 ≤ padLength n ∧ padLength n ≤ 8 ∧ (n + padLength n) % 8 = 0 := by
  unfold padLength; omega

theorem artifactLength_eq (n : Nat) : artifactLength n = n / 8 + 2 := by
  unfold artifactLength padLength; omega

theorem artifactOf_length (bits : List Bool) :
    (artifactOf bits).length = artifactLength bits.length := by
  simp only [artifactOf, List.length_cons, bytesOfBits_length, List.length_append, List.length_replicate,
    artifactLength]
  omega

/-- The bits after the header of an artifact are the bitstring and then the padding (30_encoding.md R97). -/
theorem bitsOfBytes_artifactOf (bits : List Bool) :
    bitsOfBytes ((artifactOf bits).drop 1) = bits ++ List.replicate (padLength bits.length) false := by
  simp only [artifactOf, List.drop_succ_cons, List.drop_zero]
  apply bitsOfBytes_bytesOfBits
  simpa using (padLength_range bits.length).2.2

@[simp] theorem bitstring_length (s : State) (n : Nat) : (s.bitstring n).length = n := by
  simp [State.bitstring]

@[simp] theorem artBytes_length (s : State) (n : Nat) : (s.artBytes n).length = n := by
  simp [State.artBytes]

@[simp] theorem symbols_length (s : State) (n : Nat) : (s.symbols n).length = n := by
  simp [State.symbols]

theorem codeBits_length (c : Code) : (codeBits c).length = c.len.toNat := by simp [codeBits]

/-- The bits of an unpacked artifact, one by one. -/
theorem unpackedBits_getElem? (art : List Byte) {len i : Nat} (h : i < len) :
    (unpackedBits art len)[i]? = (art[1 + i / 8]?).map fun b => b.getLsbD (7 - i % 8) := by
  simp [unpackedBits, h, bitsOfBytes_getElem?, Nat.add_comm]

theorem unpackedBits_length (art : List Byte) (len : Nat) (h : len ≤ 8 * (art.length - 1)) :
    (unpackedBits art len).length = len := by
  simp [unpackedBits]; omega

/-! ### Lanes -/

theorem wordOfBytes_lane (b0 b1 b2 b3 : Byte) :
    (wordOfBytes b0 b1 b2 b3).extractLsb' 0 8 = b0 ∧ (wordOfBytes b0 b1 b2 b3).extractLsb' 8 8 = b1 ∧
    (wordOfBytes b0 b1 b2 b3).extractLsb' 16 8 = b2 ∧ (wordOfBytes b0 b1 b2 b3).extractLsb' 24 8 = b3 := by
  unfold wordOfBytes
  refine ⟨?_, ?_, ?_, ?_⟩ <;>
  · apply BitVec.eq_of_getLsbD_eq
    intro i hi
    rw [BitVec.getLsbD_extractLsb']
    simp only [BitVec.getLsbD_append]
    have : i < 8 := hi
    interval_cases i <;> simp

theorem wordOfBytes_bytesOfWord (v : Word) :
    wordOfBytes (v.extractLsb' 0 8) (v.extractLsb' 8 8) (v.extractLsb' 16 8) (v.extractLsb' 24 8) = v := by
  unfold wordOfBytes
  apply BitVec.eq_of_getLsbD_eq
  intro i hi
  simp only [BitVec.getLsbD_append, BitVec.getLsbD_extractLsb']
  have : i < 32 := hi
  interval_cases i <;> simp

end Sys2Proof.Machine
end

