-- ==== Sys2Proof/Laws/Trees.lean ====
section
/-! SUPPORT. Trees: their leaves and paths (00_scope.md R13), the tree that the arena holds (10_state.md R42),
and the codes GEN_CODES reads off it (41_code_map.md R140, R142). -/

namespace Sys2Proof

/-- The symbols of the paths are the leaves' symbols, in the same order. -/
theorem CodeTree.paths_fst (t : CodeTree) : t.paths.map Prod.fst = t.syms := by
  induction t with
  | leaf w s => rfl
  | node w l r ihl ihr => simp [CodeTree.paths, CodeTree.syms, ← ihl, ← ihr, Function.comp_def]

theorem CodeTree.syms_pos (t : CodeTree) : 1 ≤ t.syms.length := by
  induction t with
  | leaf w s => simp [CodeTree.syms]
  | node w l r ihl ihr => simp only [CodeTree.syms, List.length_append]; omega

theorem CodeTree.paths_ne_nil (t : CodeTree) : t.paths ≠ [] := by
  intro h
  have h1 := congrArg List.length t.paths_fst
  have h2 := t.syms_pos
  simp [h] at h1
  omega

theorem CodeTree.mem_syms_of_path {t : CodeTree} {p : Sym × List Bool} (h : p ∈ t.paths) :
    p.1 ∈ t.syms := by
  rw [← t.paths_fst]; exact List.mem_map_of_mem h

theorem CodeTree.exists_path_of_sym {t : CodeTree} {x : Sym} (h : x ∈ t.syms) :
    ∃ b, (x, b) ∈ t.paths := by
  rw [← t.paths_fst] at h
  obtain ⟨p, hp, rfl⟩ := List.mem_map.mp h
  exact ⟨p.2, hp⟩

/-- Below a node every path has at least one edge. -/
theorem CodeTree.node_path_pos {w : Weight} {l r : CodeTree} {p : Sym × List Bool}
    (h : p ∈ (CodeTree.node w l r).paths) : 1 ≤ p.2.length := by
  simp only [CodeTree.paths, List.mem_append, List.mem_map] at h
  rcases h with ⟨q, _, rfl⟩ | ⟨q, _, rfl⟩ <;> simp

/-- The paths of different leaves part: if one path is a prefix of another, it is the same leaf's. -/
theorem CodeTree.paths_prefix_free (t : CodeTree) :
    ∀ p ∈ t.paths, ∀ q ∈ t.paths, p.2 <+: q.2 → p.2 = q.2 := by
  induction t with
  | leaf w s => simp [CodeTree.paths]
  | node w l r ihl ihr =>
    intro p hp q hq hpq
    simp only [CodeTree.paths, List.mem_append, List.mem_map] at hp hq
    rcases hp with ⟨p', hp', rfl⟩ | ⟨p', hp', rfl⟩ <;> rcases hq with ⟨q', hq', rfl⟩ | ⟨q', hq', rfl⟩
    · simp only [List.cons_prefix_cons, true_and] at hpq
      rw [ihl _ hp' _ hq' hpq]
    · simp at hpq
    · simp at hpq
    · simp only [List.cons_prefix_cons, true_and] at hpq
      rw [ihr _ hp' _ hq' hpq]

/-- Where the symbols are distinct, a path names its leaf. -/
theorem CodeTree.path_eq_of_sym {t : CodeTree} (hn : t.syms.Nodup) {p q : Sym × List Bool}
    (hp : p ∈ t.paths) (hq : q ∈ t.paths) (h : p.1 = q.1) : p = q := by
  rw [← t.paths_fst] at hn
  exact List.inj_on_of_nodup_map hn hp hq h

/-- Where paths are equal, the leaves' symbols are. -/
theorem CodeTree.sym_eq_of_path (t : CodeTree) :
    ∀ p ∈ t.paths, ∀ q ∈ t.paths, p.2 = q.2 → p.1 = q.1 := by
  induction t with
  | leaf w s => simp [CodeTree.paths]
  | node w l r ihl ihr =>
    intro p hp q hq hpq
    simp only [CodeTree.paths, List.mem_append, List.mem_map] at hp hq
    rcases hp with ⟨p', hp', rfl⟩ | ⟨p', hp', rfl⟩ <;> rcases hq with ⟨q', hq', rfl⟩ | ⟨q', hq', rfl⟩
    · exact ihl p' hp' q' hq' (by simpa using hpq)
    · simp at hpq
    · simp at hpq
    · exact ihr p' hp' q' hq' (by simpa using hpq)

end Sys2Proof

namespace Sys2Proof.Machine

theorem holdsTree_leaf {node : Nat → Node} {n : Nat} {w : Weight} {s : Sym} (h : node n = .leaf w s) :
    holdsTree node (.leaf w s) n [n] := ⟨h, rfl⟩

theorem holdsTree_node {node : Nat → Node} {n : Nat} {w : Weight} {l r : NodeIdx} {a b : CodeTree}
    {ia ib : List Nat} (h : node n = .internal w l r a.first) (ha : holdsTree node a l.toNat ia)
    (hb : holdsTree node b r.toNat ib) (hw : w.toNat = a.weight.toNat + b.weight.toNat) :
    holdsTree node (.node w a b) n (n :: (ia ++ ib)) := ⟨l, r, ia, ib, h, ha, hb, rfl, hw⟩

theorem holdsTree_length {node : Nat → Node} {t : CodeTree} {n : Nat} {is : List Nat}
    (h : holdsTree node t n is) : is.length + 1 = 2 * t.syms.length := by
  induction t generalizing n is with
  | leaf w s => obtain ⟨_, rfl⟩ := h; simp [CodeTree.syms]
  | node w a b iha ihb =>
    obtain ⟨l, r, ia, ib, _, ha, hb, rfl, _⟩ := h
    have h1 := iha ha
    have h2 := ihb hb
    simp only [CodeTree.syms, List.length_cons, List.length_append]
    omega

theorem holdsTree_mem_root {node : Nat → Node} {t : CodeTree} {n : Nat} {is : List Nat}
    (h : holdsTree node t n is) : n ∈ is := by
  cases t with
  | leaf w s => obtain ⟨_, rfl⟩ := h; simp
  | node w a b => obtain ⟨l, r, ia, ib, _, _, _, rfl, _⟩ := h; simp

/-- Reading the tree down to as many levels as it has leaves gives it whole. -/
theorem treeAt_of_holdsTree {node : Nat → Node} {t : CodeTree} {n : Nat} {is : List Nat} {fuel : Nat}
    (h : holdsTree node t n is) (hf : t.syms.length ≤ fuel) : treeAt node fuel n = some t := by
  induction t generalizing n is fuel with
  | leaf w s =>
    obtain ⟨hn, _⟩ := h
    obtain ⟨f, rfl⟩ : ∃ f, fuel = f + 1 := ⟨fuel - 1, by simp [CodeTree.syms] at hf; omega⟩
    simp [treeAt, hn]
  | node w a b iha ihb =>
    obtain ⟨l, r, ia, ib, hn, ha, hb, _, _⟩ := h
    have h1 := a.syms_pos
    have h2 := b.syms_pos
    simp only [CodeTree.syms, List.length_append] at hf
    obtain ⟨f, rfl⟩ : ∃ f, fuel = f + 1 := ⟨fuel - 1, by omega⟩
    simp [treeAt, hn, iha ha (by omega : a.syms.length ≤ f), ihb hb (by omega : b.syms.length ≤ f)]

/-- What the arena holds depends on its entries only. -/
theorem holdsTree_congr {node node' : Nat → Node} {t : CodeTree} {n : Nat} {is : List Nat}
    (h : holdsTree node t n is) (he : ∀ i ∈ is, node' i = node i) : holdsTree node' t n is := by
  induction t generalizing n is with
  | leaf w s =>
    obtain ⟨hn, rfl⟩ := h
    exact ⟨by rw [he n (by simp), hn], rfl⟩
  | node w a b iha ihb =>
    obtain ⟨l, r, ia, ib, hn, ha, hb, rfl, hw⟩ := h
    exact ⟨l, r, ia, ib, by rw [he n (by simp), hn],
      iha ha fun i hi => he i (by simp [hi]), ihb hb fun i hi => he i (by simp [hi]), rfl, hw⟩

/-- Distinct symbols below NSYM are at most NSYM many. -/
theorem syms_length_le {l : List Sym} {nsym : Nat} (hn : l.Nodup) (hb : ∀ x ∈ l, x.toNat < nsym) :
    l.length ≤ nsym := by
  have h1 : (l.map BitVec.toNat).Nodup := hn.map (fun a b h => BitVec.eq_of_toNat_eq h)
  have h2 : (l.map BitVec.toNat).toFinset ⊆ Finset.range nsym := by
    intro x hx
    simp only [List.mem_toFinset, List.mem_map] at hx
    obtain ⟨y, hy, rfl⟩ := hx
    simpa using hb y hy
  have h3 := Finset.card_le_card h2
  rw [List.toFinset_card_of_nodup h1] at h3
  simpa using h3

/-- The arena invariant gives the tree that the tree commands read (10_state.md R42). -/
theorem tree_of_arenaOk {s : State} (h : arenaOk s) :
    ∃ t is, s.tree = some t ∧ holdsTree s.nodeAt t s.root.toNat is ∧ is.Nodup ∧
      (∀ n ∈ is, n < s.nodeCount.toNat) ∧ t.syms.Nodup ∧ (∀ x ∈ t.syms, x.toNat < s.cfg.nsym) ∧
      t.leavesPositive ∧ s.leafCount.toNat = t.syms.length ∧
      s.nodeCount.toNat = 2 * t.syms.length - 1 := by
  obtain ⟨t, is, h1, h2, h3, h4, h5, h6, h7, h8⟩ := h
  refine ⟨t, is, ?_, h1, h2, h3, h4, h5, h6, h7, h8⟩
  have hk := syms_length_le h4 h5
  have hp := t.syms_pos
  exact treeAt_of_holdsTree h1 (by unfold Config.nodeMax; omega)

/-! ### Codes -/

/-- A bitstring as a number, the first bit most significant, below a given number. -/
def appendBits (c : Nat) : List Bool → Nat
  | [] => c
  | b :: bs => appendBits (2 * c + b.toNat) bs

/-- GEN_CODES reads every path off the tree, if none is too deep (41_code_map.md R140, R142). -/
theorem visitCodes_ok (t : CodeTree) (d c : Nat) (h : ∀ p ∈ t.paths, d + p.2.length ≤ 64) :
    visitCodes t d c = .ok (t.paths.map fun p =>
      (p.1, { len := BitVec.ofNat 7 (d + p.2.length), code := BitVec.ofNat 64 (appendBits c p.2) })) := by
  induction t generalizing d c with
  | leaf w s =>
    have : d ≤ 64 := by simpa [CodeTree.paths] using h
    have : ¬ d > Config.maxCode := by simp [Config.maxCode, this]
    simp [visitCodes, this, CodeTree.paths, appendBits]
  | node w l r ihl ihr =>
    have hl : ∀ p ∈ l.paths, d + 1 + p.2.length ≤ 64 := fun p hp => by
      have := h (p.1, false :: p.2) (by simp [CodeTree.paths, hp])
      simp only [List.length_cons] at this; omega
    have hr : ∀ p ∈ r.paths, d + 1 + p.2.length ≤ 64 := fun p hp => by
      have := h (p.1, true :: p.2) (by simp [CodeTree.paths, hp])
      simp only [List.length_cons] at this; omega
    simp [visitCodes, ihl _ _ hl, ihr _ _ hr, CodeTree.paths, appendBits, Function.comp_def,
      Nat.add_comm, Nat.add_left_comm]

/-- The first leaf that is too deep, in pre-order, ends the traversal (41_code_map.md R140). -/
theorem visitCodes_error (t : CodeTree) (d c : Nat) (p : Sym × List Bool)
    (h : t.paths.find? (fun q => 64 < d + q.2.length) = some p) : visitCodes t d c = .error p.1 := by
  induction t generalizing d c p with
  | leaf w s =>
    simp only [CodeTree.paths, List.find?_cons, List.find?_nil, List.length_nil, Nat.add_zero] at h
    by_cases hd : 64 < d
    · have : d > Config.maxCode := hd
      simp [hd] at h
      simp [visitCodes, this, ← h]
    · simp [hd] at h
  | node w l r ihl ihr =>
    simp only [CodeTree.paths, List.find?_append, List.find?_map, Function.comp_def,
      List.length_cons] at h
    have he : ∀ q : Sym × List Bool, d + (q.2.length + 1) = d + 1 + q.2.length := by intro q; omega
    simp only [he] at h
    cases hfl : l.paths.find? (fun q => decide (64 < d + 1 + q.2.length)) with
    | some q =>
      rw [hfl] at h
      simp only [Option.map_some, Option.some_or, Option.some.injEq] at h
      simp [visitCodes, ihl _ (2 * c) q hfl, ← h]
    | none =>
      rw [hfl] at h
      simp only [Option.map_none, Option.none_or, Option.map_eq_some_iff] at h
      obtain ⟨q, hq, rfl⟩ := h
      have hl : ∀ p ∈ l.paths, d + 1 + p.2.length ≤ 64 := fun p hp => by
        have := List.find?_eq_none.mp hfl p hp
        simpa using this
      simp [visitCodes, visitCodes_ok l _ _ hl, ihr _ (2 * c + 1) q hq]

end Sys2Proof.Machine
end

