-- ==== Sys2Proof/Laws/Codes.lean ====
section
/-! SUPPORT. Codes (41_code_map.md R140 to R142): the bits of a code are the leaf's path, what the code table
holds, and the loop of ENCODE (42_bit_packer.md R150). -/

namespace Sys2Proof.Machine

/-! ### Bits of a code -/

theorem appendBits_append (c : Nat) (a b : List Bool) : appendBits c (a ++ b) = appendBits (appendBits c a) b := by
  induction a generalizing c with
  | nil => rfl
  | cons x a ih => simp [appendBits, ih]

theorem appendBits_testBit (bs : List Bool) (c k : Nat) :
    (appendBits c bs).testBit k = if k < bs.length then bs.getD (bs.length - 1 - k) false
      else c.testBit (k - bs.length) := by
  induction bs using List.reverseRecOn generalizing k with
  | nil => simp [appendBits]
  | append_singleton bs b ih =>
    rw [appendBits_append]
    simp only [appendBits, List.length_append, List.length_singleton]
    cases k with
    | zero =>
      simp only [Nat.testBit_zero, Nat.zero_lt_succ, if_true, Nat.add_sub_cancel, Nat.sub_zero]
      cases b <;> simp [Nat.add_mod]
    | succ k =>
      have h : (2 * appendBits c bs + b.toNat).testBit (k + 1) = (appendBits c bs).testBit k := by
        rw [Nat.testBit_succ]; congr 1; have := Bool.toNat_lt b; omega
      rw [h, ih]
      by_cases hk : k < bs.length
      · have h1 : k + 1 < bs.length + 1 := by omega
        have h2 : bs.length + 1 - 1 - (k + 1) = bs.length - 1 - k := by omega
        rw [if_pos hk, if_pos h1, h2, List.getD_append _ _ _ _ (by omega)]
      · have h1 : ¬ k + 1 < bs.length + 1 := by omega
        have h2 : k + 1 - (bs.length + 1) = k - bs.length := by omega
        rw [if_neg hk, if_neg h1, h2]

/-- The code of a path, as GEN_CODES writes it (41_code_map.md R140). -/
def pathCode (bs : List Bool) : Code :=
  { len := BitVec.ofNat 7 bs.length, code := BitVec.ofNat 64 (appendBits 0 bs) }

theorem pathCode_len {bs : List Bool} (h : bs.length ≤ 64) : (pathCode bs).len.toNat = bs.length := by
  simp only [pathCode, BitVec.toNat_ofNat]; omega

/-- The first bit of the path is the most significant of the LEN low bits (10_state.md R35). -/
theorem pathCode_bit {bs : List Bool} (h : bs.length ≤ 64) (j : Nat) (hj : j < bs.length) :
    (pathCode bs).code.getLsbD (bs.length - 1 - j) = bs.getD j false := by
  simp only [pathCode, BitVec.getLsbD_ofNat, appendBits_testBit]
  have h1 : bs.length - 1 - j < 64 := by omega
  have h2 : bs.length - 1 - j < bs.length := by omega
  have h3 : bs.length - 1 - (bs.length - 1 - j) = j := by omega
  simp [h1, h2, h3]

theorem pathCode_high {bs : List Bool} (j : Nat) (hj : bs.length ≤ j) :
    (pathCode bs).code.getLsbD j = false := by
  simp only [pathCode, BitVec.getLsbD_ofNat, appendBits_testBit]
  have h2 : ¬ j < bs.length := by omega
  simp [h2]

/-- The bitstring of the code is the path (41_code_map.md R142). -/
theorem codeBits_pathCode {bs : List Bool} (h : bs.length ≤ 64) : codeBits (pathCode bs) = bs := by
  apply List.ext_getElem?
  intro j
  simp only [codeBits, pathCode_len h, List.getElem?_map]
  by_cases hj : j < bs.length
  · rw [List.getElem?_range hj, Option.map_some, pathCode_bit h j hj, List.getD_eq_getElem?_getD,
      List.getElem?_eq_getElem hj]
    rfl
  · rw [List.getElem?_eq_none (by simpa using hj), List.getElem?_eq_none (by omega)]; rfl

/-! ### The code table -/

/-- The codes of a tree of at least two leaves (41_code_map.md R140). -/
theorem treeCodes_node {w : Weight} {l r : CodeTree}
    (h : ∀ p ∈ (CodeTree.node w l r).paths, p.2.length ≤ 64) :
    treeCodes (.node w l r) = .ok ((CodeTree.node w l r).paths.map fun p => (p.1, pathCode p.2)) := by
  simp only [treeCodes]
  rw [visitCodes_ok _ 0 0 (by simpa using h)]
  simp [pathCode]

/-- Only a tree without a leaf deeper than 64 has codes (41_code_map.md R140). -/
theorem paths_le_of_treeCodes {w : Weight} {l r : CodeTree} {codes : List (Sym × Code)}
    (h : treeCodes (.node w l r) = .ok codes) : ∀ p ∈ (CodeTree.node w l r).paths, p.2.length ≤ 64 := by
  intro p hp
  by_contra hlt
  cases hf : (CodeTree.node w l r).paths.find? (fun q => decide (64 < 0 + q.2.length)) with
  | none =>
    have := List.find?_eq_none.mp hf p hp
    simp at this; omega
  | some q =>
    have := visitCodes_error (.node w l r) 0 0 q hf
    rw [treeCodes, this] at h
    cases h

theorem codeFor_of_mem {codes : List (Sym × Code)} (hn : (codes.map Prod.fst).Nodup) {p : Sym × Code}
    (hp : p ∈ codes) : codeFor codes p.1.toNat = p.2 := by
  unfold codeFor
  have hx : codes.find? (fun q => q.1.toNat == p.1.toNat) = some p := by
    cases hf : codes.find? (fun q => q.1.toNat == p.1.toNat) with
    | none => exact absurd (List.find?_eq_none.mp hf p hp) (by simp)
    | some q =>
      have h1 := List.find?_some hf
      have h2 := List.mem_of_find?_eq_some hf
      simp only [beq_iff_eq] at h1
      have h3 : q.1 = p.1 := BitVec.eq_of_toNat_eq h1
      rw [List.inj_on_of_nodup_map hn h2 hp h3]
  rw [hx]

theorem codeFor_of_not_mem {codes : List (Sym × Code)} {i : Nat} (h : ∀ p ∈ codes, p.1.toNat ≠ i) :
    codeFor codes i = { len := 0, code := 0 } := by
  unfold codeFor
  have hx : codes.find? (fun q => q.1.toNat == i) = none := by
    rw [List.find?_eq_none]; simpa using h
  rw [hx]

/-- A symbol with a nonzero LEN has an entry among the codes (41_code_map.md R140). -/
theorem mem_of_codeFor {codes : List (Sym × Code)} {i : Nat} (h : (codeFor codes i).len ≠ 0) :
    ∃ p ∈ codes, p.1.toNat = i ∧ codeFor codes i = p.2 := by
  unfold codeFor at h ⊢
  split at h
  · rename_i p hp
    have h1 := List.find?_some hp
    exact ⟨p, List.mem_of_find?_eq_some hp, by simpa using h1, rfl⟩
  · exact absurd rfl h

theorem longestCode_ge {codes : List (Sym × Code)} : ∀ p ∈ codes, p.2.len.toNat ≤ longestCode codes := by
  induction codes with
  | nil => simp
  | cons q codes ih =>
    intro p hp
    simp only [longestCode]
    rcases List.mem_cons.mp hp with rfl | hp
    · omega
    · have := ih p hp; omega

theorem longestCode_mem {codes : List (Sym × Code)} (h : codes ≠ []) :
    ∃ p ∈ codes, longestCode codes = p.2.len.toNat := by
  induction codes with
  | nil => exact absurd rfl h
  | cons q codes ih =>
    simp only [longestCode]
    by_cases hc : codes = []
    · subst hc; exact ⟨q, by simp, by simp [longestCode]⟩
    · obtain ⟨p, hp, he⟩ := ih hc
      by_cases hle : longestCode codes ≤ q.2.len.toNat
      · exact ⟨q, by simp, by omega⟩
      · exact ⟨p, by simp [hp], by omega⟩

theorem codeTable_length (nsym : Nat) (codes : List (Sym × Code)) :
    (codeTable nsym codes).length = nsym := by simp [codeTable]

theorem codeTable_getElem? {nsym : Nat} (codes : List (Sym × Code)) {i : Nat} (h : i < nsym) :
    (codeTable nsym codes)[i]? = some (codeFor codes i) := by
  simp [codeTable, h]

/-! ### The loop of ENCODE -/

/-- ENCODE's loop emits the codes in order when every symbol has one and all fit (42_bit_packer.md R150). -/
theorem encodeFrom_ok_iff {ctab : Nat → Code} {nsym cap : Nat} {xs : List Sym} {e p : Nat} {bits : List Bool}
    (hp : p ≤ cap) : encodeFrom ctab nsym cap e p xs = .ok bits ↔
      (∀ x ∈ xs, x.toNat < nsym ∧ (ctab x.toNat).len ≠ 0) ∧
      p + (xs.map fun x => (ctab x.toNat).len.toNat).sum ≤ cap ∧
      bits = xs.flatMap fun x => codeBits (ctab x.toNat) := by
  induction xs generalizing e p bits with
  | nil => simp [encodeFrom, hp, eq_comm]
  | cons x xs ih =>
    simp only [encodeFrom, List.mem_cons, List.map_cons, List.sum_cons, List.flatMap_cons]
    split
    · rename_i hbad
      constructor
      · intro h; cases h
      · rintro ⟨h, _⟩
        have := h x (.inl rfl)
        rcases hbad with hb | hb
        · omega
        · exact absurd hb this.2
    · rename_i hgood
      simp only [not_or] at hgood
      split
      · rename_i hfull
        constructor
        · intro h; cases h
        · rintro ⟨_, h, _⟩; omega
      · rename_i hfits
        have key := fun b => ih (e := e + 1) (p := p + (ctab x.toNat).len.toNat) (bits := b) (by omega)
        cases hr : encodeFrom ctab nsym cap (e + 1) (p + (ctab x.toNat).len.toNat) xs with
        | error y =>
          simp only [reduceCtorEq, false_iff, not_and]
          intro h1 h2 _
          have := (key _).mpr ⟨fun z hz => h1 z (.inr hz), by omega, rfl⟩
          rw [hr] at this; cases this
        | ok b =>
          obtain ⟨h1, h2, h3⟩ := (key b).mp hr
          simp only [Except.ok.injEq]
          constructor
          · rintro rfl
            refine ⟨?_, by omega, by rw [h3]⟩
            rintro z (rfl | hz)
            · exact ⟨by omega, hgood.2⟩
            · exact h1 z hz
          · rintro ⟨_, _, rfl⟩; rw [h3]

/-- ENCODE's loop reports an entry without a code after entries that have codes and fit. -/
theorem encodeFrom_unknown {ctab : Nat → Code} {nsym cap : Nat} {xs : List Sym} {x : Sym} {rest : List Sym}
    {e p : Nat} (hx : ∀ y ∈ xs, y.toNat < nsym ∧ (ctab y.toNat).len ≠ 0)
    (hf : p + (xs.map fun y => (ctab y.toNat).len.toNat).sum ≤ cap)
    (hbad : ¬ (x.toNat < nsym ∧ (ctab x.toNat).len ≠ 0)) :
    encodeFrom ctab nsym cap e p (xs ++ x :: rest) =
      .error (.unknownSymbol, BitVec.ofNat 32 (e + xs.length)) := by
  induction xs generalizing e p with
  | nil =>
    have : x.toNat ≥ nsym ∨ (ctab x.toNat).len = 0 := by
      by_contra hc; simp only [not_or] at hc; exact hbad ⟨by omega, hc.2⟩
    simp only [List.nil_append, encodeFrom, if_pos this]; rfl
  | cons y xs ih =>
    simp only [List.map_cons, List.sum_cons] at hf
    have h1 := hx y (by simp)
    have c1 : ¬ (y.toNat ≥ nsym ∨ (ctab y.toNat).len = 0) := by
      rintro (h | h)
      · omega
      · exact h1.2 h
    have c2 : ¬ p + (ctab y.toNat).len.toNat > cap := by omega
    simp only [List.cons_append, encodeFrom, if_neg c1, if_neg c2]
    rw [ih (fun z hz => hx z (by simp [hz])) (by omega)]
    simp only [List.length_cons]
    congr 3; omega

/-- ENCODE's loop reports the first entry whose code does not fit. -/
theorem encodeFrom_overflow {ctab : Nat → Code} {nsym cap : Nat} {xs : List Sym} {x : Sym} {rest : List Sym}
    {e p : Nat} (hx : ∀ y ∈ xs, y.toNat < nsym ∧ (ctab y.toNat).len ≠ 0)
    (hf : p + (xs.map fun y => (ctab y.toNat).len.toNat).sum ≤ cap)
    (hx' : x.toNat < nsym ∧ (ctab x.toNat).len ≠ 0)
    (hfull : cap < p + (xs.map fun y => (ctab y.toNat).len.toNat).sum + (ctab x.toNat).len.toNat) :
    encodeFrom ctab nsym cap e p (xs ++ x :: rest) =
      .error (.outOverflow, BitVec.ofNat 32 (e + xs.length)) := by
  induction xs generalizing e p with
  | nil =>
    simp only [List.map_nil, List.sum_nil, Nat.add_zero] at hfull
    have c1 : ¬ (x.toNat ≥ nsym ∨ (ctab x.toNat).len = 0) := by
      rintro (h | h)
      · omega
      · exact hx'.2 h
    simp only [List.nil_append, encodeFrom, if_neg c1, if_pos hfull]; rfl
  | cons y xs ih =>
    simp only [List.map_cons, List.sum_cons] at hf hfull
    have h1 := hx y (by simp)
    have c1 : ¬ (y.toNat ≥ nsym ∨ (ctab y.toNat).len = 0) := by
      rintro (h | h)
      · omega
      · exact h1.2 h
    have c2 : ¬ p + (ctab y.toNat).len.toNat > cap := by omega
    simp only [List.cons_append, encodeFrom, if_neg c1, if_neg c2]
    rw [ih (fun z hz => hx z (by simp [hz])) (by omega) (by omega)]
    simp only [List.length_cons]
    congr 3; omega

/-- What ENCODE's loop emits fits BITBUF (42_bit_packer.md R150). -/
theorem encodeFrom_len {ctab : Nat → Code} {nsym cap e p : Nat} {l : List Sym} {b : List Bool}
    (hp : p ≤ cap) (h : encodeFrom ctab nsym cap e p l = .ok b) : p + b.length ≤ cap := by
  induction l generalizing e p b with
  | nil => simp [encodeFrom] at h; subst h; simpa
  | cons x l ih =>
    simp only [encodeFrom] at h
    split at h
    · cases h
    · split at h
      · cases h
      · split at h
        · cases h
        · rename_i y hy
          injection h with h; subst h
          have := ih (by omega) hy
          simp [codeBits_length]; omega

end Sys2Proof.Machine
end

