-- ==== Sys2Proof/Laws/Ram.lean ====
section
/-! SUPPORT. The laws of the RAM operations: what a read gives after a write or a bulk write, and that every
operation keeps the canonical form. -/

namespace Sys2Proof.Machine

section
variable {α : Type}

theorem cellsLookup_write_self (cs : List (Nat × α)) (i : Nat) (v : α) :
    cellsLookup (cellsWrite cs i v) i = some v := by
  induction cs with
  | nil => simp [cellsWrite, cellsLookup]
  | cons c rest ih =>
    obtain ⟨k, u⟩ := c
    by_cases h1 : i < k
    · simp [cellsWrite, cellsLookup, h1]
    · by_cases h2 : i = k
      · simp [cellsWrite, cellsLookup, h2]
      · simp [cellsWrite, cellsLookup, h1, h2, Ne.symm h2, ih]

theorem cellsLookup_write_other (cs : List (Nat × α)) {i j : Nat} (v : α) (h : j ≠ i) :
    cellsLookup (cellsWrite cs i v) j = cellsLookup cs j := by
  induction cs with
  | nil => simp [cellsWrite, cellsLookup, h.symm]
  | cons c rest ih =>
    obtain ⟨k, u⟩ := c
    by_cases h1 : i < k
    · simp [cellsWrite, cellsLookup, h1, h.symm]
    · by_cases h2 : i = k
      · subst h2; simp [cellsWrite, cellsLookup, h.symm]
      · simp [cellsWrite, cellsLookup, h1, h2, ih]

theorem cellsLookup_from (vs : List α) (i j : Nat) :
    cellsLookup (cellsFrom i vs) j = if i ≤ j then vs[j - i]? else none := by
  induction vs generalizing i with
  | nil => simp [cellsFrom, cellsLookup]
  | cons v vs ih =>
    by_cases h : i = j
    · subst h; simp [cellsFrom, cellsLookup]
    · simp only [cellsFrom, cellsLookup, h, if_false, ih]
      by_cases h2 : i ≤ j
      · have h3 : i + 1 ≤ j := by omega
        have h4 : j - i = (j - (i + 1)) + 1 := by omega
        simp [h2, h3, h4]
      · have h3 : ¬ i + 1 ≤ j := by omega
        simp [h2, h3]

theorem read_write_self (any : Nat → Nat → α) (r : Ram α) (i : Nat) (v : α) :
    (r.write i v).read any i = v := by
  simp [Ram.read, Ram.write, cellsLookup_write_self]

theorem read_write_other (any : Nat → Nat → α) (r : Ram α) {i j : Nat} (v : α) (h : j ≠ i) :
    (r.write i v).read any j = r.read any j := by
  simp [Ram.read, Ram.write, cellsLookup_write_other _ _ h]

theorem read_writeFrom (any : Nat → Nat → α) (vs : List α) (r : Ram α) (i j : Nat) :
    (r.writeFrom i vs).read any j = if i ≤ j then (vs[j - i]?).getD (r.read any j) else r.read any j := by
  induction vs generalizing r i with
  | nil => simp [Ram.writeFrom]
  | cons v vs ih =>
    simp only [Ram.writeFrom, ih]
    by_cases h : i = j
    · subst h; simp [read_write_self]
    · rw [read_write_other any r v (Ne.symm h)]
      by_cases h2 : i ≤ j
      · have h3 : i + 1 ≤ j := by omega
        have h4 : j - i = (j - (i + 1)) + 1 := by omega
        simp [h2, h3, h4]
      · have h3 : ¬ i + 1 ≤ j := by omega
        simp [h2, h3]

@[simp] theorem read_ofList (any : Nat → Nat → α) (d : Nat) (vs : List α) (i : Nat) :
    (Ram.ofList d vs).read any i = (vs[i]?).getD (any d i) := by
  simp [Ram.read, Ram.ofList, cellsLookup_from]

@[simp] theorem read_allAny (any : Nat → Nat → α) (d i : Nat) : (Ram.allAny d).read any i = any d i := rfl

@[simp] theorem draw_writeFrom (vs : List α) (r : Ram α) (i : Nat) : (r.writeFrom i vs).draw = r.draw := by
  induction vs generalizing r i with
  | nil => rfl
  | cons v vs ih => simp [Ram.writeFrom, ih, Ram.write]

/-! ### The canonical form is kept -/

theorem mem_cellsWrite {cs : List (Nat × α)} {i : Nat} {v : α} {c : Nat × α}
    (h : c ∈ cellsWrite cs i v) : c = (i, v) ∨ c ∈ cs := by
  induction cs with
  | nil => simpa [cellsWrite] using h
  | cons k rest ih =>
    obtain ⟨k, u⟩ := k
    simp only [cellsWrite] at h
    split at h
    · simpa using h
    · split at h
      · simp only [List.mem_cons] at h ⊢; tauto
      · simp only [List.mem_cons] at h ⊢
        rcases h with h | h
        · tauto
        · rcases ih h with h | h <;> tauto

theorem cellsWrite_rising {cs : List (Nat × α)} (i : Nat) (v : α)
    (h : (cs.map Prod.fst).Pairwise (· < ·)) : ((cellsWrite cs i v).map Prod.fst).Pairwise (· < ·) := by
  induction cs with
  | nil => simp [cellsWrite]
  | cons k rest ih =>
    obtain ⟨k, u⟩ := k
    simp only [List.map_cons, List.pairwise_cons, List.mem_map] at h
    simp only [cellsWrite]
    split
    · rename_i hlt
      simp only [List.map_cons, List.pairwise_cons, List.mem_cons, List.mem_map]
      refine ⟨?_, h⟩
      rintro a (rfl | ⟨x, hx, rfl⟩)
      · exact hlt
      · exact lt_trans hlt (h.1 _ ⟨x, hx, rfl⟩)
    · split
      · rename_i heq
        subst heq
        simpa using h
      · rename_i h1 h2
        simp only [List.map_cons, List.pairwise_cons, List.mem_map]
        refine ⟨?_, ih h.2⟩
        rintro a ⟨x, hx, rfl⟩
        rcases mem_cellsWrite hx with rfl | hx
        · simp only; omega
        · exact h.1 _ ⟨x, hx, rfl⟩

theorem mem_cellsFrom {vs : List α} {i : Nat} {c : Nat × α} (h : c ∈ cellsFrom i vs) :
    i ≤ c.1 ∧ c.1 < i + vs.length := by
  induction vs generalizing i with
  | nil => simp [cellsFrom] at h
  | cons v vs ih =>
    simp only [cellsFrom, List.mem_cons] at h
    rcases h with rfl | h
    · simp
    · have := ih h
      simp only [List.length_cons]; omega

theorem cellsFrom_rising (vs : List α) (i : Nat) :
    ((cellsFrom i vs).map Prod.fst).Pairwise (· < ·) := by
  induction vs generalizing i with
  | nil => simp [cellsFrom]
  | cons v vs ih =>
    simp only [cellsFrom, List.map_cons, List.pairwise_cons, List.mem_map]
    refine ⟨?_, ih _⟩
    rintro a ⟨x, hx, rfl⟩
    have := mem_cellsFrom hx
    omega

theorem ram_wf_iff (cap : Nat) (r : Ram α) :
    r.wf cap = true ↔ (r.cells.map Prod.fst).Pairwise (· < ·) ∧ ∀ c ∈ r.cells, c.1 < cap := by
  simp [Ram.wf, Ram.rising, Ram.within]

/-- A write below the capacity keeps the canonical form. -/
theorem write_wf {cap : Nat} {r : Ram α} {i : Nat} {v : α} (h : r.wf cap = true) (hi : i < cap) :
    (r.write i v).wf cap = true := by
  rw [ram_wf_iff] at h ⊢
  refine ⟨cellsWrite_rising i v h.1, fun c hc => ?_⟩
  rcases mem_cellsWrite hc with rfl | hc
  · exact hi
  · exact h.2 c hc

/-- A bulk write below the capacity keeps the canonical form. -/
theorem writeFrom_wf {cap : Nat} {vs : List α} {r : Ram α} {i : Nat} (h : r.wf cap = true)
    (hi : i + vs.length ≤ cap) : (r.writeFrom i vs).wf cap = true := by
  induction vs generalizing r i with
  | nil => exact h
  | cons v vs ih =>
    simp only [List.length_cons] at hi
    exact ih (write_wf h (by omega)) (by omega)

/-- A new output that fits the capacity is canonical. -/
theorem ofList_wf {cap d : Nat} {vs : List α} (h : vs.length ≤ cap) : (Ram.ofList d vs).wf cap = true := by
  rw [ram_wf_iff]
  refine ⟨cellsFrom_rising vs 0, fun c hc => ?_⟩
  have := mem_cellsFrom hc
  omega

/-- A RAM that is ANY is canonical. -/
theorem allAny_wf (cap d : Nat) : (Ram.allAny (α := α) d).wf cap = true := by
  simp [Ram.wf, Ram.rising, Ram.within, Ram.allAny]

end

theorem memory_wf_iff (c : Config) (m : Memory) :
    m.wf c = true ↔ m.wtab.wf c.nsym = true ∧ m.node.wf c.nodeMax = true ∧ m.ctab.wf c.nsym = true ∧
      m.symbuf.wf c.symbufMax = true ∧ m.bitbuf.wf c.bitbufBits = true ∧ m.artbuf.wf c.artMax = true ∧
      m.treebuf.wf c.treeMax = true := by
  simp [Memory.wf, and_assoc]

/-- The RAMs after power-on are canonical. -/
theorem powerOn_wf (c : Config) (d : Nat) : (Memory.powerOn d).wf c = true := by
  simp [Memory.wf, Memory.powerOn, Ram.wf, Ram.rising, Ram.within]

end Sys2Proof.Machine
end

