-- ==== Sys2Proof/Laws/State.lean ====
section
/-! SUPPORT. What each update of State does to each field, one lemma for each field of each update. -/

namespace Sys2Proof.Machine

section
variable (s : State)

/-! ### complete -/

@[simp] theorem complete_cfg (c : ResultCode) (i : Word) : (s.complete c i).cfg = s.cfg := rfl
@[simp] theorem complete_irqEn (c : ResultCode) (i : Word) : (s.complete c i).irqEn = s.irqEn := rfl
@[simp] theorem complete_done (c : ResultCode) (i : Word) : (s.complete c i).done = true := rfl
@[simp] theorem complete_err (c : ResultCode) (i : Word) : (s.complete c i).err = decide (c ≠ .ok) := rfl
@[simp] theorem complete_treeValid (c : ResultCode) (i : Word) : (s.complete c i).treeValid = s.treeValid := rfl
@[simp] theorem complete_codesValid (c : ResultCode) (i : Word) : (s.complete c i).codesValid = s.codesValid := rfl
@[simp] theorem complete_cmd (c : ResultCode) (i : Word) : (s.complete c i).cmd = s.cmd := rfl
@[simp] theorem complete_errCode (c : ResultCode) (i : Word) : (s.complete c i).errCode = c := rfl
@[simp] theorem complete_errInfo (c : ResultCode) (i : Word) : (s.complete c i).errInfo = i := rfl
@[simp] theorem complete_wtabLen (c : ResultCode) (i : Word) : (s.complete c i).wtabLen = s.wtabLen := rfl
@[simp] theorem complete_symCount (c : ResultCode) (i : Word) : (s.complete c i).symCount = s.symCount := rfl
@[simp] theorem complete_bitLen (c : ResultCode) (i : Word) : (s.complete c i).bitLen = s.bitLen := rfl
@[simp] theorem complete_artLen (c : ResultCode) (i : Word) : (s.complete c i).artLen = s.artLen := rfl
@[simp] theorem complete_treeLen (c : ResultCode) (i : Word) : (s.complete c i).treeLen = s.treeLen := rfl
@[simp] theorem complete_nodeCount (c : ResultCode) (i : Word) : (s.complete c i).nodeCount = s.nodeCount := rfl
@[simp] theorem complete_root (c : ResultCode) (i : Word) : (s.complete c i).root = s.root := rfl
@[simp] theorem complete_leafCount (c : ResultCode) (i : Word) : (s.complete c i).leafCount = s.leafCount := rfl
@[simp] theorem complete_maxLen (c : ResultCode) (i : Word) : (s.complete c i).maxLen = s.maxLen := rfl
@[simp] theorem complete_phase (c : ResultCode) (i : Word) : (s.complete c i).phase = .idle := rfl
@[simp] theorem complete_draws (c : ResultCode) (i : Word) : (s.complete c i).draws = s.draws := rfl
@[simp] theorem complete_nodeView (c : ResultCode) (i : Word) : (s.complete c i).nodeView = s.nodeView := rfl
@[simp] theorem complete_program (c : ResultCode) (i : Word) : (s.complete c i).program = s.program := rfl
@[simp] theorem complete_line (c : ResultCode) (i : Word) : (s.complete c i).line = s.line := rfl
@[simp] theorem complete_response (c : ResultCode) (i : Word) : (s.complete c i).response = s.response := rfl
@[simp] theorem complete_mem (c : ResultCode) (i : Word) : (s.complete c i).mem = s.mem := rfl

/-! ### issueWith -/

@[simp] theorem issueWith_cfg (v : Word) (n : Nat) : (s.issueWith v n).cfg = s.cfg := rfl
@[simp] theorem issueWith_irqEn (v : Word) (n : Nat) : (s.issueWith v n).irqEn = s.irqEn := rfl
@[simp] theorem issueWith_done (v : Word) (n : Nat) : (s.issueWith v n).done = false := rfl
@[simp] theorem issueWith_err (v : Word) (n : Nat) : (s.issueWith v n).err = false := rfl
@[simp] theorem issueWith_treeValid (v : Word) (n : Nat) : (s.issueWith v n).treeValid = s.treeValid := rfl
@[simp] theorem issueWith_codesValid (v : Word) (n : Nat) : (s.issueWith v n).codesValid = s.codesValid := rfl
@[simp] theorem issueWith_cmd (v : Word) (n : Nat) : (s.issueWith v n).cmd = v := rfl
@[simp] theorem issueWith_errCode (v : Word) (n : Nat) : (s.issueWith v n).errCode = .ok := rfl
@[simp] theorem issueWith_errInfo (v : Word) (n : Nat) : (s.issueWith v n).errInfo = 0 := rfl
@[simp] theorem issueWith_wtabLen (v : Word) (n : Nat) : (s.issueWith v n).wtabLen = s.wtabLen := rfl
@[simp] theorem issueWith_symCount (v : Word) (n : Nat) : (s.issueWith v n).symCount = s.symCount := rfl
@[simp] theorem issueWith_bitLen (v : Word) (n : Nat) : (s.issueWith v n).bitLen = s.bitLen := rfl
@[simp] theorem issueWith_artLen (v : Word) (n : Nat) : (s.issueWith v n).artLen = s.artLen := rfl
@[simp] theorem issueWith_treeLen (v : Word) (n : Nat) : (s.issueWith v n).treeLen = s.treeLen := rfl
@[simp] theorem issueWith_nodeCount (v : Word) (n : Nat) : (s.issueWith v n).nodeCount = s.nodeCount := rfl
@[simp] theorem issueWith_root (v : Word) (n : Nat) : (s.issueWith v n).root = s.root := rfl
@[simp] theorem issueWith_leafCount (v : Word) (n : Nat) : (s.issueWith v n).leafCount = s.leafCount := rfl
@[simp] theorem issueWith_maxLen (v : Word) (n : Nat) : (s.issueWith v n).maxLen = s.maxLen := rfl
@[simp] theorem issueWith_phase (v : Word) (n : Nat) : (s.issueWith v n).phase = .running v n := rfl
@[simp] theorem issueWith_draws (v : Word) (n : Nat) : (s.issueWith v n).draws = s.draws := rfl
@[simp] theorem issueWith_nodeView (v : Word) (n : Nat) : (s.issueWith v n).nodeView = s.nodeView := rfl
@[simp] theorem issueWith_program (v : Word) (n : Nat) : (s.issueWith v n).program = s.program := rfl
@[simp] theorem issueWith_line (v : Word) (n : Nat) : (s.issueWith v n).line = s.line := rfl
@[simp] theorem issueWith_response (v : Word) (n : Nat) : (s.issueWith v n).response = s.response := rfl
@[simp] theorem issueWith_mem (v : Word) (n : Nat) : (s.issueWith v n).mem = s.mem := rfl

/-! ### answer -/

@[simp] theorem answer_cfg (r : Response) (l : Nat) : (s.answer r l).cfg = s.cfg := rfl
@[simp] theorem answer_irqEn (r : Response) (l : Nat) : (s.answer r l).irqEn = s.irqEn := rfl
@[simp] theorem answer_done (r : Response) (l : Nat) : (s.answer r l).done = s.done := rfl
@[simp] theorem answer_err (r : Response) (l : Nat) : (s.answer r l).err = s.err := rfl
@[simp] theorem answer_treeValid (r : Response) (l : Nat) : (s.answer r l).treeValid = s.treeValid := rfl
@[simp] theorem answer_codesValid (r : Response) (l : Nat) : (s.answer r l).codesValid = s.codesValid := rfl
@[simp] theorem answer_cmd (r : Response) (l : Nat) : (s.answer r l).cmd = s.cmd := rfl
@[simp] theorem answer_errCode (r : Response) (l : Nat) : (s.answer r l).errCode = s.errCode := rfl
@[simp] theorem answer_errInfo (r : Response) (l : Nat) : (s.answer r l).errInfo = s.errInfo := rfl
@[simp] theorem answer_wtabLen (r : Response) (l : Nat) : (s.answer r l).wtabLen = s.wtabLen := rfl
@[simp] theorem answer_symCount (r : Response) (l : Nat) : (s.answer r l).symCount = s.symCount := rfl
@[simp] theorem answer_bitLen (r : Response) (l : Nat) : (s.answer r l).bitLen = s.bitLen := rfl
@[simp] theorem answer_artLen (r : Response) (l : Nat) : (s.answer r l).artLen = s.artLen := rfl
@[simp] theorem answer_treeLen (r : Response) (l : Nat) : (s.answer r l).treeLen = s.treeLen := rfl
@[simp] theorem answer_nodeCount (r : Response) (l : Nat) : (s.answer r l).nodeCount = s.nodeCount := rfl
@[simp] theorem answer_root (r : Response) (l : Nat) : (s.answer r l).root = s.root := rfl
@[simp] theorem answer_leafCount (r : Response) (l : Nat) : (s.answer r l).leafCount = s.leafCount := rfl
@[simp] theorem answer_maxLen (r : Response) (l : Nat) : (s.answer r l).maxLen = s.maxLen := rfl
@[simp] theorem answer_phase (r : Response) (l : Nat) : (s.answer r l).phase = s.phase := rfl
@[simp] theorem answer_draws (r : Response) (l : Nat) : (s.answer r l).draws = s.draws := rfl
@[simp] theorem answer_nodeView (r : Response) (l : Nat) : (s.answer r l).nodeView = s.nodeView := rfl
@[simp] theorem answer_program (r : Response) (l : Nat) : (s.answer r l).program = s.program := rfl
@[simp] theorem answer_line (r : Response) (l : Nat) : (s.answer r l).line = l := rfl
@[simp] theorem answer_response (r : Response) (l : Nat) : (s.answer r l).response = r := rfl
@[simp] theorem answer_mem (r : Response) (l : Nat) : (s.answer r l).mem = s.mem := rfl

/-! ### setBits -/

@[simp] theorem setBits_cfg (b : List Bool) : (s.setBits b).cfg = s.cfg := rfl
@[simp] theorem setBits_irqEn (b : List Bool) : (s.setBits b).irqEn = s.irqEn := rfl
@[simp] theorem setBits_done (b : List Bool) : (s.setBits b).done = s.done := rfl
@[simp] theorem setBits_err (b : List Bool) : (s.setBits b).err = s.err := rfl
@[simp] theorem setBits_treeValid (b : List Bool) : (s.setBits b).treeValid = s.treeValid := rfl
@[simp] theorem setBits_codesValid (b : List Bool) : (s.setBits b).codesValid = s.codesValid := rfl
@[simp] theorem setBits_cmd (b : List Bool) : (s.setBits b).cmd = s.cmd := rfl
@[simp] theorem setBits_errCode (b : List Bool) : (s.setBits b).errCode = s.errCode := rfl
@[simp] theorem setBits_errInfo (b : List Bool) : (s.setBits b).errInfo = s.errInfo := rfl
@[simp] theorem setBits_wtabLen (b : List Bool) : (s.setBits b).wtabLen = s.wtabLen := rfl
@[simp] theorem setBits_symCount (b : List Bool) : (s.setBits b).symCount = s.symCount := rfl
@[simp] theorem setBits_bitLen (b : List Bool) : (s.setBits b).bitLen = BitVec.ofNat 32 b.length := rfl
@[simp] theorem setBits_artLen (b : List Bool) : (s.setBits b).artLen = s.artLen := rfl
@[simp] theorem setBits_treeLen (b : List Bool) : (s.setBits b).treeLen = s.treeLen := rfl
@[simp] theorem setBits_nodeCount (b : List Bool) : (s.setBits b).nodeCount = s.nodeCount := rfl
@[simp] theorem setBits_root (b : List Bool) : (s.setBits b).root = s.root := rfl
@[simp] theorem setBits_leafCount (b : List Bool) : (s.setBits b).leafCount = s.leafCount := rfl
@[simp] theorem setBits_maxLen (b : List Bool) : (s.setBits b).maxLen = s.maxLen := rfl
@[simp] theorem setBits_phase (b : List Bool) : (s.setBits b).phase = s.phase := rfl
@[simp] theorem setBits_draws (b : List Bool) : (s.setBits b).draws = s.draws + 1 := rfl
@[simp] theorem setBits_nodeView (b : List Bool) : (s.setBits b).nodeView = s.nodeView := rfl
@[simp] theorem setBits_program (b : List Bool) : (s.setBits b).program = s.program := rfl
@[simp] theorem setBits_line (b : List Bool) : (s.setBits b).line = s.line := rfl
@[simp] theorem setBits_response (b : List Bool) : (s.setBits b).response = s.response := rfl
@[simp] theorem setBits_wtab (b : List Bool) : (s.setBits b).mem.wtab = s.mem.wtab := rfl
@[simp] theorem setBits_node (b : List Bool) : (s.setBits b).mem.node = s.mem.node := rfl
@[simp] theorem setBits_ctab (b : List Bool) : (s.setBits b).mem.ctab = s.mem.ctab := rfl
@[simp] theorem setBits_symbuf (b : List Bool) : (s.setBits b).mem.symbuf = s.mem.symbuf := rfl
@[simp] theorem setBits_bitbuf (b : List Bool) : (s.setBits b).mem.bitbuf = Ram.ofList s.draws b := rfl
@[simp] theorem setBits_artbuf (b : List Bool) : (s.setBits b).mem.artbuf = s.mem.artbuf := rfl
@[simp] theorem setBits_treebuf (b : List Bool) : (s.setBits b).mem.treebuf = s.mem.treebuf := rfl

/-! ### setArt -/

@[simp] theorem setArt_cfg (b : List Byte) : (s.setArt b).cfg = s.cfg := rfl
@[simp] theorem setArt_irqEn (b : List Byte) : (s.setArt b).irqEn = s.irqEn := rfl
@[simp] theorem setArt_done (b : List Byte) : (s.setArt b).done = s.done := rfl
@[simp] theorem setArt_err (b : List Byte) : (s.setArt b).err = s.err := rfl
@[simp] theorem setArt_treeValid (b : List Byte) : (s.setArt b).treeValid = s.treeValid := rfl
@[simp] theorem setArt_codesValid (b : List Byte) : (s.setArt b).codesValid = s.codesValid := rfl
@[simp] theorem setArt_cmd (b : List Byte) : (s.setArt b).cmd = s.cmd := rfl
@[simp] theorem setArt_errCode (b : List Byte) : (s.setArt b).errCode = s.errCode := rfl
@[simp] theorem setArt_errInfo (b : List Byte) : (s.setArt b).errInfo = s.errInfo := rfl
@[simp] theorem setArt_wtabLen (b : List Byte) : (s.setArt b).wtabLen = s.wtabLen := rfl
@[simp] theorem setArt_symCount (b : List Byte) : (s.setArt b).symCount = s.symCount := rfl
@[simp] theorem setArt_bitLen (b : List Byte) : (s.setArt b).bitLen = s.bitLen := rfl
@[simp] theorem setArt_artLen (b : List Byte) : (s.setArt b).artLen = BitVec.ofNat 32 b.length := rfl
@[simp] theorem setArt_treeLen (b : List Byte) : (s.setArt b).treeLen = s.treeLen := rfl
@[simp] theorem setArt_nodeCount (b : List Byte) : (s.setArt b).nodeCount = s.nodeCount := rfl
@[simp] theorem setArt_root (b : List Byte) : (s.setArt b).root = s.root := rfl
@[simp] theorem setArt_leafCount (b : List Byte) : (s.setArt b).leafCount = s.leafCount := rfl
@[simp] theorem setArt_maxLen (b : List Byte) : (s.setArt b).maxLen = s.maxLen := rfl
@[simp] theorem setArt_phase (b : List Byte) : (s.setArt b).phase = s.phase := rfl
@[simp] theorem setArt_draws (b : List Byte) : (s.setArt b).draws = s.draws + 1 := rfl
@[simp] theorem setArt_nodeView (b : List Byte) : (s.setArt b).nodeView = s.nodeView := rfl
@[simp] theorem setArt_program (b : List Byte) : (s.setArt b).program = s.program := rfl
@[simp] theorem setArt_line (b : List Byte) : (s.setArt b).line = s.line := rfl
@[simp] theorem setArt_response (b : List Byte) : (s.setArt b).response = s.response := rfl
@[simp] theorem setArt_wtab (b : List Byte) : (s.setArt b).mem.wtab = s.mem.wtab := rfl
@[simp] theorem setArt_node (b : List Byte) : (s.setArt b).mem.node = s.mem.node := rfl
@[simp] theorem setArt_ctab (b : List Byte) : (s.setArt b).mem.ctab = s.mem.ctab := rfl
@[simp] theorem setArt_symbuf (b : List Byte) : (s.setArt b).mem.symbuf = s.mem.symbuf := rfl
@[simp] theorem setArt_bitbuf (b : List Byte) : (s.setArt b).mem.bitbuf = s.mem.bitbuf := rfl
@[simp] theorem setArt_artbuf (b : List Byte) : (s.setArt b).mem.artbuf = Ram.ofList s.draws b := rfl
@[simp] theorem setArt_treebuf (b : List Byte) : (s.setArt b).mem.treebuf = s.mem.treebuf := rfl

/-! ### setSyms -/

@[simp] theorem setSyms_cfg (y : List Sym) : (s.setSyms y).cfg = s.cfg := rfl
@[simp] theorem setSyms_irqEn (y : List Sym) : (s.setSyms y).irqEn = s.irqEn := rfl
@[simp] theorem setSyms_done (y : List Sym) : (s.setSyms y).done = s.done := rfl
@[simp] theorem setSyms_err (y : List Sym) : (s.setSyms y).err = s.err := rfl
@[simp] theorem setSyms_treeValid (y : List Sym) : (s.setSyms y).treeValid = s.treeValid := rfl
@[simp] theorem setSyms_codesValid (y : List Sym) : (s.setSyms y).codesValid = s.codesValid := rfl
@[simp] theorem setSyms_cmd (y : List Sym) : (s.setSyms y).cmd = s.cmd := rfl
@[simp] theorem setSyms_errCode (y : List Sym) : (s.setSyms y).errCode = s.errCode := rfl
@[simp] theorem setSyms_errInfo (y : List Sym) : (s.setSyms y).errInfo = s.errInfo := rfl
@[simp] theorem setSyms_wtabLen (y : List Sym) : (s.setSyms y).wtabLen = s.wtabLen := rfl
@[simp] theorem setSyms_symCount (y : List Sym) : (s.setSyms y).symCount = BitVec.ofNat 32 y.length := rfl
@[simp] theorem setSyms_bitLen (y : List Sym) : (s.setSyms y).bitLen = s.bitLen := rfl
@[simp] theorem setSyms_artLen (y : List Sym) : (s.setSyms y).artLen = s.artLen := rfl
@[simp] theorem setSyms_treeLen (y : List Sym) : (s.setSyms y).treeLen = s.treeLen := rfl
@[simp] theorem setSyms_nodeCount (y : List Sym) : (s.setSyms y).nodeCount = s.nodeCount := rfl
@[simp] theorem setSyms_root (y : List Sym) : (s.setSyms y).root = s.root := rfl
@[simp] theorem setSyms_leafCount (y : List Sym) : (s.setSyms y).leafCount = s.leafCount := rfl
@[simp] theorem setSyms_maxLen (y : List Sym) : (s.setSyms y).maxLen = s.maxLen := rfl
@[simp] theorem setSyms_phase (y : List Sym) : (s.setSyms y).phase = s.phase := rfl
@[simp] theorem setSyms_draws (y : List Sym) : (s.setSyms y).draws = s.draws + 1 := rfl
@[simp] theorem setSyms_nodeView (y : List Sym) : (s.setSyms y).nodeView = s.nodeView := rfl
@[simp] theorem setSyms_program (y : List Sym) : (s.setSyms y).program = s.program := rfl
@[simp] theorem setSyms_line (y : List Sym) : (s.setSyms y).line = s.line := rfl
@[simp] theorem setSyms_response (y : List Sym) : (s.setSyms y).response = s.response := rfl
@[simp] theorem setSyms_wtab (y : List Sym) : (s.setSyms y).mem.wtab = s.mem.wtab := rfl
@[simp] theorem setSyms_node (y : List Sym) : (s.setSyms y).mem.node = s.mem.node := rfl
@[simp] theorem setSyms_ctab (y : List Sym) : (s.setSyms y).mem.ctab = s.mem.ctab := rfl
@[simp] theorem setSyms_symbuf (y : List Sym) : (s.setSyms y).mem.symbuf = Ram.ofList s.draws y := rfl
@[simp] theorem setSyms_bitbuf (y : List Sym) : (s.setSyms y).mem.bitbuf = s.mem.bitbuf := rfl
@[simp] theorem setSyms_artbuf (y : List Sym) : (s.setSyms y).mem.artbuf = s.mem.artbuf := rfl
@[simp] theorem setSyms_treebuf (y : List Sym) : (s.setSyms y).mem.treebuf = s.mem.treebuf := rfl

/-! ### setTreeBytes -/

@[simp] theorem setTreeBytes_cfg (b : List Byte) (n : Nat) : (s.setTreeBytes b n).cfg = s.cfg := rfl
@[simp] theorem setTreeBytes_irqEn (b : List Byte) (n : Nat) : (s.setTreeBytes b n).irqEn = s.irqEn := rfl
@[simp] theorem setTreeBytes_done (b : List Byte) (n : Nat) : (s.setTreeBytes b n).done = s.done := rfl
@[simp] theorem setTreeBytes_err (b : List Byte) (n : Nat) : (s.setTreeBytes b n).err = s.err := rfl
@[simp] theorem setTreeBytes_treeValid (b : List Byte) (n : Nat) : (s.setTreeBytes b n).treeValid = s.treeValid := rfl
@[simp] theorem setTreeBytes_codesValid (b : List Byte) (n : Nat) : (s.setTreeBytes b n).codesValid = s.codesValid := rfl
@[simp] theorem setTreeBytes_cmd (b : List Byte) (n : Nat) : (s.setTreeBytes b n).cmd = s.cmd := rfl
@[simp] theorem setTreeBytes_errCode (b : List Byte) (n : Nat) : (s.setTreeBytes b n).errCode = s.errCode := rfl
@[simp] theorem setTreeBytes_errInfo (b : List Byte) (n : Nat) : (s.setTreeBytes b n).errInfo = s.errInfo := rfl
@[simp] theorem setTreeBytes_wtabLen (b : List Byte) (n : Nat) : (s.setTreeBytes b n).wtabLen = s.wtabLen := rfl
@[simp] theorem setTreeBytes_symCount (b : List Byte) (n : Nat) : (s.setTreeBytes b n).symCount = s.symCount := rfl
@[simp] theorem setTreeBytes_bitLen (b : List Byte) (n : Nat) : (s.setTreeBytes b n).bitLen = s.bitLen := rfl
@[simp] theorem setTreeBytes_artLen (b : List Byte) (n : Nat) : (s.setTreeBytes b n).artLen = s.artLen := rfl
@[simp] theorem setTreeBytes_treeLen (b : List Byte) (n : Nat) : (s.setTreeBytes b n).treeLen = BitVec.ofNat 32 n := rfl
@[simp] theorem setTreeBytes_nodeCount (b : List Byte) (n : Nat) : (s.setTreeBytes b n).nodeCount = s.nodeCount := rfl
@[simp] theorem setTreeBytes_root (b : List Byte) (n : Nat) : (s.setTreeBytes b n).root = s.root := rfl
@[simp] theorem setTreeBytes_leafCount (b : List Byte) (n : Nat) : (s.setTreeBytes b n).leafCount = s.leafCount := rfl
@[simp] theorem setTreeBytes_maxLen (b : List Byte) (n : Nat) : (s.setTreeBytes b n).maxLen = s.maxLen := rfl
@[simp] theorem setTreeBytes_phase (b : List Byte) (n : Nat) : (s.setTreeBytes b n).phase = s.phase := rfl
@[simp] theorem setTreeBytes_draws (b : List Byte) (n : Nat) : (s.setTreeBytes b n).draws = s.draws + 1 := rfl
@[simp] theorem setTreeBytes_nodeView (b : List Byte) (n : Nat) : (s.setTreeBytes b n).nodeView = s.nodeView := rfl
@[simp] theorem setTreeBytes_program (b : List Byte) (n : Nat) : (s.setTreeBytes b n).program = s.program := rfl
@[simp] theorem setTreeBytes_line (b : List Byte) (n : Nat) : (s.setTreeBytes b n).line = s.line := rfl
@[simp] theorem setTreeBytes_response (b : List Byte) (n : Nat) : (s.setTreeBytes b n).response = s.response := rfl
@[simp] theorem setTreeBytes_wtab (b : List Byte) (n : Nat) : (s.setTreeBytes b n).mem.wtab = s.mem.wtab := rfl
@[simp] theorem setTreeBytes_node (b : List Byte) (n : Nat) : (s.setTreeBytes b n).mem.node = s.mem.node := rfl
@[simp] theorem setTreeBytes_ctab (b : List Byte) (n : Nat) : (s.setTreeBytes b n).mem.ctab = s.mem.ctab := rfl
@[simp] theorem setTreeBytes_symbuf (b : List Byte) (n : Nat) : (s.setTreeBytes b n).mem.symbuf = s.mem.symbuf := rfl
@[simp] theorem setTreeBytes_bitbuf (b : List Byte) (n : Nat) : (s.setTreeBytes b n).mem.bitbuf = s.mem.bitbuf := rfl
@[simp] theorem setTreeBytes_artbuf (b : List Byte) (n : Nat) : (s.setTreeBytes b n).mem.artbuf = s.mem.artbuf := rfl
@[simp] theorem setTreeBytes_treebuf (b : List Byte) (n : Nat) : (s.setTreeBytes b n).mem.treebuf = Ram.ofList s.draws (b.take n) := rfl

/-! ### setArena -/

@[simp] theorem setArena_cfg (x : List Node) (r k : Nat) : (s.setArena x r k).cfg = s.cfg := rfl
@[simp] theorem setArena_irqEn (x : List Node) (r k : Nat) : (s.setArena x r k).irqEn = s.irqEn := rfl
@[simp] theorem setArena_done (x : List Node) (r k : Nat) : (s.setArena x r k).done = s.done := rfl
@[simp] theorem setArena_err (x : List Node) (r k : Nat) : (s.setArena x r k).err = s.err := rfl
@[simp] theorem setArena_treeValid (x : List Node) (r k : Nat) : (s.setArena x r k).treeValid = true := rfl
@[simp] theorem setArena_codesValid (x : List Node) (r k : Nat) : (s.setArena x r k).codesValid = false := rfl
@[simp] theorem setArena_cmd (x : List Node) (r k : Nat) : (s.setArena x r k).cmd = s.cmd := rfl
@[simp] theorem setArena_errCode (x : List Node) (r k : Nat) : (s.setArena x r k).errCode = s.errCode := rfl
@[simp] theorem setArena_errInfo (x : List Node) (r k : Nat) : (s.setArena x r k).errInfo = s.errInfo := rfl
@[simp] theorem setArena_wtabLen (x : List Node) (r k : Nat) : (s.setArena x r k).wtabLen = s.wtabLen := rfl
@[simp] theorem setArena_symCount (x : List Node) (r k : Nat) : (s.setArena x r k).symCount = s.symCount := rfl
@[simp] theorem setArena_bitLen (x : List Node) (r k : Nat) : (s.setArena x r k).bitLen = s.bitLen := rfl
@[simp] theorem setArena_artLen (x : List Node) (r k : Nat) : (s.setArena x r k).artLen = s.artLen := rfl
@[simp] theorem setArena_treeLen (x : List Node) (r k : Nat) : (s.setArena x r k).treeLen = s.treeLen := rfl
@[simp] theorem setArena_nodeCount (x : List Node) (r k : Nat) : (s.setArena x r k).nodeCount = BitVec.ofNat 32 x.length := rfl
@[simp] theorem setArena_root (x : List Node) (r k : Nat) : (s.setArena x r k).root = BitVec.ofNat 32 r := rfl
@[simp] theorem setArena_leafCount (x : List Node) (r k : Nat) : (s.setArena x r k).leafCount = BitVec.ofNat 32 k := rfl
@[simp] theorem setArena_maxLen (x : List Node) (r k : Nat) : (s.setArena x r k).maxLen = s.maxLen := rfl
@[simp] theorem setArena_phase (x : List Node) (r k : Nat) : (s.setArena x r k).phase = s.phase := rfl
@[simp] theorem setArena_draws (x : List Node) (r k : Nat) : (s.setArena x r k).draws = s.draws + 1 := rfl
@[simp] theorem setArena_nodeView (x : List Node) (r k : Nat) : (s.setArena x r k).nodeView = s.draws := rfl
@[simp] theorem setArena_program (x : List Node) (r k : Nat) : (s.setArena x r k).program = s.program := rfl
@[simp] theorem setArena_line (x : List Node) (r k : Nat) : (s.setArena x r k).line = s.line := rfl
@[simp] theorem setArena_response (x : List Node) (r k : Nat) : (s.setArena x r k).response = s.response := rfl
@[simp] theorem setArena_wtab (x : List Node) (r k : Nat) : (s.setArena x r k).mem.wtab = s.mem.wtab := rfl
@[simp] theorem setArena_node (x : List Node) (r k : Nat) : (s.setArena x r k).mem.node = Ram.ofList s.draws x := rfl
@[simp] theorem setArena_ctab (x : List Node) (r k : Nat) : (s.setArena x r k).mem.ctab = s.mem.ctab := rfl
@[simp] theorem setArena_symbuf (x : List Node) (r k : Nat) : (s.setArena x r k).mem.symbuf = s.mem.symbuf := rfl
@[simp] theorem setArena_bitbuf (x : List Node) (r k : Nat) : (s.setArena x r k).mem.bitbuf = s.mem.bitbuf := rfl
@[simp] theorem setArena_artbuf (x : List Node) (r k : Nat) : (s.setArena x r k).mem.artbuf = s.mem.artbuf := rfl
@[simp] theorem setArena_treebuf (x : List Node) (r k : Nat) : (s.setArena x r k).mem.treebuf = s.mem.treebuf := rfl

/-! ### setCodes -/

@[simp] theorem setCodes_cfg (x : List Code) (m : Nat) : (s.setCodes x m).cfg = s.cfg := rfl
@[simp] theorem setCodes_irqEn (x : List Code) (m : Nat) : (s.setCodes x m).irqEn = s.irqEn := rfl
@[simp] theorem setCodes_done (x : List Code) (m : Nat) : (s.setCodes x m).done = s.done := rfl
@[simp] theorem setCodes_err (x : List Code) (m : Nat) : (s.setCodes x m).err = s.err := rfl
@[simp] theorem setCodes_treeValid (x : List Code) (m : Nat) : (s.setCodes x m).treeValid = s.treeValid := rfl
@[simp] theorem setCodes_codesValid (x : List Code) (m : Nat) : (s.setCodes x m).codesValid = true := rfl
@[simp] theorem setCodes_cmd (x : List Code) (m : Nat) : (s.setCodes x m).cmd = s.cmd := rfl
@[simp] theorem setCodes_errCode (x : List Code) (m : Nat) : (s.setCodes x m).errCode = s.errCode := rfl
@[simp] theorem setCodes_errInfo (x : List Code) (m : Nat) : (s.setCodes x m).errInfo = s.errInfo := rfl
@[simp] theorem setCodes_wtabLen (x : List Code) (m : Nat) : (s.setCodes x m).wtabLen = s.wtabLen := rfl
@[simp] theorem setCodes_symCount (x : List Code) (m : Nat) : (s.setCodes x m).symCount = s.symCount := rfl
@[simp] theorem setCodes_bitLen (x : List Code) (m : Nat) : (s.setCodes x m).bitLen = s.bitLen := rfl
@[simp] theorem setCodes_artLen (x : List Code) (m : Nat) : (s.setCodes x m).artLen = s.artLen := rfl
@[simp] theorem setCodes_treeLen (x : List Code) (m : Nat) : (s.setCodes x m).treeLen = s.treeLen := rfl
@[simp] theorem setCodes_nodeCount (x : List Code) (m : Nat) : (s.setCodes x m).nodeCount = s.nodeCount := rfl
@[simp] theorem setCodes_root (x : List Code) (m : Nat) : (s.setCodes x m).root = s.root := rfl
@[simp] theorem setCodes_leafCount (x : List Code) (m : Nat) : (s.setCodes x m).leafCount = s.leafCount := rfl
@[simp] theorem setCodes_maxLen (x : List Code) (m : Nat) : (s.setCodes x m).maxLen = BitVec.ofNat 32 m := rfl
@[simp] theorem setCodes_phase (x : List Code) (m : Nat) : (s.setCodes x m).phase = s.phase := rfl
@[simp] theorem setCodes_draws (x : List Code) (m : Nat) : (s.setCodes x m).draws = s.draws := rfl
@[simp] theorem setCodes_nodeView (x : List Code) (m : Nat) : (s.setCodes x m).nodeView = s.nodeView := rfl
@[simp] theorem setCodes_program (x : List Code) (m : Nat) : (s.setCodes x m).program = s.program := rfl
@[simp] theorem setCodes_line (x : List Code) (m : Nat) : (s.setCodes x m).line = s.line := rfl
@[simp] theorem setCodes_response (x : List Code) (m : Nat) : (s.setCodes x m).response = s.response := rfl
@[simp] theorem setCodes_wtab (x : List Code) (m : Nat) : (s.setCodes x m).mem.wtab = s.mem.wtab := rfl
@[simp] theorem setCodes_node (x : List Code) (m : Nat) : (s.setCodes x m).mem.node = s.mem.node := rfl
@[simp] theorem setCodes_ctab (x : List Code) (m : Nat) : (s.setCodes x m).mem.ctab = Ram.ofList s.mem.ctab.draw x := rfl
@[simp] theorem setCodes_symbuf (x : List Code) (m : Nat) : (s.setCodes x m).mem.symbuf = s.mem.symbuf := rfl
@[simp] theorem setCodes_bitbuf (x : List Code) (m : Nat) : (s.setCodes x m).mem.bitbuf = s.mem.bitbuf := rfl
@[simp] theorem setCodes_artbuf (x : List Code) (m : Nat) : (s.setCodes x m).mem.artbuf = s.mem.artbuf := rfl
@[simp] theorem setCodes_treebuf (x : List Code) (m : Nat) : (s.setCodes x m).mem.treebuf = s.mem.treebuf := rfl

/-! ### loseBits -/

@[simp] theorem loseBits_cfg : s.loseBits.cfg = s.cfg := rfl
@[simp] theorem loseBits_irqEn : s.loseBits.irqEn = s.irqEn := rfl
@[simp] theorem loseBits_done : s.loseBits.done = s.done := rfl
@[simp] theorem loseBits_err : s.loseBits.err = s.err := rfl
@[simp] theorem loseBits_treeValid : s.loseBits.treeValid = s.treeValid := rfl
@[simp] theorem loseBits_codesValid : s.loseBits.codesValid = s.codesValid := rfl
@[simp] theorem loseBits_cmd : s.loseBits.cmd = s.cmd := rfl
@[simp] theorem loseBits_errCode : s.loseBits.errCode = s.errCode := rfl
@[simp] theorem loseBits_errInfo : s.loseBits.errInfo = s.errInfo := rfl
@[simp] theorem loseBits_wtabLen : s.loseBits.wtabLen = s.wtabLen := rfl
@[simp] theorem loseBits_symCount : s.loseBits.symCount = s.symCount := rfl
@[simp] theorem loseBits_bitLen : s.loseBits.bitLen = 0 := rfl
@[simp] theorem loseBits_artLen : s.loseBits.artLen = s.artLen := rfl
@[simp] theorem loseBits_treeLen : s.loseBits.treeLen = s.treeLen := rfl
@[simp] theorem loseBits_nodeCount : s.loseBits.nodeCount = s.nodeCount := rfl
@[simp] theorem loseBits_root : s.loseBits.root = s.root := rfl
@[simp] theorem loseBits_leafCount : s.loseBits.leafCount = s.leafCount := rfl
@[simp] theorem loseBits_maxLen : s.loseBits.maxLen = s.maxLen := rfl
@[simp] theorem loseBits_phase : s.loseBits.phase = s.phase := rfl
@[simp] theorem loseBits_draws : s.loseBits.draws = s.draws + 1 := rfl
@[simp] theorem loseBits_nodeView : s.loseBits.nodeView = s.nodeView := rfl
@[simp] theorem loseBits_program : s.loseBits.program = s.program := rfl
@[simp] theorem loseBits_line : s.loseBits.line = s.line := rfl
@[simp] theorem loseBits_response : s.loseBits.response = s.response := rfl
@[simp] theorem loseBits_wtab : s.loseBits.mem.wtab = s.mem.wtab := rfl
@[simp] theorem loseBits_node : s.loseBits.mem.node = s.mem.node := rfl
@[simp] theorem loseBits_ctab : s.loseBits.mem.ctab = s.mem.ctab := rfl
@[simp] theorem loseBits_symbuf : s.loseBits.mem.symbuf = s.mem.symbuf := rfl
@[simp] theorem loseBits_bitbuf : s.loseBits.mem.bitbuf = Ram.allAny s.draws := rfl
@[simp] theorem loseBits_artbuf : s.loseBits.mem.artbuf = s.mem.artbuf := rfl
@[simp] theorem loseBits_treebuf : s.loseBits.mem.treebuf = s.mem.treebuf := rfl

/-! ### loseSyms -/

@[simp] theorem loseSyms_cfg : s.loseSyms.cfg = s.cfg := rfl
@[simp] theorem loseSyms_irqEn : s.loseSyms.irqEn = s.irqEn := rfl
@[simp] theorem loseSyms_done : s.loseSyms.done = s.done := rfl
@[simp] theorem loseSyms_err : s.loseSyms.err = s.err := rfl
@[simp] theorem loseSyms_treeValid : s.loseSyms.treeValid = s.treeValid := rfl
@[simp] theorem loseSyms_codesValid : s.loseSyms.codesValid = s.codesValid := rfl
@[simp] theorem loseSyms_cmd : s.loseSyms.cmd = s.cmd := rfl
@[simp] theorem loseSyms_errCode : s.loseSyms.errCode = s.errCode := rfl
@[simp] theorem loseSyms_errInfo : s.loseSyms.errInfo = s.errInfo := rfl
@[simp] theorem loseSyms_wtabLen : s.loseSyms.wtabLen = s.wtabLen := rfl
@[simp] theorem loseSyms_symCount : s.loseSyms.symCount = 0 := rfl
@[simp] theorem loseSyms_bitLen : s.loseSyms.bitLen = s.bitLen := rfl
@[simp] theorem loseSyms_artLen : s.loseSyms.artLen = s.artLen := rfl
@[simp] theorem loseSyms_treeLen : s.loseSyms.treeLen = s.treeLen := rfl
@[simp] theorem loseSyms_nodeCount : s.loseSyms.nodeCount = s.nodeCount := rfl
@[simp] theorem loseSyms_root : s.loseSyms.root = s.root := rfl
@[simp] theorem loseSyms_leafCount : s.loseSyms.leafCount = s.leafCount := rfl
@[simp] theorem loseSyms_maxLen : s.loseSyms.maxLen = s.maxLen := rfl
@[simp] theorem loseSyms_phase : s.loseSyms.phase = s.phase := rfl
@[simp] theorem loseSyms_draws : s.loseSyms.draws = s.draws + 1 := rfl
@[simp] theorem loseSyms_nodeView : s.loseSyms.nodeView = s.nodeView := rfl
@[simp] theorem loseSyms_program : s.loseSyms.program = s.program := rfl
@[simp] theorem loseSyms_line : s.loseSyms.line = s.line := rfl
@[simp] theorem loseSyms_response : s.loseSyms.response = s.response := rfl
@[simp] theorem loseSyms_wtab : s.loseSyms.mem.wtab = s.mem.wtab := rfl
@[simp] theorem loseSyms_node : s.loseSyms.mem.node = s.mem.node := rfl
@[simp] theorem loseSyms_ctab : s.loseSyms.mem.ctab = s.mem.ctab := rfl
@[simp] theorem loseSyms_symbuf : s.loseSyms.mem.symbuf = Ram.allAny s.draws := rfl
@[simp] theorem loseSyms_bitbuf : s.loseSyms.mem.bitbuf = s.mem.bitbuf := rfl
@[simp] theorem loseSyms_artbuf : s.loseSyms.mem.artbuf = s.mem.artbuf := rfl
@[simp] theorem loseSyms_treebuf : s.loseSyms.mem.treebuf = s.mem.treebuf := rfl

/-! ### loseCodes -/

@[simp] theorem loseCodes_cfg : s.loseCodes.cfg = s.cfg := rfl
@[simp] theorem loseCodes_irqEn : s.loseCodes.irqEn = s.irqEn := rfl
@[simp] theorem loseCodes_done : s.loseCodes.done = s.done := rfl
@[simp] theorem loseCodes_err : s.loseCodes.err = s.err := rfl
@[simp] theorem loseCodes_treeValid : s.loseCodes.treeValid = s.treeValid := rfl
@[simp] theorem loseCodes_codesValid : s.loseCodes.codesValid = false := rfl
@[simp] theorem loseCodes_cmd : s.loseCodes.cmd = s.cmd := rfl
@[simp] theorem loseCodes_errCode : s.loseCodes.errCode = s.errCode := rfl
@[simp] theorem loseCodes_errInfo : s.loseCodes.errInfo = s.errInfo := rfl
@[simp] theorem loseCodes_wtabLen : s.loseCodes.wtabLen = s.wtabLen := rfl
@[simp] theorem loseCodes_symCount : s.loseCodes.symCount = s.symCount := rfl
@[simp] theorem loseCodes_bitLen : s.loseCodes.bitLen = s.bitLen := rfl
@[simp] theorem loseCodes_artLen : s.loseCodes.artLen = s.artLen := rfl
@[simp] theorem loseCodes_treeLen : s.loseCodes.treeLen = s.treeLen := rfl
@[simp] theorem loseCodes_nodeCount : s.loseCodes.nodeCount = s.nodeCount := rfl
@[simp] theorem loseCodes_root : s.loseCodes.root = s.root := rfl
@[simp] theorem loseCodes_leafCount : s.loseCodes.leafCount = s.leafCount := rfl
@[simp] theorem loseCodes_maxLen : s.loseCodes.maxLen = 0 := rfl
@[simp] theorem loseCodes_phase : s.loseCodes.phase = s.phase := rfl
@[simp] theorem loseCodes_draws : s.loseCodes.draws = s.draws + 1 := rfl
@[simp] theorem loseCodes_nodeView : s.loseCodes.nodeView = s.nodeView := rfl
@[simp] theorem loseCodes_program : s.loseCodes.program = s.program := rfl
@[simp] theorem loseCodes_line : s.loseCodes.line = s.line := rfl
@[simp] theorem loseCodes_response : s.loseCodes.response = s.response := rfl
@[simp] theorem loseCodes_wtab : s.loseCodes.mem.wtab = s.mem.wtab := rfl
@[simp] theorem loseCodes_node : s.loseCodes.mem.node = s.mem.node := rfl
@[simp] theorem loseCodes_ctab : s.loseCodes.mem.ctab = Ram.allAny s.draws := rfl
@[simp] theorem loseCodes_symbuf : s.loseCodes.mem.symbuf = s.mem.symbuf := rfl
@[simp] theorem loseCodes_bitbuf : s.loseCodes.mem.bitbuf = s.mem.bitbuf := rfl
@[simp] theorem loseCodes_artbuf : s.loseCodes.mem.artbuf = s.mem.artbuf := rfl
@[simp] theorem loseCodes_treebuf : s.loseCodes.mem.treebuf = s.mem.treebuf := rfl

/-! ### loseArena -/

@[simp] theorem loseArena_cfg : s.loseArena.cfg = s.cfg := rfl
@[simp] theorem loseArena_irqEn : s.loseArena.irqEn = s.irqEn := rfl
@[simp] theorem loseArena_done : s.loseArena.done = s.done := rfl
@[simp] theorem loseArena_err : s.loseArena.err = s.err := rfl
@[simp] theorem loseArena_treeValid : s.loseArena.treeValid = false := rfl
@[simp] theorem loseArena_codesValid : s.loseArena.codesValid = false := rfl
@[simp] theorem loseArena_cmd : s.loseArena.cmd = s.cmd := rfl
@[simp] theorem loseArena_errCode : s.loseArena.errCode = s.errCode := rfl
@[simp] theorem loseArena_errInfo : s.loseArena.errInfo = s.errInfo := rfl
@[simp] theorem loseArena_wtabLen : s.loseArena.wtabLen = s.wtabLen := rfl
@[simp] theorem loseArena_symCount : s.loseArena.symCount = s.symCount := rfl
@[simp] theorem loseArena_bitLen : s.loseArena.bitLen = s.bitLen := rfl
@[simp] theorem loseArena_artLen : s.loseArena.artLen = s.artLen := rfl
@[simp] theorem loseArena_treeLen : s.loseArena.treeLen = s.treeLen := rfl
@[simp] theorem loseArena_nodeCount : s.loseArena.nodeCount = 0 := rfl
@[simp] theorem loseArena_root : s.loseArena.root = 0 := rfl
@[simp] theorem loseArena_leafCount : s.loseArena.leafCount = 0 := rfl
@[simp] theorem loseArena_maxLen : s.loseArena.maxLen = s.maxLen := rfl
@[simp] theorem loseArena_phase : s.loseArena.phase = s.phase := rfl
@[simp] theorem loseArena_draws : s.loseArena.draws = s.draws + 1 := rfl
@[simp] theorem loseArena_nodeView : s.loseArena.nodeView = s.draws := rfl
@[simp] theorem loseArena_program : s.loseArena.program = s.program := rfl
@[simp] theorem loseArena_line : s.loseArena.line = s.line := rfl
@[simp] theorem loseArena_response : s.loseArena.response = s.response := rfl
@[simp] theorem loseArena_wtab : s.loseArena.mem.wtab = s.mem.wtab := rfl
@[simp] theorem loseArena_node : s.loseArena.mem.node = Ram.allAny s.draws := rfl
@[simp] theorem loseArena_ctab : s.loseArena.mem.ctab = s.mem.ctab := rfl
@[simp] theorem loseArena_symbuf : s.loseArena.mem.symbuf = s.mem.symbuf := rfl
@[simp] theorem loseArena_bitbuf : s.loseArena.mem.bitbuf = s.mem.bitbuf := rfl
@[simp] theorem loseArena_artbuf : s.loseArena.mem.artbuf = s.mem.artbuf := rfl
@[simp] theorem loseArena_treebuf : s.loseArena.mem.treebuf = s.mem.treebuf := rfl

/-! ### clearRegisters -/

@[simp] theorem clearRegisters_cfg : s.clearRegisters.cfg = s.cfg := rfl
@[simp] theorem clearRegisters_irqEn : s.clearRegisters.irqEn = false := rfl
@[simp] theorem clearRegisters_done : s.clearRegisters.done = false := rfl
@[simp] theorem clearRegisters_err : s.clearRegisters.err = false := rfl
@[simp] theorem clearRegisters_treeValid : s.clearRegisters.treeValid = false := rfl
@[simp] theorem clearRegisters_codesValid : s.clearRegisters.codesValid = false := rfl
@[simp] theorem clearRegisters_cmd : s.clearRegisters.cmd = 0 := rfl
@[simp] theorem clearRegisters_errCode : s.clearRegisters.errCode = .ok := rfl
@[simp] theorem clearRegisters_errInfo : s.clearRegisters.errInfo = 0 := rfl
@[simp] theorem clearRegisters_wtabLen : s.clearRegisters.wtabLen = 0 := rfl
@[simp] theorem clearRegisters_symCount : s.clearRegisters.symCount = 0 := rfl
@[simp] theorem clearRegisters_bitLen : s.clearRegisters.bitLen = 0 := rfl
@[simp] theorem clearRegisters_artLen : s.clearRegisters.artLen = 0 := rfl
@[simp] theorem clearRegisters_treeLen : s.clearRegisters.treeLen = 0 := rfl
@[simp] theorem clearRegisters_nodeCount : s.clearRegisters.nodeCount = 0 := rfl
@[simp] theorem clearRegisters_root : s.clearRegisters.root = 0 := rfl
@[simp] theorem clearRegisters_leafCount : s.clearRegisters.leafCount = 0 := rfl
@[simp] theorem clearRegisters_maxLen : s.clearRegisters.maxLen = 0 := rfl
@[simp] theorem clearRegisters_phase : s.clearRegisters.phase = .idle := rfl
@[simp] theorem clearRegisters_draws : s.clearRegisters.draws = s.draws := rfl
@[simp] theorem clearRegisters_nodeView : s.clearRegisters.nodeView = s.nodeView := rfl
@[simp] theorem clearRegisters_program : s.clearRegisters.program = s.program := rfl
@[simp] theorem clearRegisters_line : s.clearRegisters.line = s.line := rfl
@[simp] theorem clearRegisters_response : s.clearRegisters.response = s.response := rfl
@[simp] theorem clearRegisters_mem : s.clearRegisters.mem = s.mem := rfl

/-! ### writeStatus -/

@[simp] theorem writeStatus_cfg (v : Word) : (s.writeStatus v).cfg = s.cfg := rfl
@[simp] theorem writeStatus_irqEn (v : Word) : (s.writeStatus v).irqEn = s.irqEn := rfl
@[simp] theorem writeStatus_done (v : Word) : (s.writeStatus v).done = (s.done && !v.getLsbD 1) := rfl
@[simp] theorem writeStatus_err (v : Word) : (s.writeStatus v).err = (s.err && !v.getLsbD 2) := rfl
@[simp] theorem writeStatus_treeValid (v : Word) : (s.writeStatus v).treeValid = s.treeValid := rfl
@[simp] theorem writeStatus_codesValid (v : Word) : (s.writeStatus v).codesValid = s.codesValid := rfl
@[simp] theorem writeStatus_cmd (v : Word) : (s.writeStatus v).cmd = s.cmd := rfl
@[simp] theorem writeStatus_errCode (v : Word) : (s.writeStatus v).errCode = s.errCode := rfl
@[simp] theorem writeStatus_errInfo (v : Word) : (s.writeStatus v).errInfo = s.errInfo := rfl
@[simp] theorem writeStatus_wtabLen (v : Word) : (s.writeStatus v).wtabLen = s.wtabLen := rfl
@[simp] theorem writeStatus_symCount (v : Word) : (s.writeStatus v).symCount = s.symCount := rfl
@[simp] theorem writeStatus_bitLen (v : Word) : (s.writeStatus v).bitLen = s.bitLen := rfl
@[simp] theorem writeStatus_artLen (v : Word) : (s.writeStatus v).artLen = s.artLen := rfl
@[simp] theorem writeStatus_treeLen (v : Word) : (s.writeStatus v).treeLen = s.treeLen := rfl
@[simp] theorem writeStatus_nodeCount (v : Word) : (s.writeStatus v).nodeCount = s.nodeCount := rfl
@[simp] theorem writeStatus_root (v : Word) : (s.writeStatus v).root = s.root := rfl
@[simp] theorem writeStatus_leafCount (v : Word) : (s.writeStatus v).leafCount = s.leafCount := rfl
@[simp] theorem writeStatus_maxLen (v : Word) : (s.writeStatus v).maxLen = s.maxLen := rfl
@[simp] theorem writeStatus_phase (v : Word) : (s.writeStatus v).phase = s.phase := rfl
@[simp] theorem writeStatus_draws (v : Word) : (s.writeStatus v).draws = s.draws := rfl
@[simp] theorem writeStatus_nodeView (v : Word) : (s.writeStatus v).nodeView = s.nodeView := rfl
@[simp] theorem writeStatus_program (v : Word) : (s.writeStatus v).program = s.program := rfl
@[simp] theorem writeStatus_line (v : Word) : (s.writeStatus v).line = s.line := rfl
@[simp] theorem writeStatus_response (v : Word) : (s.writeStatus v).response = s.response := rfl
@[simp] theorem writeStatus_mem (v : Word) : (s.writeStatus v).mem = s.mem := rfl

end

end Sys2Proof.Machine
end

