-- ==== Sys2Proof/Laws/Memory.lean ====
section
/-! SUPPORT. Every operation on the RAMs keeps their canonical form (log 5): each output of a command, each
loss of an output, a write of the host's port, and both resets. -/

namespace Sys2Proof.Machine

/-- What 00_scope.md R7 and R8 say of the parameters, as propositions. -/
theorem legal_iff (c : Config) : c.legal = true ↔
    c.base % 0x2000000 = 0 ∧ (1 ≤ c.nsym ∧ c.nsym ≤ 65536) ∧
    (c.symbufMax % 2 = 0 ∧ 2 ≤ c.symbufMax ∧ c.symbufMax ≤ 2097152) ∧
    (c.bitbufBits % 32 = 0 ∧ 32 ≤ c.bitbufBits ∧ c.bitbufBits ≤ 33554432) ∧
    (c.artMax % 4 = 0 ∧ c.bitbufBits / 8 + 2 ≤ c.artMax ∧ c.artMax ≤ 4194304) ∧
    (c.treeMax % 4 = 0 ∧ 12 * c.nsym - 5 ≤ c.treeMax ∧ c.treeMax ≤ 4194304) := by
  simp only [Config.legal, Config.baseLegal, Config.nsymLegal, Config.symbufLegal, Config.bitbufLegal,
    Config.artLegal, Config.treeLegal, Bool.and_eq_true, beq_iff_eq, decide_eq_true_eq, and_assoc]

variable {s : State}

/-! ### A RAM that becomes ANY -/

theorem anyNodes_wf (h : s.mem.wf s.cfg = true) : s.anyNodes.mem.wf s.cfg = true := by
  rw [memory_wf_iff] at h ⊢
  exact ⟨h.1, allAny_wf _ _, h.2.2⟩

theorem anyCodes_wf (h : s.mem.wf s.cfg = true) : s.anyCodes.mem.wf s.cfg = true := by
  rw [memory_wf_iff] at h ⊢
  exact ⟨h.1, h.2.1, allAny_wf _ _, h.2.2.2⟩

theorem anySyms_wf (h : s.mem.wf s.cfg = true) : s.anySyms.mem.wf s.cfg = true := by
  rw [memory_wf_iff] at h ⊢
  exact ⟨h.1, h.2.1, h.2.2.1, allAny_wf _ _, h.2.2.2.2⟩

theorem anyBits_wf (h : s.mem.wf s.cfg = true) : s.anyBits.mem.wf s.cfg = true := by
  rw [memory_wf_iff] at h ⊢
  exact ⟨h.1, h.2.1, h.2.2.1, h.2.2.2.1, allAny_wf _ _, h.2.2.2.2.2⟩

theorem anyArt_wf (h : s.mem.wf s.cfg = true) : s.anyArt.mem.wf s.cfg = true := by
  rw [memory_wf_iff] at h ⊢
  exact ⟨h.1, h.2.1, h.2.2.1, h.2.2.2.1, h.2.2.2.2.1, allAny_wf _ _, h.2.2.2.2.2.2⟩

theorem anyTreeBytes_wf (h : s.mem.wf s.cfg = true) : s.anyTreeBytes.mem.wf s.cfg = true := by
  rw [memory_wf_iff] at h ⊢
  exact ⟨h.1, h.2.1, h.2.2.1, h.2.2.2.1, h.2.2.2.2.1, h.2.2.2.2.2.1, allAny_wf _ _⟩

/-! ### A command's output -/

theorem setBits_wf {bits : List Bool} (h : s.mem.wf s.cfg = true) (hb : bits.length ≤ s.cfg.bitbufBits) :
    (s.setBits bits).mem.wf s.cfg = true := by
  rw [memory_wf_iff] at h ⊢
  exact ⟨h.1, h.2.1, h.2.2.1, h.2.2.2.1, ofList_wf hb, h.2.2.2.2.2⟩

theorem setArt_wf {bytes : List Byte} (h : s.mem.wf s.cfg = true) (hb : bytes.length ≤ s.cfg.artMax) :
    (s.setArt bytes).mem.wf s.cfg = true := by
  rw [memory_wf_iff] at h ⊢
  exact ⟨h.1, h.2.1, h.2.2.1, h.2.2.2.1, h.2.2.2.2.1, ofList_wf hb, h.2.2.2.2.2.2⟩

theorem setSyms_wf {syms : List Sym} (h : s.mem.wf s.cfg = true) (hb : syms.length ≤ s.cfg.symbufMax) :
    (s.setSyms syms).mem.wf s.cfg = true := by
  rw [memory_wf_iff] at h ⊢
  exact ⟨h.1, h.2.1, h.2.2.1, ofList_wf hb, h.2.2.2.2⟩

theorem setTreeBytes_wf {bytes : List Byte} {n : Nat} (h : s.mem.wf s.cfg = true)
    (hb : n ≤ s.cfg.treeMax) : (s.setTreeBytes bytes n).mem.wf s.cfg = true := by
  rw [memory_wf_iff] at h ⊢
  refine ⟨h.1, h.2.1, h.2.2.1, h.2.2.2.1, h.2.2.2.2.1, h.2.2.2.2.2.1, ofList_wf ?_⟩
  rw [List.length_take]; omega

theorem setArena_wf {nodes : List Node} {r k : Nat} (h : s.mem.wf s.cfg = true)
    (hb : nodes.length ≤ s.cfg.nodeMax) : (s.setArena nodes r k).mem.wf s.cfg = true := by
  rw [memory_wf_iff] at h ⊢
  exact ⟨h.1, ofList_wf hb, h.2.2⟩

theorem setCodes_wf {codes : List Code} {m : Nat} (h : s.mem.wf s.cfg = true)
    (hb : codes.length ≤ s.cfg.nsym) : (s.setCodes codes m).mem.wf s.cfg = true := by
  rw [memory_wf_iff] at h ⊢
  exact ⟨h.1, h.2.1, ofList_wf hb, h.2.2.2⟩

/-! ### The resets -/

theorem loseOutputOf_cfg (i : Instr) : (s.loseOutputOf i).cfg = s.cfg := by cases i <;> rfl

theorem loseOutputOf_wf (i : Instr) (h : s.mem.wf s.cfg = true) :
    (s.loseOutputOf i).mem.wf s.cfg = true := by
  cases i
  · exact h
  · exact anyNodes_wf h
  · exact anyCodes_wf h
  · exact anyBits_wf h
  · exact anyArt_wf h
  · exact anyBits_wf h
  · exact anySyms_wf h
  · exact anyTreeBytes_wf h
  · exact anyNodes_wf h

/-- What abandoning the running command can do (70_reset_and_hazards.md R251). -/
theorem abandon_cases (s : State) : s.abandon = s ∨
    ∃ w n i, s.phase = .running w n ∧ decode w = .ok i ∧ s.abandon = s.loseOutputOf i := by
  unfold State.abandon
  split
  · exact .inl rfl
  · rename_i w n h
    split
    · exact .inr ⟨w, n, _, h, ‹_›, rfl⟩
    · exact .inl rfl

@[simp] theorem softReset_mem (s : State) : s.softReset.mem = s.abandon.mem := rfl
@[simp] theorem softReset_nodeView (s : State) : s.softReset.nodeView = s.abandon.nodeView := rfl
@[simp] theorem softReset_draws (s : State) : s.softReset.draws = s.abandon.draws := rfl

/-- While the engine is IDLE nothing is abandoned. -/
theorem abandon_idle {s : State} (h : s.phase = .idle) : s.abandon = s := by
  unfold State.abandon; rw [h]

theorem softReset_cfg (s : State) : s.softReset.cfg = s.cfg := by
  rcases abandon_cases s with h | ⟨_, _, i, _, _, h⟩ <;>
    simp [State.softReset, State.clearRegisters, h, loseOutputOf_cfg]

theorem softReset_wf (h : s.mem.wf s.cfg = true) : s.softReset.mem.wf s.cfg = true := by
  rw [softReset_mem]
  rcases abandon_cases s with h' | ⟨_, _, i, _, _, h'⟩ <;> rw [h']
  · exact h
  · exact loseOutputOf_wf i h

theorem powerReset_wf (s : State) : s.powerReset.mem.wf s.cfg = true := powerOn_wf _ _

/-! ### A write of the port -/

@[simp] theorem bytesOfWord_length (v : Word) : (bytesOfWord v).length = 4 := rfl

/-- A write to a mapped location keeps the canonical form (20_memory.md R62, R67). -/
theorem writeLoc_wf {l : Loc} (v : Word) (hl : s.cfg.legal = true) (h : s.mem.wf s.cfg = true)
    (hm : mapped s.cfg l = true) : (s.writeLoc v l).mem.wf s.cfg = true := by
  rw [legal_iff] at hl
  obtain ⟨-, -, hs, hb, ha, ht⟩ := hl
  cases l with
  | reg r =>
    cases r <;> try exact h
    simp only [State.writeLoc, State.writeReg, State.writeCtrl]
    split
    · exact softReset_wf h
    · exact h
  | wtab i =>
    simp only [mapped, decide_eq_true_eq] at hm
    rw [memory_wf_iff] at h ⊢
    exact ⟨write_wf h.1 (by omega), h.2⟩
  | ctab i w => exact h
  | node n w => exact h
  | symbuf w =>
    simp only [mapped, decide_eq_true_eq] at hm
    rw [memory_wf_iff] at h ⊢
    exact ⟨h.1, h.2.1, h.2.2.1, writeFrom_wf h.2.2.2.1 (by simp; omega), h.2.2.2.2⟩
  | bitbuf w =>
    simp only [mapped, decide_eq_true_eq] at hm
    rw [memory_wf_iff] at h ⊢
    have hw : 32 * w + (bitsOfBytes (bytesOfWord v)).length ≤ s.cfg.bitbufBits := by simp; omega
    have hb := writeFrom_wf h.2.2.2.2.1 hw
    simp only [State.writeLoc]
    exact ⟨h.1, h.2.1, h.2.2.1, h.2.2.2.1, hb, h.2.2.2.2.2⟩
  | artbuf w =>
    simp only [mapped, decide_eq_true_eq] at hm
    rw [memory_wf_iff] at h ⊢
    exact ⟨h.1, h.2.1, h.2.2.1, h.2.2.2.1, h.2.2.2.2.1, writeFrom_wf h.2.2.2.2.2.1 (by simp; omega),
      h.2.2.2.2.2.2⟩
  | treebuf w =>
    simp only [mapped, decide_eq_true_eq] at hm
    rw [memory_wf_iff] at h ⊢
    exact ⟨h.1, h.2.1, h.2.2.1, h.2.2.2.1, h.2.2.2.2.1, h.2.2.2.2.2.1,
      writeFrom_wf h.2.2.2.2.2.2 (by simp; omega)⟩

end Sys2Proof.Machine
end

