-- ==== Sys2Proof/Laws/Merge.lean ====
section
/-! SUPPORT. The merge of BUILD (40_tree_builder.md R121, R122): what the queue holds, which two members each
merge takes, and the tree the arena holds at the end. -/

namespace Sys2Proof.Machine

/-! ### The least member of the queue -/

theorem keyBefore_iff (x y : Node) : keyBefore x y = true ↔
    x.weight.toNat < y.weight.toNat ∨ (x.weight.toNat = y.weight.toNat ∧ x.first.toNat < y.first.toNat) := by
  simp [keyBefore]

theorem popLeast_none {q : List (Nat × Node)} (h : popLeast q = none) : q = [] := by
  cases q with
  | nil => rfl
  | cons x xs =>
    simp only [popLeast] at h
    split at h
    · cases h
    · split at h <;> cases h

/-- The least member and the others; none of them comes before it (40_tree_builder.md R121, R122). -/
theorem popLeast_some {q : List (Nat × Node)} {a : Nat × Node} {rest : List (Nat × Node)}
    (h : popLeast q = some (a, rest)) :
    (a :: rest).Perm q ∧ ∀ x ∈ rest, keyBefore x.2 a.2 = false := by
  induction q generalizing a rest with
  | nil => cases h
  | cons x xs ih =>
    simp only [popLeast] at h
    split at h
    · rename_i hn
      injection h with h; injection h with h1 h2; subst h1 h2
      rw [popLeast_none hn]
      exact ⟨List.Perm.refl _, by simp⟩
    · rename_i m r hm
      obtain ⟨hp, hl⟩ := ih hm
      split at h
      · rename_i hk
        injection h with h; injection h with h1 h2; subst h1 h2
        refine ⟨(List.Perm.swap _ _ _).trans (hp.cons x), ?_⟩
        intro y hy
        rcases List.mem_cons.mp hy with rfl | hy
        · rw [Bool.eq_false_iff, Ne, keyBefore_iff]
          rw [keyBefore_iff] at hk
          omega
        · exact hl y hy
      · rename_i hk
        injection h with h; injection h with h1 h2; subst h1 h2
        refine ⟨List.Perm.refl _, ?_⟩
        intro y hy
        rcases List.mem_cons.mp (hp.symm.subset hy) with rfl | hy
        · simpa using hk
        · have := hl y hy
          rw [Bool.eq_false_iff, Ne, keyBefore_iff] at this ⊢
          rw [keyBefore_iff] at hk
          omega

/-! ### Roots of held trees -/

theorem holdsTree_root {node : Nat → Node} {t : CodeTree} {n : Nat} {is : List Nat}
    (h : holdsTree node t n is) : (node n).weight = t.weight ∧ (node n).first = t.first := by
  cases t with
  | leaf w s => obtain ⟨hn, _⟩ := h; simp [hn, Node.weight, Node.first, CodeTree.weight, CodeTree.first]
  | node w a b =>
    obtain ⟨l, r, ia, ib, hn, _⟩ := h
    simp [hn, Node.weight, Node.first, CodeTree.weight, CodeTree.first]

theorem first_mem_syms (t : CodeTree) : t.first ∈ t.syms := by
  induction t with
  | leaf w s => simp [CodeTree.first, CodeTree.syms]
  | node w l r ihl ihr => simp [CodeTree.first, CodeTree.syms, ihl]

/-! ### The state of the merge -/

/-- Entry `m` is in the queue when entry `j` is made: it exists, and no merge before took it. -/
def queued (nodes : List Node) (k j m : Nat) : Prop :=
  m < j ∧ ∀ j' nd, k ≤ j' → j' < j → nodes[j']? = some nd → m ≠ nd.left.toNat ∧ m ≠ nd.right.toNat

/-- Entry `j` merges the two least members of the queue (40_tree_builder.md R121, R122). -/
def mergeAt (nodes : List Node) (k j : Nat) : Prop :=
  ∃ a b na nb, nodes[j]? = some (mergedNode (a, na) (b, nb)) ∧ nodes[a]? = some na ∧ nodes[b]? = some nb ∧
    a ≠ b ∧ queued nodes k j a ∧ queued nodes k j b ∧ j < 2 ^ 17 ∧
    na.weight.toNat + nb.weight.toNat < 2 ^ 32 ∧
    (∀ m nm, queued nodes k j m → nodes[m]? = some nm → m ≠ a → keyBefore na nm = true) ∧
    (∀ m nm, queued nodes k j m → nodes[m]? = some nm → m ≠ a → m ≠ b → keyBefore nb nm = true)

/-- The entries of an arena as a list, the others by `any`. -/
def arenaOf (any : Nat → Node) (nodes : List Node) (j : Nat) : Node := (nodes[j]?).getD (any j)

/-- What holds of a queue member: its tree is in the arena, with leaf weights of at least 1. -/
def memberTree (any : Nat → Node) (nodes : List Node) (p : Nat × Node) (t : CodeTree × List Nat) : Prop :=
  holdsTree (arenaOf any nodes) t.1 p.1 t.2 ∧ t.1.leavesPositive

/-- What holds throughout the merge of `leaves`, whose weights sum to `total`. -/
structure MergeInv (any : Nat → Node) (leaves : List Node) (total : Nat) (nodes : List Node)
    (q : List (Nat × Node)) : Prop where
  kept    : ∀ (j : Nat) (x : Node), leaves[j]? = some x → nodes[j]? = some x
  entries : ∀ p ∈ q, nodes[p.1]? = some p.2
  count   : nodes.length + q.length = 2 * leaves.length
  queue   : ∀ m, m ∈ q.map Prod.fst ↔ queued nodes leaves.length nodes.length m
  nodup   : (q.map Prod.fst).Nodup
  newest  : nodes.length - 1 ∈ q.map Prod.fst
  sum     : (q.map fun p => p.2.weight.toNat).sum = total
  merges  : ∀ j, leaves.length ≤ j → j < nodes.length → mergeAt nodes leaves.length j
  forest  : ∃ ts : List (CodeTree × List Nat), List.Forall₂ (memberTree any nodes) q ts ∧
    (ts.flatMap Prod.snd).Perm (List.range nodes.length) ∧
    (ts.flatMap fun t => t.1.syms).Perm (leaves.map Node.first)

theorem getElem?_append_of_some {nodes : List Node} {x y : Node} {j : Nat} (h : nodes[j]? = some y) :
    (nodes ++ [x])[j]? = some y := by
  rw [List.getElem?_append_left (List.getElem?_eq_some_iff.mp h).1, h]

theorem queued_append {nodes : List Node} {x : Node} {k j m : Nat} (hj : j ≤ nodes.length) :
    queued (nodes ++ [x]) k j m ↔ queued nodes k j m := by
  unfold queued
  refine and_congr_right fun _ => ?_
  constructor
  · intro h j' nd h1 h2 h3
    exact h j' nd h1 h2 (getElem?_append_of_some h3)
  · intro h j' nd h1 h2 h3
    rw [List.getElem?_append_left (by omega)] at h3
    exact h j' nd h1 h2 h3

theorem mergeAt_append {nodes : List Node} {x : Node} {k j : Nat} (hj : j < nodes.length)
    (h : mergeAt nodes k j) : mergeAt (nodes ++ [x]) k j := by
  obtain ⟨a, b, na, nb, h1, h2, h3, h4, h5, h6, h7, h8, h9, h10⟩ := h
  refine ⟨a, b, na, nb, getElem?_append_of_some h1, getElem?_append_of_some h2,
    getElem?_append_of_some h3, h4, (queued_append (by omega)).mpr h5, (queued_append (by omega)).mpr h6,
    h7, h8, ?_, ?_⟩
  · intro m nm hq hm
    rw [queued_append (by omega)] at hq
    rw [List.getElem?_append_left (by have := hq.1; omega)] at hm
    exact h9 m nm hq hm
  · intro m nm hq hm
    rw [queued_append (by omega)] at hq
    rw [List.getElem?_append_left (by have := hq.1; omega)] at hm
    exact h10 m nm hq hm

theorem mergedNode_left {a b : Nat × Node} (h : a.1 < 2 ^ 17) : (mergedNode a b).left.toNat = a.1 := by
  simp only [mergedNode, Node.left, BitVec.toNat_ofNat]; exact Nat.mod_eq_of_lt h

theorem mergedNode_right {a b : Nat × Node} (h : b.1 < 2 ^ 17) : (mergedNode a b).right.toNat = b.1 := by
  simp only [mergedNode, Node.right, BitVec.toNat_ofNat]; exact Nat.mod_eq_of_lt h

theorem mergedNode_weight {a b : Nat × Node} (h : a.2.weight.toNat + b.2.weight.toNat < 2 ^ 32) :
    (mergedNode a b).weight.toNat = a.2.weight.toNat + b.2.weight.toNat := by
  simp only [mergedNode, Node.weight, BitVec.toNat_ofNat]; exact Nat.mod_eq_of_lt h

theorem memberTree_append {any : Nat → Node} {nodes : List Node} {x : Node} {p : Nat × Node}
    {t : CodeTree × List Nat} (hi : ∀ i ∈ t.2, i < nodes.length) (h : memberTree any nodes p t) :
    memberTree any (nodes ++ [x]) p t := by
  refine ⟨holdsTree_congr h.1 fun i hi' => ?_, h.2⟩
  unfold arenaOf
  rw [List.getElem?_append_left (hi i hi')]

/-- The members' keys differ: their FIRST symbols are distinct (40_tree_builder.md R122). -/
theorem members_first_nodup {any : Nat → Node} {nodes : List Node} {q : List (Nat × Node)}
    {ts : List (CodeTree × List Nat)} (he : ∀ p ∈ q, nodes[p.1]? = some p.2)
    (hf : List.Forall₂ (memberTree any nodes) q ts) (hn : (ts.flatMap fun t => t.1.syms).Nodup) :
    (q.map fun p => p.2.first).Nodup := by
  have hsub : ∀ {q : List (Nat × Node)} {ts : List (CodeTree × List Nat)},
      (∀ p ∈ q, nodes[p.1]? = some p.2) → List.Forall₂ (memberTree any nodes) q ts →
      (q.map fun p => p.2.first).Sublist (ts.flatMap fun t => t.1.syms) := by
    intro q ts he hf
    induction hf with
    | nil => simp
    | @cons p t q ts hpt _ ih =>
      have h1 := ih fun p hp => he p (List.mem_cons_of_mem _ hp)
      have h2 := (holdsTree_root hpt.1).2
      have h3 := he p List.mem_cons_self
      have h4 : arenaOf any nodes p.1 = p.2 := by simp [arenaOf, h3]
      rw [h4] at h2
      have h5 : [p.2.first].Sublist t.1.syms := by
        rw [h2]; exact List.singleton_sublist.mpr (first_mem_syms _)
      simpa using h5.append h1
  exact (hsub he hf).nodup hn

theorem MergeInv.leaves_le {any : Nat → Node} {leaves nodes : List Node} {total : Nat}
    {q : List (Nat × Node)} (h : MergeInv any leaves total nodes q) : leaves.length ≤ nodes.length := by
  by_contra hlt
  have hl : nodes.length < leaves.length := by omega
  have := h.kept nodes.length leaves[nodes.length] (List.getElem?_eq_getElem hl)
  simp at this

/-- One merge keeps the invariant (40_tree_builder.md R121 step 2). -/
theorem MergeInv.merge {any : Nat → Node} {leaves nodes : List Node} {total : Nat}
    {q q1 q2 : List (Nat × Node)} {a b : Nat × Node} (h : MergeInv any leaves total nodes q)
    (hk : leaves.length ≤ 65536) (ht : total < 2 ^ 32) (hs : (leaves.map Node.first).Nodup)
    (ha : popLeast q = some (a, q1)) (hb : popLeast q1 = some (b, q2)) :
    MergeInv any leaves total (nodes ++ [mergedNode a b]) ((nodes.length, mergedNode a b) :: q2) := by
  obtain ⟨ha1, ha2⟩ := popLeast_some ha
  obtain ⟨hb1, hb2⟩ := popLeast_some hb
  have hp : (a :: b :: q2).Perm q := (hb1.cons a).trans ha1
  obtain ⟨ts, hf, hidx, hsym⟩ := h.forest
  obtain ⟨ts', hf', hts⟩ := List.perm_comp_forall₂ hp hf
  have hmem : ∀ p, p ∈ a :: b :: q2 → p ∈ q := fun p hp' => hp.subset hp'
  have hea := h.entries a (hmem a (by simp))
  have heb := h.entries b (hmem b (by simp))
  have hnd : ((a :: b :: q2).map Prod.fst).Nodup := ((hp.map _).nodup_iff).mpr h.nodup
  have hqm : ∀ m, m ∈ (a :: b :: q2).map Prod.fst ↔ queued nodes leaves.length nodes.length m :=
    fun m => ((hp.map Prod.fst).mem_iff).trans (h.queue m)
  have hla : a.1 < nodes.length := (List.getElem?_eq_some_iff.mp hea).1
  have hlb : b.1 < nodes.length := (List.getElem?_eq_some_iff.mp heb).1
  have hcount := h.count
  have hleaves := h.leaves_le
  have hql : q.length = q2.length + 2 := by rw [← hp.length_eq]; rfl
  have hN : nodes.length < 2 ^ 17 := by omega
  have hsum : a.2.weight.toNat + (b.2.weight.toNat + (q2.map fun p => p.2.weight.toNat).sum) = total := by
    rw [← h.sum, ← (hp.map fun p : Nat × Node => p.2.weight.toNat).sum_eq]; simp
  have hw : a.2.weight.toNat + b.2.weight.toNat < 2 ^ 32 := by omega
  simp only [List.map_cons, List.nodup_cons, List.mem_cons, not_or] at hnd
  have hab : a.1 ≠ b.1 := hnd.1.1
  have hfirst : ((a :: b :: q2).map fun p => p.2.first).Nodup := by
    refine members_first_nodup (fun p hp' => h.entries p (hmem p hp')) hf' ?_
    exact ((hts.flatMap_right _).trans hsym).nodup_iff.mpr hs
  have hstrict : ∀ {x y : Nat × Node}, keyBefore y.2 x.2 = false → x.2.first ≠ y.2.first →
      keyBefore x.2 y.2 = true := by
    intro x y hxy hne
    rw [Bool.eq_false_iff, Ne, keyBefore_iff] at hxy
    rw [keyBefore_iff]
    have : x.2.first.toNat ≠ y.2.first.toNat := fun he => hne (BitVec.eq_of_toNat_eq he)
    omega
  simp only [List.map_cons, List.nodup_cons, List.mem_cons, List.mem_map, not_or] at hfirst
  -- the members other than `a` (and than `b`) come after it
  have hafter : ∀ p ∈ b :: q2, keyBefore a.2 p.2 = true := by
    intro p hp'
    refine hstrict (ha2 p (hb1.subset hp')) ?_
    rcases List.mem_cons.mp hp' with rfl | hp'
    · exact hfirst.1.1
    · exact fun he => hfirst.1.2 ⟨p, hp', he.symm⟩
  have hbafter : ∀ p ∈ q2, keyBefore b.2 p.2 = true := by
    intro p hp'
    exact hstrict (hb2 p hp') fun he => hfirst.2.1 ⟨p, hp', he.symm⟩
  have hmember : ∀ m nm, queued nodes leaves.length nodes.length m → nodes[m]? = some nm →
      ∃ p ∈ a :: b :: q2, p.1 = m ∧ p.2 = nm := by
    intro m nm hq hm
    obtain ⟨p, hp', rfl⟩ := List.mem_map.mp ((hqm m).mpr hq)
    refine ⟨p, hp', rfl, ?_⟩
    have := h.entries p (hmem p hp')
    rw [this] at hm
    exact Option.some.inj hm
  have hnew : mergeAt (nodes ++ [mergedNode a b]) leaves.length nodes.length := by
    refine ⟨a.1, b.1, a.2, b.2, by simp, getElem?_append_of_some hea, getElem?_append_of_some heb, hab,
      (queued_append (by omega)).mpr ((hqm a.1).mp (by simp)),
      (queued_append (by omega)).mpr ((hqm b.1).mp (by simp)), hN, hw, ?_, ?_⟩
    · intro m nm hq hm hne
      rw [queued_append (by omega)] at hq
      rw [List.getElem?_append_left hq.1] at hm
      obtain ⟨p, hp', rfl, rfl⟩ := hmember m nm hq hm
      rcases List.mem_cons.mp hp' with rfl | hp'
      · exact absurd rfl hne
      · exact hafter p hp'
    · intro m nm hq hm hne hne'
      rw [queued_append (by omega)] at hq
      rw [List.getElem?_append_left hq.1] at hm
      obtain ⟨p, hp', rfl, rfl⟩ := hmember m nm hq hm
      rcases List.mem_cons.mp hp' with rfl | hp'
      · exact absurd rfl hne
      rcases List.mem_cons.mp hp' with rfl | hp'
      · exact absurd rfl hne'
      · exact hbafter p hp'
  have hmerges : ∀ j, leaves.length ≤ j → j < (nodes ++ [mergedNode a b]).length →
      mergeAt (nodes ++ [mergedNode a b]) leaves.length j := by
    intro j h1 h2
    by_cases hj : j < nodes.length
    · exact mergeAt_append hj (h.merges j h1 hj)
    · have : j = nodes.length := by simp at h2; omega
      subst this; exact hnew
  refine
    { kept := fun j x hj => getElem?_append_of_some (h.kept j x hj)
      entries := ?_, count := ?_, queue := ?_, nodup := ?_, newest := ?_, sum := ?_, merges := hmerges
      forest := ?_ }
  · intro p hp'
    rcases List.mem_cons.mp hp' with rfl | hp'
    · simp
    · exact getElem?_append_of_some (h.entries p (hmem p (by simp [hp'])))
  · simp only [List.length_append, List.length_cons, List.length_nil]; omega
  · intro m
    simp only [List.map_cons, List.mem_cons, List.length_append, List.length_singleton]
    constructor
    · rintro (rfl | hm)
      · refine ⟨by omega, fun j' nd h1 h2 h3 => ?_⟩
        obtain ⟨a', b', na, nb, g1, g2, g3, g4, g5, g6, g7, -⟩ :=
          hmerges j' h1 (by simpa using h2)
        rw [g1] at h3; injection h3 with h3; subst h3
        have := g5.1
        have := g6.1
        rw [mergedNode_left (by simp; omega), mergedNode_right (by simp; omega)]
        simp only
        omega
      · have hq := (hqm m).mp (by simp only [List.map_cons, List.mem_cons]; exact .inr (.inr hm))
        refine ⟨by have := hq.1; omega, fun j' nd h1 h2 h3 => ?_⟩
        by_cases hj : j' < nodes.length
        · rw [List.getElem?_append_left hj] at h3
          exact hq.2 j' nd h1 hj h3
        · have : j' = nodes.length := by omega
          subst this
          simp only [List.getElem?_concat_length, Option.some.injEq] at h3
          subst h3
          rw [mergedNode_left (by omega), mergedNode_right (by omega)]
          refine ⟨?_, ?_⟩
          · rintro rfl; exact hnd.1.2 hm
          · rintro rfl; exact hnd.2.1 hm
    · rintro ⟨h1, h2⟩
      by_cases hm : m < nodes.length
      · right
        have hq : queued nodes leaves.length nodes.length m :=
          ⟨hm, fun j' nd g1 g2 g3 => h2 j' nd g1 (by omega) (getElem?_append_of_some g3)⟩
        have hlast := h2 nodes.length _ hleaves (by omega)
          (List.getElem?_concat_length ..)
        rw [mergedNode_left (by omega), mergedNode_right (by omega)] at hlast
        have := (hqm m).mpr hq
        simp only [List.map_cons, List.mem_cons] at this
        rcases this with h' | h' | h'
        · exact absurd h' hlast.1
        · exact absurd h' hlast.2
        · exact h'
      · left; omega
  · simp only [List.map_cons, List.nodup_cons]
    refine ⟨fun hm => ?_, hnd.2.2⟩
    obtain ⟨p, hp', he⟩ := List.mem_map.mp hm
    have := (List.getElem?_eq_some_iff.mp (h.entries p (hmem p (by simp [hp'])))).1
    omega
  · simp
  · simp only [List.map_cons, List.sum_cons, mergedNode_weight hw]; omega
  · cases hf' with
    | @cons _ ta _ ts1 hta hf1 =>
      cases hf1 with
      | @cons _ tb _ ts2 htb hf2 =>
        have hidx' := (hts.flatMap_right Prod.snd).trans hidx
        have hsym' := (hts.flatMap_right fun t : CodeTree × List Nat => t.1.syms).trans hsym
        simp only [List.flatMap_cons] at hidx' hsym'
        have hlt : ∀ i, i ∈ ta.2 ++ (tb.2 ++ ts2.flatMap Prod.snd) → i < nodes.length := fun i hi => by
          simpa using hidx'.subset hi
        refine ⟨(.node (mergedNode a b).weight ta.1 tb.1, nodes.length :: (ta.2 ++ tb.2)) :: ts2,
          .cons ⟨?_, ?_⟩ ?_, ?_, ?_⟩
        · have hra := holdsTree_root hta.1
          have hrb := holdsTree_root htb.1
          have e1 : arenaOf any nodes a.1 = a.2 := by simp [arenaOf, hea]
          have e2 : arenaOf any nodes b.1 = b.2 := by simp [arenaOf, heb]
          rw [e1] at hra
          rw [e2] at hrb
          have hA := (memberTree_append (x := mergedNode a b) (fun i hi => hlt i (by simp [hi])) hta).1
          have hB := (memberTree_append (x := mergedNode a b) (fun i hi => hlt i (by simp [hi])) htb).1
          refine holdsTree_node (l := BitVec.ofNat 17 a.1) (r := BitVec.ofNat 17 b.1) ?_ ?_ ?_ ?_
          · simp only [arenaOf, List.getElem?_concat_length, Option.getD_some]
            rw [← hra.2]; rfl
          · rw [BitVec.toNat_ofNat, Nat.mod_eq_of_lt (by omega)]; exact hA
          · rw [BitVec.toNat_ofNat, Nat.mod_eq_of_lt (by omega)]; exact hB
          · rw [mergedNode_weight hw, hra.1, hrb.1]
        · exact ⟨hta.2, htb.2⟩
        · have : ∀ {q : List (Nat × Node)} {ts : List (CodeTree × List Nat)},
              (∀ i ∈ ts.flatMap Prod.snd, i < nodes.length) →
              List.Forall₂ (memberTree any nodes) q ts →
              List.Forall₂ (memberTree any (nodes ++ [mergedNode a b])) q ts := by
            intro q ts hi hq
            induction hq with
            | nil => exact .nil
            | cons hpt _ ih =>
              simp only [List.flatMap_cons, List.mem_append] at hi
              exact .cons (memberTree_append (fun i h => hi i (.inl h)) hpt)
                (ih fun i h => hi i (.inr h))
          exact this (fun i hi => hlt i (by simp only [List.mem_append]; exact .inr (.inr hi))) hf2
        · simp only [List.flatMap_cons, List.length_append, List.length_singleton, List.cons_append,
            List.append_assoc]
          rw [List.range_succ]
          exact (hidx'.cons _).trans (List.perm_append_singleton _ _).symm
        · simpa [CodeTree.syms, List.append_assoc] using hsym'

/-- All merges keep the invariant, and leave one member if there is fuel enough (40_tree_builder.md R121). -/
theorem MergeInv.mergeQueue {any : Nat → Node} {leaves : List Node} {total : Nat} (n : Nat)
    {nodes : List Node} {q : List (Nat × Node)} (h : MergeInv any leaves total nodes q)
    (hk : leaves.length ≤ 65536) (ht : total < 2 ^ 32) (hs : (leaves.map Node.first).Nodup)
    (hq : q.length ≤ n + 1) :
    MergeInv any leaves total (mergeQueue n nodes q).1 (mergeQueue n nodes q).2 ∧
      (Machine.mergeQueue n nodes q).2.length ≤ 1 := by
  induction n generalizing nodes q with
  | zero => exact ⟨h, hq⟩
  | succ n ih =>
    unfold Machine.mergeQueue
    split
    · rename_i hn
      rw [popLeast_none hn] at h ⊢
      exact ⟨h, by simp⟩
    · rename_i a q1 ha
      have ha' := (popLeast_some ha).1.length_eq
      simp only [List.length_cons] at ha'
      split
      · rename_i hn
        rw [popLeast_none hn] at ha'
        simp only [List.length_nil] at ha'
        refine ⟨h, ?_⟩
        simp only
        omega
      · rename_i b q2 hb
        have hb' := (popLeast_some hb).1.length_eq
        simp only [List.length_cons] at hb'
        exact ih (h.merge hk ht hs ha hb) (by simp only [List.length_cons]; omega)

/-! ### The seed -/

theorem mem_cellsFrom_iff {α : Type} {vs : List α} {i : Nat} {c : Nat × α} :
    c ∈ cellsFrom i vs ↔ i ≤ c.1 ∧ vs[c.1 - i]? = some c.2 := by
  induction vs generalizing i with
  | nil => simp [cellsFrom]
  | cons v vs ih =>
    obtain ⟨j, x⟩ := c
    simp only [cellsFrom, List.mem_cons, ih, Prod.mk.injEq]
    by_cases hj : i = j
    · subst hj; simp [eq_comm]
    · by_cases hlt : i < j
      · have : j - i = (j - (i + 1)) + 1 := by omega
        simp only [this, List.getElem?_cons_succ]
        constructor
        · rintro (h | h)
          · omega
          · exact ⟨by omega, h.2⟩
        · rintro ⟨_, h⟩; exact .inr ⟨by omega, h⟩
      · constructor
        · rintro (h | h) <;> omega
        · rintro ⟨h, _⟩; omega

theorem cellsFrom_fst {α : Type} (vs : List α) (i : Nat) :
    (cellsFrom i vs).map Prod.fst = List.range' i vs.length := by
  induction vs generalizing i with
  | nil => rfl
  | cons v vs ih => simp [cellsFrom, ih, List.range'_succ]

theorem cellsFrom_snd {α : Type} (vs : List α) (i : Nat) : (cellsFrom i vs).map Prod.snd = vs := by
  induction vs generalizing i with
  | nil => rfl
  | cons v vs ih => simp [cellsFrom, ih]

theorem seedLeaves_length (ws : List (Nat × Weight)) : (seedLeaves ws).length = ws.length := by
  simp [seedLeaves]

/-- The seed of the merge (40_tree_builder.md R121 step 1). -/
theorem MergeInv.seed (any : Nat → Node) (ws : List (Nat × Weight)) (hne : ws ≠ [])
    (hp : ∀ p ∈ ws, p.2 ≠ 0) :
    MergeInv any (seedLeaves ws) (ws.map fun p => p.2.toNat).sum (seedLeaves ws)
      (cellsFrom 0 (seedLeaves ws)) := by
  have hl : 0 < (seedLeaves ws).length := by
    rw [seedLeaves_length]; exact List.length_pos_iff.mpr hne
  have hmem : ∀ m, m ∈ (cellsFrom 0 (seedLeaves ws)).map Prod.fst ↔ m < (seedLeaves ws).length := by
    intro m; rw [cellsFrom_fst]; simp [List.mem_range'_1]
  refine
    { kept := fun j x h => h, entries := ?_, count := ?_, queue := ?_, nodup := ?_, newest := ?_
      sum := ?_, merges := fun j h1 h2 => by omega, forest := ?_ }
  · intro p hp'
    simpa using (mem_cellsFrom_iff.mp hp').2
  · have := congrArg List.length (cellsFrom_snd (seedLeaves ws) 0)
    simp only [List.length_map] at this
    omega
  · intro m
    rw [hmem]
    exact ⟨fun h => ⟨h, fun j' nd h1 h2 => by omega⟩, fun h => h.1⟩
  · rw [cellsFrom_fst]; exact List.nodup_range'
  · rw [hmem]; omega
  · have := congrArg (List.map fun x : Node => x.weight.toNat) (cellsFrom_snd (seedLeaves ws) 0)
    simp only [List.map_map] at this
    have h2 : ((fun x : Node => x.weight.toNat) ∘ Prod.snd : Nat × Node → Nat) =
        fun p => p.2.weight.toNat := rfl
    rw [h2] at this
    rw [this]
    simp [seedLeaves, Node.weight, Function.comp_def]
  · refine ⟨(cellsFrom 0 ws).map fun c => (.leaf c.2.2 (BitVec.ofNat 16 c.2.1), [c.1]), ?_, ?_, ?_⟩
    · have hgen : ∀ (vs : List (Nat × Weight)) (i : Nat),
          (∀ j x, vs[j]? = some x → ws[i + j]? = some x) →
          List.Forall₂ (memberTree any (seedLeaves ws)) (cellsFrom i (seedLeaves vs))
            ((cellsFrom i vs).map fun c => (CodeTree.leaf c.2.2 (BitVec.ofNat 16 c.2.1), [c.1])) := by
        intro vs
        induction vs with
        | nil => intro i _; exact .nil
        | cons v vs ih =>
          intro i hv
          refine .cons ⟨holdsTree_leaf ?_, ?_⟩ (ih (i + 1) fun j x hj => ?_)
          · have : ws[i]? = some v := hv 0 v rfl
            simp [arenaOf, seedLeaves, this]
          · have : ws[i]? = some v := hv 0 v rfl
            have := hp v (List.mem_of_getElem? this)
            have h0 : v.2.toNat ≠ 0 := fun h => this (BitVec.eq_of_toNat_eq h)
            show 1 ≤ v.2.toNat
            omega
          · have := hv (j + 1) x hj
            rw [← this]; congr 1; omega
      exact hgen ws 0 fun j x hj => by simpa using hj
    · have h1 : ((cellsFrom 0 ws).map fun c : Nat × Nat × Weight =>
          ((CodeTree.leaf c.2.2 (BitVec.ofNat 16 c.2.1), [c.1]) : CodeTree × List Nat)).flatMap Prod.snd =
          (cellsFrom 0 ws).map Prod.fst := by
        rw [List.flatMap_map]
        induction cellsFrom 0 ws with
        | nil => rfl
        | cons c cs ih => simp only [List.flatMap_cons, List.map_cons, ih]; rfl
      rw [h1, cellsFrom_fst, seedLeaves_length, List.range_eq_range']
    · rw [List.flatMap_map]
      have h1 : (cellsFrom 0 ws).flatMap (fun c : Nat × Nat × Weight =>
          (CodeTree.leaf c.2.2 (BitVec.ofNat 16 c.2.1)).syms) =
          ((cellsFrom 0 ws).map Prod.snd).map fun p => BitVec.ofNat 16 p.1 := by
        induction cellsFrom 0 ws with
        | nil => rfl
        | cons c cs ih => simp only [List.flatMap_cons, List.map_cons, ih]; rfl
      rw [h1, cellsFrom_snd]
      simp [seedLeaves, Node.first, Function.comp_def]

/-! ### BUILD's arena -/

/-- What BUILD makes of nonzero weights with distinct symbols (40_tree_builder.md R121, R122, R126, R127). -/
theorem buildArena_spec (any : Nat → Node) (ws : List (Nat × Weight)) (hne : ws ≠ [])
    (hp : ∀ p ∈ ws, p.2 ≠ 0) (hk : ws.length ≤ 65536)
    (ht : (ws.map fun p => p.2.toNat).sum < 2 ^ 32)
    (hs : (ws.map fun p => BitVec.ofNat 16 p.1).Nodup) :
    (buildArena ws).1.length = 2 * ws.length - 1 ∧ (buildArena ws).2 = 2 * ws.length - 2 ∧
    (∀ (j : Nat) (x : Node), (seedLeaves ws)[j]? = some x → (buildArena ws).1[j]? = some x) ∧
    (∀ j, ws.length ≤ j → j < 2 * ws.length - 1 → mergeAt (buildArena ws).1 ws.length j) ∧
    ∃ t is, holdsTree (arenaOf any (buildArena ws).1) t (buildArena ws).2 is ∧
      is.Perm (List.range (2 * ws.length - 1)) ∧
      t.syms.Perm (ws.map fun p => BitVec.ofNat 16 p.1) ∧ t.leavesPositive ∧
      t.weight.toNat = (ws.map fun p => p.2.toNat).sum := by
  have hfirst : (seedLeaves ws).map Node.first = ws.map fun p => BitVec.ofNat 16 p.1 := by
    simp [seedLeaves, Node.first, Function.comp_def]
  have hpos : 0 < ws.length := List.length_pos_iff.mpr hne
  have hq0 : (cellsFrom 0 (seedLeaves ws)).length = ws.length := by
    have := congrArg List.length (cellsFrom_snd (seedLeaves ws) 0)
    simpa [seedLeaves_length] using this
  obtain ⟨h, hone⟩ := (MergeInv.seed any ws hne hp).mergeQueue ws.length
    (by rw [seedLeaves_length]; exact hk) ht (by rw [hfirst]; exact hs) (by omega)
  have e1 : (buildArena ws).1 = (mergeQueue ws.length (seedLeaves ws) (cellsFrom 0 (seedLeaves ws))).1 := rfl
  have e2 : (buildArena ws).2 =
      (((mergeQueue ws.length (seedLeaves ws) (cellsFrom 0 (seedLeaves ws))).2.head?).map Prod.fst).getD 0 :=
    rfl
  rw [← e1] at h
  generalize (mergeQueue ws.length (seedLeaves ws) (cellsFrom 0 (seedLeaves ws))).2 = q at h hone e2
  have hnew := h.newest
  match q, h, hone, e2, hnew with
  | [p], h, _, e2, hnew =>
    simp only [List.head?_cons, Option.map_some, Option.getD_some] at e2
    simp only [List.map_cons, List.map_nil, List.mem_singleton] at hnew
    have hc := h.count
    rw [seedLeaves_length, List.length_singleton] at hc
    have hlen : (buildArena ws).1.length = 2 * ws.length - 1 := by omega
    refine ⟨hlen, by omega, h.kept, ?_, ?_⟩
    · intro j h1 h2
      have := h.merges j (by rw [seedLeaves_length]; exact h1) (by omega)
      rwa [seedLeaves_length] at this
    · obtain ⟨ts, hf, hidx, hsym⟩ := h.forest
      cases hf with
      | @cons _ t _ ts hpt hf =>
        cases hf
        simp only [List.flatMap_cons, List.flatMap_nil, List.append_nil] at hidx hsym
        refine ⟨t.1, t.2, e2 ▸ hpt.1, hlen ▸ hidx, hfirst ▸ hsym, hpt.2, ?_⟩
        have hw := (holdsTree_root hpt.1).1
        have he : arenaOf any (buildArena ws).1 p.1 = p.2 := by
          simp [arenaOf, h.entries p (by simp)]
        rw [he] at hw
        rw [← hw]
        simpa using h.sum

end Sys2Proof.Machine
end

