-- ==== Sys2Proof/Laws/Outcome.lean ====
section
/-! SUPPORT. How each command can end: one inversion lemma for each meaning, saying which pre-check error,
which in-flight error or which output it ends with, and under which condition. Later proofs cite these
instead of unfolding a meaning. -/

namespace Sys2Proof.Machine

@[simp] theorem succeed_eq (s : State) : succeed s = .next (s.complete .ok 0) := rfl
@[simp] theorem raiseErr_eq (s : State) (c : ResultCode) (i : Word) :
    raiseErr s c i = .next (s.complete c i) := rfl
@[simp] theorem illegalCommand_eq (s : State) (w : Word) :
    illegalCommand s w = .next (s.complete .illegalCmd w) := rfl
@[simp] theorem execNop_eq (s : State) : execNop s = .next (s.complete .ok 0) := rfl

/-- BUILD always answers a next state: a pre-check error, or the new arena. -/
theorem execBuild_cases (s : State) :
    (s.cfg.nsym < s.wtabLen.toNat ∧ execBuild s = .next (s.complete .badLength 0x018)) ∨
    (s.wtabLen.toNat ≤ s.cfg.nsym ∧ ∃ i, overflowAt 0 (s.weighted s.wtabLen.toNat) = some i ∧
      execBuild s = .next (s.complete .weightOverflow (BitVec.ofNat 32 i))) ∨
    (s.wtabLen.toNat ≤ s.cfg.nsym ∧ s.weighted s.wtabLen.toNat = [] ∧
      execBuild s = .next (s.complete .emptyInput 0)) ∨
    (s.wtabLen.toNat ≤ s.cfg.nsym ∧ overflowAt 0 (s.weighted s.wtabLen.toNat) = none ∧
      s.weighted s.wtabLen.toNat ≠ [] ∧
      execBuild s = .next ((s.setArena (buildArena (s.weighted s.wtabLen.toNat)).1
        (buildArena (s.weighted s.wtabLen.toNat)).2
        (s.weighted s.wtabLen.toNat).length).complete .ok 0)) := by
  unfold execBuild
  split
  · exact .inl ⟨‹_›, rfl⟩
  · rename_i h
    have h : s.wtabLen.toNat ≤ s.cfg.nsym := by omega
    simp only
    split
    · rename_i i hi
      exact .inr (.inl ⟨h, i, hi, rfl⟩)
    · rename_i hn
      split
      · rename_i he
        exact .inr (.inr (.inl ⟨h, by simpa using he, rfl⟩))
      · rename_i he
        exact .inr (.inr (.inr ⟨h, hn, by simpa using he, rfl⟩))

/-- GEN_CODES: NO_TREE, no tree in the arena, CODE_TOO_LONG, or the new code table. -/
theorem execGenCodes_cases (s : State) :
    (s.treeValid = false ∧ execGenCodes s = .next (s.complete .noTree 0)) ∨
    (s.treeValid = true ∧ s.tree = none ∧ execGenCodes s = .fault .arenaNotTree) ∨
    (s.treeValid = true ∧ ∃ t x, s.tree = some t ∧ treeCodes t = .error x ∧
      execGenCodes s = .next (s.loseCodes.complete .codeTooLong (x.setWidth 32))) ∨
    (s.treeValid = true ∧ ∃ t codes, s.tree = some t ∧ treeCodes t = .ok codes ∧
      execGenCodes s =
        .next ((s.setCodes (codeTable s.cfg.nsym codes) (longestCode codes)).complete .ok 0)) := by
  unfold execGenCodes
  split
  · exact .inl ⟨‹_›, rfl⟩
  · rename_i h
    have h : s.treeValid = true := by simpa using h
    split
    · exact .inr (.inl ⟨h, ‹_›, rfl⟩)
    · rename_i t ht
      split
      · rename_i x hx
        exact .inr (.inr (.inl ⟨h, t, x, ht, hx, rfl⟩))
      · rename_i codes hc
        exact .inr (.inr (.inr ⟨h, t, codes, ht, hc, rfl⟩))

/-- ENCODE: NO_CODES, BAD_LENGTH, an in-flight error, or the new bits. -/
theorem execEncode_cases (s : State) :
    (s.codesValid = false ∧ execEncode s = .next (s.complete .noCodes 0)) ∨
    (s.codesValid = true ∧ s.cfg.symbufMax < s.symCount.toNat ∧
      execEncode s = .next (s.complete .badLength 0x01C)) ∨
    (s.codesValid = true ∧ s.symCount.toNat ≤ s.cfg.symbufMax ∧ ∃ c i,
      encodeFrom s.ctabAt s.cfg.nsym s.cfg.bitbufBits 0 0 (s.symbols s.symCount.toNat) = .error (c, i) ∧
      execEncode s = .next (s.loseBits.complete c i)) ∨
    (s.codesValid = true ∧ s.symCount.toNat ≤ s.cfg.symbufMax ∧ ∃ bits,
      encodeFrom s.ctabAt s.cfg.nsym s.cfg.bitbufBits 0 0 (s.symbols s.symCount.toNat) = .ok bits ∧
      execEncode s = .next ((s.setBits bits).complete .ok 0)) := by
  unfold execEncode
  split
  · exact .inl ⟨‹_›, rfl⟩
  · rename_i h
    have h : s.codesValid = true := by simpa using h
    split
    · exact .inr (.inl ⟨h, ‹_›, rfl⟩)
    · rename_i hl
      have hl : s.symCount.toNat ≤ s.cfg.symbufMax := by omega
      split
      · rename_i c i he
        exact .inr (.inr (.inl ⟨h, hl, c, i, he, rfl⟩))
      · rename_i bits hb
        exact .inr (.inr (.inr ⟨h, hl, bits, hb, rfl⟩))

/-- PACK: BAD_LENGTH, OUT_OVERFLOW, or the artifact. -/
theorem execPack_cases (s : State) :
    (s.cfg.bitbufBits < s.bitLen.toNat ∧ execPack s = .next (s.complete .badLength 0x020)) ∨
    (s.bitLen.toNat ≤ s.cfg.bitbufBits ∧ s.cfg.artMax < artifactLength s.bitLen.toNat ∧
      execPack s =
        .next (s.complete .outOverflow (BitVec.ofNat 32 (artifactLength s.bitLen.toNat)))) ∨
    (s.bitLen.toNat ≤ s.cfg.bitbufBits ∧ artifactLength s.bitLen.toNat ≤ s.cfg.artMax ∧
      execPack s = .next ((s.setArt (artifactOf (s.bitstring s.bitLen.toNat))).complete .ok 0)) := by
  unfold execPack
  split
  · exact .inl ⟨‹_›, rfl⟩
  · split
    · exact .inr (.inl ⟨by omega, ‹_›, rfl⟩)
    · exact .inr (.inr ⟨by omega, by omega, rfl⟩)

/-- UNPACK: BAD_LENGTH, the three MALFORMED_ARTIFACT errors, OUT_OVERFLOW, or the bits. -/
theorem execUnpack_cases (s : State) :
    (s.cfg.artMax < s.artLen.toNat ∧ execUnpack s = .next (s.complete .badLength 0x024)) ∨
    (s.artLen.toNat ≤ s.cfg.artMax ∧ s.artLen.toNat = 0 ∧
      execUnpack s = .next (s.complete .malformedArtifact 0)) ∨
    (s.artLen.toNat ≤ s.cfg.artMax ∧ s.artLen.toNat ≠ 0 ∧
      ((s.artByte 0).toNat < 1 ∨ 8 < (s.artByte 0).toNat) ∧
      execUnpack s = .next (s.complete .malformedArtifact 1)) ∨
    (s.artLen.toNat ≤ s.cfg.artMax ∧ s.artLen.toNat ≠ 0 ∧ 1 ≤ (s.artByte 0).toNat ∧
      (s.artByte 0).toNat ≤ 8 ∧ 8 * (s.artLen.toNat - 1) < (s.artByte 0).toNat ∧
      execUnpack s = .next (s.complete .malformedArtifact 2)) ∨
    (s.artLen.toNat ≤ s.cfg.artMax ∧ s.artLen.toNat ≠ 0 ∧ 1 ≤ (s.artByte 0).toNat ∧
      (s.artByte 0).toNat ≤ 8 ∧ (s.artByte 0).toNat ≤ 8 * (s.artLen.toNat - 1) ∧
      s.cfg.bitbufBits < 8 * (s.artLen.toNat - 1) - (s.artByte 0).toNat ∧
      execUnpack s = .next (s.complete .outOverflow
        (BitVec.ofNat 32 (8 * (s.artLen.toNat - 1) - (s.artByte 0).toNat)))) ∨
    (s.artLen.toNat ≤ s.cfg.artMax ∧ s.artLen.toNat ≠ 0 ∧ 1 ≤ (s.artByte 0).toNat ∧
      (s.artByte 0).toNat ≤ 8 ∧ (s.artByte 0).toNat ≤ 8 * (s.artLen.toNat - 1) ∧
      8 * (s.artLen.toNat - 1) - (s.artByte 0).toNat ≤ s.cfg.bitbufBits ∧
      execUnpack s = .next ((s.setBits (unpackedBits (s.artBytes s.artLen.toNat)
        (8 * (s.artLen.toNat - 1) - (s.artByte 0).toNat))).complete .ok 0)) := by
  unfold execUnpack
  simp only
  split
  · exact .inl ⟨‹_›, rfl⟩
  · split
    · exact .inr (.inl ⟨by omega, ‹_›, rfl⟩)
    · split
      · exact .inr (.inr (.inl ⟨by omega, ‹_›, ‹_›, rfl⟩))
      · split
        · exact .inr (.inr (.inr (.inl ⟨by omega, ‹_›, by omega, by omega, ‹_›, rfl⟩)))
        · split
          · exact .inr (.inr (.inr (.inr (.inl
              ⟨by omega, ‹_›, by omega, by omega, by omega, ‹_›, rfl⟩))))
          · exact .inr (.inr (.inr (.inr (.inr
              ⟨by omega, ‹_›, by omega, by omega, by omega, by omega, rfl⟩))))

/-- DECODE: NO_TREE, BAD_LENGTH, an in-flight error, or the symbols. -/
theorem execDecode_cases (s : State) :
    (s.treeValid = false ∧ execDecode s = .next (s.complete .noTree 0)) ∨
    (s.treeValid = true ∧ s.cfg.bitbufBits < s.bitLen.toNat ∧
      execDecode s = .next (s.complete .badLength 0x020)) ∨
    (s.treeValid = true ∧ s.bitLen.toNat ≤ s.cfg.bitbufBits ∧ ∃ c i,
      decodedSymbols s.nodeAt s.root.toNat s.cfg.symbufMax (s.bitstring s.bitLen.toNat) =
        .error (c, i) ∧
      execDecode s = .next (s.loseSyms.complete c i)) ∨
    (s.treeValid = true ∧ s.bitLen.toNat ≤ s.cfg.bitbufBits ∧ ∃ syms,
      decodedSymbols s.nodeAt s.root.toNat s.cfg.symbufMax (s.bitstring s.bitLen.toNat) = .ok syms ∧
      execDecode s = .next ((s.setSyms syms).complete .ok 0)) := by
  unfold execDecode
  split
  · exact .inl ⟨‹_›, rfl⟩
  · rename_i h
    have h : s.treeValid = true := by simpa using h
    split
    · exact .inr (.inl ⟨h, ‹_›, rfl⟩)
    · rename_i hl
      have hl : s.bitLen.toNat ≤ s.cfg.bitbufBits := by omega
      split
      · rename_i c i he
        exact .inr (.inr (.inl ⟨h, hl, c, i, he, rfl⟩))
      · rename_i syms hs
        exact .inr (.inr (.inr ⟨h, hl, syms, hs, rfl⟩))

/-- SERIALIZE: NO_TREE, OUT_OVERFLOW, no tree in the arena, or the bytes. -/
theorem execSerialize_cases (s : State) :
    (s.treeValid = false ∧ execSerialize s = .next (s.complete .noTree 0)) ∨
    (s.treeValid = true ∧ s.cfg.treeMax < 12 * s.leafCount.toNat - 5 ∧
      execSerialize s =
        .next (s.complete .outOverflow (BitVec.ofNat 32 (12 * s.leafCount.toNat - 5)))) ∨
    (s.treeValid = true ∧ 12 * s.leafCount.toNat - 5 ≤ s.cfg.treeMax ∧ s.tree = none ∧
      execSerialize s = .fault .arenaNotTree) ∨
    (s.treeValid = true ∧ 12 * s.leafCount.toNat - 5 ≤ s.cfg.treeMax ∧ ∃ t, s.tree = some t ∧
      execSerialize s =
        .next ((s.setTreeBytes (serTree t) (12 * s.leafCount.toNat - 5)).complete .ok 0)) := by
  unfold execSerialize
  simp only
  split
  · exact .inl ⟨‹_›, rfl⟩
  · rename_i h
    have h : s.treeValid = true := by simpa using h
    split
    · exact .inr (.inl ⟨h, ‹_›, rfl⟩)
    · rename_i hl
      have hl : 12 * s.leafCount.toNat - 5 ≤ s.cfg.treeMax := by omega
      split
      · exact .inr (.inr (.inl ⟨h, hl, ‹_›, rfl⟩))
      · rename_i t ht
        exact .inr (.inr (.inr ⟨h, hl, t, ht, rfl⟩))

/-- DESERIALIZE always answers a next state: BAD_LENGTH, TREE_MALFORMED, or the new arena. -/
theorem execDeserialize_cases (s : State) :
    (s.cfg.treeMax < s.treeLen.toNat ∧ execDeserialize s = .next (s.complete .badLength 0x028)) ∨
    (s.treeLen.toNat ≤ s.cfg.treeMax ∧ ∃ i,
      parseBlob s.treeByte s.treeLen.toNat s.cfg.nodeMax s.cfg.nsym = .error i ∧
      execDeserialize s = .next (s.loseArena.complete .treeMalformed (BitVec.ofNat 32 i))) ∨
    (s.treeLen.toNat ≤ s.cfg.treeMax ∧ ∃ r,
      parseBlob s.treeByte s.treeLen.toNat s.cfg.nodeMax s.cfg.nsym = .ok r ∧
      execDeserialize s =
        .next ((s.setArena r.nodes 0 ((r.nodes.length + 1) / 2)).complete .ok 0)) := by
  unfold execDeserialize
  split
  · exact .inl ⟨‹_›, rfl⟩
  · rename_i hl
    have hl : s.treeLen.toNat ≤ s.cfg.treeMax := by omega
    split
    · rename_i i hi
      exact .inr (.inl ⟨hl, i, hi, rfl⟩)
    · rename_i r hr
      exact .inr (.inr ⟨hl, r, hr, rfl⟩)

/-- A command stops only where the arena holds no tree; it is never refused. -/
theorem exec_stops (i : Instr) (s : State) :
    (∃ t, exec i s = .next t) ∨ (s.treeValid = true ∧ s.tree = none ∧ exec i s = .fault .arenaNotTree) := by
  cases i with
  | nop => exact .inl ⟨_, execNop_eq s⟩
  | build =>
    rcases execBuild_cases s with ⟨_, h⟩ | ⟨_, _, _, h⟩ | ⟨_, _, h⟩ | ⟨_, _, _, h⟩ <;> exact .inl ⟨_, h⟩
  | genCodes =>
    rcases execGenCodes_cases s with ⟨_, h⟩ | ⟨h1, h2, h⟩ | ⟨_, _, _, _, _, h⟩ | ⟨_, _, _, _, _, h⟩
    · exact .inl ⟨_, h⟩
    · exact .inr ⟨h1, h2, h⟩
    · exact .inl ⟨_, h⟩
    · exact .inl ⟨_, h⟩
  | encode =>
    rcases execEncode_cases s with ⟨_, h⟩ | ⟨_, _, h⟩ | ⟨_, _, _, _, _, h⟩ | ⟨_, _, _, _, h⟩ <;>
      exact .inl ⟨_, h⟩
  | pack => rcases execPack_cases s with ⟨_, h⟩ | ⟨_, _, h⟩ | ⟨_, _, h⟩ <;> exact .inl ⟨_, h⟩
  | unpack =>
    rcases execUnpack_cases s with ⟨_, h⟩ | ⟨_, _, h⟩ | ⟨_, _, _, h⟩ | ⟨_, _, _, _, _, h⟩ |
      ⟨_, _, _, _, _, _, h⟩ | ⟨_, _, _, _, _, _, h⟩ <;> exact .inl ⟨_, h⟩
  | decode =>
    rcases execDecode_cases s with ⟨_, h⟩ | ⟨_, _, h⟩ | ⟨_, _, _, _, _, h⟩ | ⟨_, _, _, _, h⟩ <;>
      exact .inl ⟨_, h⟩
  | serialize =>
    rcases execSerialize_cases s with ⟨_, h⟩ | ⟨_, _, h⟩ | ⟨h1, _, h2, h⟩ | ⟨_, _, _, _, h⟩
    · exact .inl ⟨_, h⟩
    · exact .inl ⟨_, h⟩
    · exact .inr ⟨h1, h2, h⟩
    · exact .inl ⟨_, h⟩
  | deserialize =>
    rcases execDeserialize_cases s with ⟨_, h⟩ | ⟨_, _, _, h⟩ | ⟨_, _, _, h⟩ <;> exact .inl ⟨_, h⟩

/-! ### Which in-flight errors the loops raise -/

theorem encodeFrom_codes {ctab : Nat → Code} {nsym cap e p : Nat} {l : List Sym} {c : ResultCode} {i : Word}
    (h : encodeFrom ctab nsym cap e p l = .error (c, i)) : c ∈ inFlightCodes .encode := by
  induction l generalizing e p with
  | nil => simp [encodeFrom] at h
  | cons x l ih =>
    simp only [encodeFrom] at h
    split at h
    · injection h with h; injection h with h1 h2; subst h1; decide
    · split at h
      · injection h with h; injection h with h1 h2; subst h1; decide
      · split at h
        · rename_i y hy
          injection h with h; subst h
          exact ih hy
        · cases h

theorem walkBits_codes {node : Nat → Node} {root cap i n start k : Nat} {l : List Bool} {c : ResultCode}
    {x : Word} (h : walkBits node root cap i n start k l = .error (c, x)) : c ∈ inFlightCodes .decode := by
  induction l generalizing i n start k with
  | nil =>
    simp only [walkBits] at h
    split at h
    · injection h with h; injection h with h1 h2; subst h1; decide
    · cases h
  | cons b l ih =>
    simp only [walkBits] at h
    split at h
    · split at h
      · injection h with h; injection h with h1 h2; subst h1; decide
      · split at h
        · rename_i y hy
          injection h with h; subst h
          exact ih hy
        · cases h
    · exact ih h

theorem repeatSym_codes {s : Sym} {cap i : Nat} {l : List Bool} {c : ResultCode} {x : Word}
    (h : repeatSym s cap i l = .error (c, x)) : c ∈ inFlightCodes .decode := by
  induction l generalizing i with
  | nil => simp [repeatSym] at h
  | cons b l ih =>
    simp only [repeatSym] at h
    split at h
    · injection h with h; injection h with h1 h2; subst h1; decide
    · split at h
      · rename_i y hy
        injection h with h; subst h
        exact ih hy
      · cases h

theorem decodedSymbols_codes {node : Nat → Node} {root cap : Nat} {l : List Bool} {c : ResultCode} {x : Word}
    (h : decodedSymbols node root cap l = .error (c, x)) : c ∈ inFlightCodes .decode := by
  unfold decodedSymbols at h
  split at h
  · exact repeatSym_codes h
  · exact walkBits_codes h

/-! ### How a command can end, once for all commands -/

/-- The state an in-flight error of a command leaves before its completion (60_exceptions.md R215). -/
def lostOutput : Instr → State → State
  | .genCodes, s => s.loseCodes
  | .encode, s => s.loseBits
  | .decode, s => s.loseSyms
  | .deserialize, s => s.loseArena
  | .nop, s | .build, s | .pack, s | .unpack, s | .serialize, s => s

/-- The states a command can leave before its completion when it succeeds (30_encoding.md R95). -/
def okOutput : Instr → State → State → Prop
  | .nop, s, u => u = s
  | .build, s, u => ∃ x r k, u = s.setArena x r k
  | .genCodes, s, u => s.treeValid = true ∧ ∃ x m, u = s.setCodes x m
  | .encode, s, u => ∃ b, u = s.setBits b
  | .pack, s, u => ∃ b, u = s.setArt b
  | .unpack, s, u => ∃ b, u = s.setBits b
  | .decode, s, u => ∃ y, u = s.setSyms y
  | .serialize, s, u => ∃ b n, u = s.setTreeBytes b n
  | .deserialize, s, u => ∃ x r k, u = s.setArena x r k

/-- What a command can do: it completes a pre-check error with the state unchanged, an in-flight error with
its output lost, or OK with its output written (60_exceptions.md R210, R211, R214, R215). -/
theorem exec_ending {i : Instr} {s t : State} (h : exec i s = .next t) :
    (∃ c info, c ∈ preCheckCodes i ∧ t = s.complete c info) ∨
    (∃ c info, c ∈ inFlightCodes i ∧ t = (lostOutput i s).complete c info) ∨
    (∃ u, okOutput i s u ∧ t = u.complete .ok 0) := by
  cases i with
  | nop =>
    injection h with h
    exact .inr (.inr ⟨s, rfl, h.symm⟩)
  | build =>
    rcases execBuild_cases s with ⟨_, h'⟩ | ⟨_, _, _, h'⟩ | ⟨_, _, h'⟩ | ⟨_, _, _, h'⟩ <;>
      injection h'.symm.trans h with h <;> subst h
    · exact .inl ⟨_, _, by decide, rfl⟩
    · exact .inl ⟨_, _, by decide, rfl⟩
    · exact .inl ⟨_, _, by decide, rfl⟩
    · exact .inr (.inr ⟨_, ⟨_, _, _, rfl⟩, rfl⟩)
  | genCodes =>
    rcases execGenCodes_cases s with ⟨_, h'⟩ | ⟨_, _, h'⟩ | ⟨_, _, _, _, _, h'⟩ | ⟨hv, _, _, _, _, h'⟩
    · injection h'.symm.trans h with h; subst h
      exact .inl ⟨_, _, by decide, rfl⟩
    · cases h'.symm.trans h
    · injection h'.symm.trans h with h; subst h
      exact .inr (.inl ⟨_, _, by decide, rfl⟩)
    · injection h'.symm.trans h with h; subst h
      exact .inr (.inr ⟨_, ⟨hv, _, _, rfl⟩, rfl⟩)
  | encode =>
    rcases execEncode_cases s with ⟨_, h'⟩ | ⟨_, _, h'⟩ | ⟨_, _, _, _, he, h'⟩ | ⟨_, _, _, _, h'⟩ <;>
      injection h'.symm.trans h with h <;> subst h
    · exact .inl ⟨_, _, by decide, rfl⟩
    · exact .inl ⟨_, _, by decide, rfl⟩
    · exact .inr (.inl ⟨_, _, encodeFrom_codes he, rfl⟩)
    · exact .inr (.inr ⟨_, ⟨_, rfl⟩, rfl⟩)
  | pack =>
    rcases execPack_cases s with ⟨_, h'⟩ | ⟨_, _, h'⟩ | ⟨_, _, h'⟩ <;>
      injection h'.symm.trans h with h <;> subst h
    · exact .inl ⟨_, _, by decide, rfl⟩
    · exact .inl ⟨_, _, by decide, rfl⟩
    · exact .inr (.inr ⟨_, ⟨_, rfl⟩, rfl⟩)
  | unpack =>
    rcases execUnpack_cases s with ⟨_, h'⟩ | ⟨_, _, h'⟩ | ⟨_, _, _, h'⟩ | ⟨_, _, _, _, _, h'⟩ |
      ⟨_, _, _, _, _, _, h'⟩ | ⟨_, _, _, _, _, _, h'⟩ <;> injection h'.symm.trans h with h <;> subst h
    · exact .inl ⟨_, _, by decide, rfl⟩
    · exact .inl ⟨_, _, by decide, rfl⟩
    · exact .inl ⟨_, _, by decide, rfl⟩
    · exact .inl ⟨_, _, by decide, rfl⟩
    · exact .inl ⟨_, _, by decide, rfl⟩
    · exact .inr (.inr ⟨_, ⟨_, rfl⟩, rfl⟩)
  | decode =>
    rcases execDecode_cases s with ⟨_, h'⟩ | ⟨_, _, h'⟩ | ⟨_, _, _, _, he, h'⟩ | ⟨_, _, _, _, h'⟩ <;>
      injection h'.symm.trans h with h <;> subst h
    · exact .inl ⟨_, _, by decide, rfl⟩
    · exact .inl ⟨_, _, by decide, rfl⟩
    · exact .inr (.inl ⟨_, _, decodedSymbols_codes he, rfl⟩)
    · exact .inr (.inr ⟨_, ⟨_, rfl⟩, rfl⟩)
  | serialize =>
    rcases execSerialize_cases s with ⟨_, h'⟩ | ⟨_, _, h'⟩ | ⟨_, _, _, h'⟩ | ⟨_, _, _, _, h'⟩
    · injection h'.symm.trans h with h; subst h
      exact .inl ⟨_, _, by decide, rfl⟩
    · injection h'.symm.trans h with h; subst h
      exact .inl ⟨_, _, by decide, rfl⟩
    · cases h'.symm.trans h
    · injection h'.symm.trans h with h; subst h
      exact .inr (.inr ⟨_, ⟨_, _, rfl⟩, rfl⟩)
  | deserialize =>
    rcases execDeserialize_cases s with ⟨_, h'⟩ | ⟨_, _, _, h'⟩ | ⟨_, _, _, h'⟩ <;>
      injection h'.symm.trans h with h <;> subst h
    · exact .inl ⟨_, _, by decide, rfl⟩
    · exact .inr (.inl ⟨_, _, by decide, rfl⟩)
    · exact .inr (.inr ⟨_, ⟨_, _, _, rfl⟩, rfl⟩)

/-- No command raises OK or ILLEGAL_CMD as an error. -/
theorem errorCode_ne_ok {i : Instr} {c : ResultCode} (h : c ∈ preCheckCodes i ∨ c ∈ inFlightCodes i) :
    c ≠ .ok := by
  rintro rfl
  revert h
  cases i <;> decide

end Sys2Proof.Machine
end

