-- ==== Sys2Proof/Laws/PerInstr.lean ====
section
/-! SUPPORT. Facts about the commands as syntax, one lemma for each constructor of Instr. -/

/-- Every command is well formed, its word has the reserved bits clear, and its OP is a row of the opcode
map (30_encoding.md R90, R92). -/
def Sys2Proof.Laws.CommandWord.Statement (i : Sys2Proof.Instr) : Prop :=
  i.wf = true ∧ Sys2Proof.rsvdField (Sys2Proof.encode i) = 0 ∧
    Sys2Proof.opcodeMap (Sys2Proof.opField (Sys2Proof.encode i)) = some i

namespace Sys2Proof.Laws.CommandWord

theorem nop : Statement .nop := by unfold Statement; decide
theorem build : Statement .build := by unfold Statement; decide
theorem genCodes : Statement .genCodes := by unfold Statement; decide
theorem encode : Statement .encode := by unfold Statement; decide
theorem pack : Statement .pack := by unfold Statement; decide
theorem unpack : Statement .unpack := by unfold Statement; decide
theorem decode : Statement .decode := by unfold Statement; decide
theorem serialize : Statement .serialize := by unfold Statement; decide
theorem deserialize : Statement .deserialize := by unfold Statement; decide

end Sys2Proof.Laws.CommandWord
end

