-- ==== Sys2Proof/Laws/Serial.lean ====
section
/-! SUPPORT. The wire format (30_encoding.md R105 to R108) and the parse of 44_tree_serializer.md R195: the
records of a tree that 10_state.md R42 allows parse to its arena in pre-order, and nothing else parses. -/

namespace Sys2Proof.Machine

@[simp] theorem bytesBe32_length (w : Weight) : (bytesBe32 w).length = 4 := rfl
@[simp] theorem bytesBe16_length (s : Sym) : (bytesBe16 s).length = 2 := rfl
@[simp] theorem leafRecord_length (w : Weight) (s : Sym) : (leafRecord w s).length = 7 := rfl
@[simp] theorem internalRecord_length (w : Weight) : (internalRecord w).length = 5 := rfl

/-- The blob of k leaves has 12·k − 5 bytes (30_encoding.md R108). -/
theorem serTree_length (t : CodeTree) : (serTree t).length + 5 = 12 * t.syms.length := by
  induction t with
  | leaf w s => simp [serTree, CodeTree.syms]
  | node w l r ihl ihr =>
    simp only [serTree, List.length_append, internalRecord_length, CodeTree.syms]
    omega

/-- The arena entries of a tree in pre-order, the first at index `i` (44_tree_serializer.md R198). -/
def preNodes : CodeTree → Nat → List Node
  | .leaf w s, _ => [.leaf w s]
  | .node w l r, i =>
    .internal w (BitVec.ofNat 17 (i + 1)) (BitVec.ofNat 17 (i + 1 + (preNodes l (i + 1)).length)) l.first
      :: (preNodes l (i + 1) ++ preNodes r (i + 1 + (preNodes l (i + 1)).length))

theorem preNodes_length (t : CodeTree) (i : Nat) : (preNodes t i).length + 1 = 2 * t.syms.length := by
  induction t generalizing i with
  | leaf w s => simp [preNodes, CodeTree.syms]
  | node w l r ihl ihr =>
    have h1 := ihl (i + 1)
    have h2 := ihr (i + 1 + (preNodes l (i + 1)).length)
    simp only [preNodes, List.length_cons, List.length_append, CodeTree.syms]
    omega

/-- The pre-order arena holds its tree (10_state.md R42 clauses 1, 4 and 6). -/
theorem holdsTree_preNodes {node : Nat → Node} (t : CodeTree) (i : Nat) (hs : t.sumsExact)
    (hi : i + (preNodes t i).length ≤ 2 ^ 17)
    (h : ∀ k x, (preNodes t i)[k]? = some x → node (i + k) = x) :
    holdsTree node t i (List.range' i (preNodes t i).length) := by
  induction t generalizing i with
  | leaf w s => exact ⟨h 0 _ rfl, rfl⟩
  | node w l r ihl ihr =>
    obtain ⟨hw, hl, hr⟩ := hs
    simp only [preNodes, List.length_cons, List.length_append] at hi h ⊢
    have e1 := preNodes_length l (i + 1)
    have p1 := l.syms_pos
    have e2 := preNodes_length r (i + 1 + (preNodes l (i + 1)).length)
    have p2 := r.syms_pos
    have n1 : (BitVec.ofNat 17 (i + 1)).toNat = i + 1 := by
      rw [BitVec.toNat_ofNat]; exact Nat.mod_eq_of_lt (by omega)
    have n2 : (BitVec.ofNat 17 (i + 1 + (preNodes l (i + 1)).length)).toNat =
        i + 1 + (preNodes l (i + 1)).length := by
      rw [BitVec.toNat_ofNat]; exact Nat.mod_eq_of_lt (by omega)
    have hL := ihl (i + 1) hl (by omega) fun k x hk => by
      have hlt := (List.getElem?_eq_some_iff.mp hk).1
      have := h (k + 1) x (by simp [List.getElem?_append_left hlt, hk])
      rw [← this]; congr 1; omega
    have hR := ihr (i + 1 + (preNodes l (i + 1)).length) hr (by omega) fun k x hk => by
      have := h ((preNodes l (i + 1)).length + k + 1) x (by
        rw [List.getElem?_cons_succ, List.getElem?_append_right (by omega)]
        rw [← hk]; congr 1; omega)
      rw [← this]; congr 1; omega
    have hn : node i = .internal w _ _ l.first := h 0 _ rfl
    have hx := holdsTree_node hn (by rw [n1]; exact hL) (by rw [n2]; exact hR) hw
    rwa [List.range'_append_1, ← List.range'_succ] at hx

/-! ### Big-endian fields -/

theorem be32_of_bytes {byte : Nat → Byte} {p : Nat} {w : Weight}
    (h : ∀ k x, (bytesBe32 w)[k]? = some x → byte (p + k) = x) : be32 byte p = w := by
  have h0 : byte p = w.extractLsb' 24 8 := h 0 _ rfl
  have h1 : byte (p + 1) = w.extractLsb' 16 8 := h 1 _ rfl
  have h2 : byte (p + 2) = w.extractLsb' 8 8 := h 2 _ rfl
  have h3 : byte (p + 3) = w.extractLsb' 0 8 := h 3 _ rfl
  unfold be32
  rw [h0, h1, h2, h3]
  apply BitVec.eq_of_getLsbD_eq
  intro i hi
  simp only [BitVec.getLsbD_append, BitVec.getLsbD_extractLsb']
  have : i < 32 := hi
  interval_cases i <;> simp

theorem be16_of_bytes {byte : Nat → Byte} {p : Nat} {s : Sym}
    (h : ∀ k x, (bytesBe16 s)[k]? = some x → byte (p + k) = x) : be16 byte p = s := by
  have h0 : byte p = s.extractLsb' 8 8 := h 0 _ rfl
  have h1 : byte (p + 1) = s.extractLsb' 0 8 := h 1 _ rfl
  unfold be16
  rw [h0, h1]
  apply BitVec.eq_of_getLsbD_eq
  intro i hi
  simp only [BitVec.getLsbD_append, BitVec.getLsbD_extractLsb']
  have : i < 16 := hi
  interval_cases i <;> simp

theorem bytesBe32_be32 (byte : Nat → Byte) (p : Nat) :
    bytesBe32 (be32 byte p) = [byte p, byte (p + 1), byte (p + 2), byte (p + 3)] := by
  have e : ∀ a b c d : Byte, bytesBe32 (a ++ b ++ c ++ d) = [a, b, c, d] := by
    intro a b c d
    simp only [bytesBe32, List.cons.injEq, and_true]
    refine ⟨?_, ?_, ?_, ?_⟩ <;>
    · apply BitVec.eq_of_getLsbD_eq
      intro i hi
      simp only [BitVec.getLsbD_append, BitVec.getLsbD_extractLsb']
      have : i < 8 := hi
      interval_cases i <;> simp
  exact e _ _ _ _

theorem bytesBe16_be16 (byte : Nat → Byte) (p : Nat) : bytesBe16 (be16 byte p) = [byte p, byte (p + 1)] := by
  have e : ∀ a b : Byte, bytesBe16 (a ++ b) = [a, b] := by
    intro a b
    simp only [bytesBe16, List.cons.injEq, and_true]
    refine ⟨?_, ?_⟩ <;>
    · apply BitVec.eq_of_getLsbD_eq
      intro i hi
      simp only [BitVec.getLsbD_append, BitVec.getLsbD_extractLsb']
      have : i < 8 := hi
      interval_cases i <;> simp
  exact e _ _

/-! ### The parse -/

/-- The bytes from position `p` on are `bs`. -/
def bytesAt (byte : Nat → Byte) (p : Nat) (bs : List Byte) : Prop :=
  ∀ k x, bs[k]? = some x → byte (p + k) = x

theorem bytesAt_append {byte : Nat → Byte} {p : Nat} {a b : List Byte} :
    bytesAt byte p (a ++ b) ↔ bytesAt byte p a ∧ bytesAt byte (p + a.length) b := by
  constructor
  · intro h
    refine ⟨fun k x hk => ?_, fun k x hk => ?_⟩
    · have hlt := (List.getElem?_eq_some_iff.mp hk).1
      exact h k x (by rw [List.getElem?_append_left hlt, hk])
    · have := h (a.length + k) x (by rw [List.getElem?_append_right (by omega), ← hk]; congr 1; omega)
      rw [← this]; congr 1; omega
  · rintro ⟨ha, hb⟩ k x hk
    by_cases hlt : k < a.length
    · rw [List.getElem?_append_left hlt] at hk; exact ha k x hk
    · rw [List.getElem?_append_right (by omega)] at hk
      have := hb _ x hk
      rw [← this]; congr 1; omega

theorem bytesAt_cons {byte : Nat → Byte} {p : Nat} {x : Byte} {b : List Byte} :
    bytesAt byte p (x :: b) ↔ byte p = x ∧ bytesAt byte (p + 1) b := by
  have := bytesAt_append (byte := byte) (p := p) (a := [x]) (b := b)
  rw [List.singleton_append, List.length_singleton] at this
  rw [this]
  refine and_congr_left fun _ => ⟨fun h => h 0 x rfl, fun h k y hk => ?_⟩
  cases k with
  | zero => simp at hk; subst hk; exact h
  | succ k => simp at hk

/-- The result of a successful parse of a tree's records (44_tree_serializer.md R195). -/
def parsedTree (t : CodeTree) (i p : Nat) (seen : List Sym) : Parsed :=
  { pos := p + (serTree t).length, seen := t.syms.reverse ++ seen, nodes := preNodes t i
    weight := t.weight.toNat, first := t.first }

/-- Depth of a tree, in records. -/
def treeDepth : CodeTree → Nat
  | .leaf _ _ => 1
  | .node _ l r => max (treeDepth l) (treeDepth r) + 1

theorem treeDepth_le (t : CodeTree) : treeDepth t ≤ t.syms.length := by
  induction t with
  | leaf w s => simp [treeDepth, CodeTree.syms]
  | node w l r ihl ihr =>
    have := l.syms_pos
    have := r.syms_pos
    simp only [treeDepth, CodeTree.syms, List.length_append]
    omega

/-- The records of a tree that 10_state.md R42 allows parse to its arena (44_tree_serializer.md R197). -/
theorem parseRecord_of_tree {byte : Nat → Byte} {len nodeMax nsym : Nat} (t : CodeTree) {fuel i p : Nat}
    {seen : List Sym} (hf : treeDepth t ≤ fuel) (hb : bytesAt byte p (serTree t))
    (hl : p + (serTree t).length ≤ len) (hn : t.syms.Nodup) (hd : ∀ x ∈ t.syms, x ∉ seen)
    (hs : ∀ x ∈ t.syms, x.toNat < nsym) (hp : t.leavesPositive) (he : t.sumsExact)
    (hi : i + (preNodes t i).length ≤ nodeMax) :
    parseRecord byte len nodeMax nsym fuel i p seen = .ok (parsedTree t i p seen) := by
  induction t generalizing fuel i p seen with
  | leaf w s =>
    obtain ⟨f, rfl⟩ : ∃ f, fuel = f + 1 := ⟨fuel - 1, by simp [treeDepth] at hf; omega⟩
    rw [serTree, leafRecord, bytesAt_cons, bytesAt_append] at hb
    obtain ⟨h0, hw, hy⟩ := hb
    have hw := be32_of_bytes hw
    have hy := be16_of_bytes hy
    simp only [bytesBe32_length, Nat.add_assoc, Nat.reduceAdd] at hy
    simp only [serTree, leafRecord_length] at hl
    have hs' : s.toNat < nsym := hs s (by simp [CodeTree.syms])
    have hd' : s ∉ seen := hd s (by simp [CodeTree.syms])
    have hp' : ¬ w = 0#32 := by rintro rfl; simp [CodeTree.leavesPositive] at hp
    simp only [preNodes, List.length_singleton] at hi
    have c1 : ¬ p ≥ len := by omega
    have c2 : ¬ p + 7 > len := by omega
    have c3 : ¬ i ≥ nodeMax := by omega
    have c4 : ¬ s.toNat ≥ nsym := by omega
    simp [parseRecord, c1, c2, c3, h0, hw, hy, hp', c4, hd', parsedTree, serTree, CodeTree.syms, preNodes,
      CodeTree.weight, CodeTree.first]
  | node w l r ihl ihr =>
    obtain ⟨f, rfl⟩ : ∃ f, fuel = f + 1 := ⟨fuel - 1, by simp [treeDepth] at hf; omega⟩
    simp only [treeDepth] at hf
    rw [serTree, internalRecord, List.cons_append, bytesAt_cons, bytesAt_append, bytesAt_append] at hb
    obtain ⟨h0, hw, hL, hR⟩ := hb
    have hw := be32_of_bytes hw
    simp only [bytesBe32_length, Nat.add_assoc, Nat.reduceAdd] at hL hR
    simp only [serTree, List.length_append, internalRecord_length] at hl
    obtain ⟨hpl, hpr⟩ := hp
    obtain ⟨hsum, hel, her⟩ := he
    simp only [CodeTree.syms, List.nodup_append, List.mem_append] at hn hd hs
    obtain ⟨hnl, hnr, hdis⟩ := hn
    simp only [preNodes, List.length_cons, List.length_append] at hi
    have hA := ihl (fuel := f) (i := i + 1) (p := p + 5) (seen := seen) (by omega) hL (by omega) hnl
      (fun x hx => hd x (.inl hx)) (fun x hx => hs x (.inl hx)) hpl hel (by omega)
    have hB := ihr (fuel := f) (i := i + 1 + (preNodes l (i + 1)).length)
      (p := p + 5 + (serTree l).length) (seen := l.syms.reverse ++ seen) (by omega)
      (by rw [Nat.add_assoc]; exact hR) (by omega) hnr
      (fun x hx => by
        simp only [List.mem_append, List.mem_reverse, not_or]
        exact ⟨fun h => hdis x h x hx rfl, hd x (.inr hx)⟩)
      (fun x hx => hs x (.inr hx)) hpr her (by omega)
    have c1 : ¬ p ≥ len := by omega
    have c2 : ¬ p + 5 > len := by omega
    have c3 : ¬ i ≥ nodeMax := by omega
    have hA' : (parsedTree l (i + 1) (p + 5) seen).nodes = preNodes l (i + 1) := rfl
    have hA'' : (parsedTree l (i + 1) (p + 5) seen).pos = p + 5 + (serTree l).length := rfl
    have hA3 : (parsedTree l (i + 1) (p + 5) seen).seen = l.syms.reverse ++ seen := rfl
    simp only [parseRecord, c1, c2, c3, h0, hw, hA, hA', hA'', hA3, hB, if_false]
    simp [parsedTree, hsum, preNodes, CodeTree.syms, CodeTree.weight, CodeTree.first, serTree]
    omega

/-- Whatever parses is the records of a tree that 10_state.md R42 allows (44_tree_serializer.md R197). -/
theorem tree_of_parseRecord {byte : Nat → Byte} {len nodeMax nsym : Nat} {fuel i p : Nat} {seen : List Sym}
    {r : Parsed} (h : parseRecord byte len nodeMax nsym fuel i p seen = .ok r) :
    ∃ t, r = parsedTree t i p seen ∧ bytesAt byte p (serTree t) ∧ p + (serTree t).length ≤ len ∧
      t.syms.Nodup ∧ (∀ x ∈ t.syms, x ∉ seen) ∧ (∀ x ∈ t.syms, x.toNat < nsym) ∧ t.leavesPositive ∧
      t.sumsExact ∧ i + (preNodes t i).length ≤ nodeMax := by
  induction fuel generalizing i p seen r with
  | zero => cases h
  | succ f ih =>
    rw [parseRecord] at h
    split at h
    · cases h
    split at h
    · cases h
    rename_i hlen htag
    split at h
    · rename_i h0
      split at h
      · cases h
      split at h
      · cases h
      simp only at h
      split at h
      · cases h
      rename_i h7 hnm hbad
      injection h with h
      simp only [not_or] at hbad
      obtain ⟨hw, hs, hseen⟩ := hbad
      refine ⟨.leaf (be32 byte (p + 1)) (be16 byte (p + 5)), ?_, ?_, ?_, ?_, ?_, ?_, ?_, trivial, ?_⟩
      · rw [← h]; simp [parsedTree, serTree, CodeTree.syms, preNodes, CodeTree.weight, CodeTree.first]
      · rw [serTree, leafRecord, bytesBe32_be32, bytesBe16_be16]
        have : byte p = 0 := BitVec.eq_of_toNat_eq h0
        simp only [List.cons_append, List.nil_append, bytesAt_cons, this, Nat.add_assoc, Nat.reduceAdd,
          true_and]
        intro k x hk; simp at hk
      · simp only [serTree, leafRecord_length]; omega
      · simp [CodeTree.syms]
      · simpa [CodeTree.syms] using hseen
      · simpa [CodeTree.syms] using hs
      · have : (be32 byte (p + 1)).toNat ≠ 0 := fun h => hw (BitVec.eq_of_toNat_eq h)
        show 1 ≤ _; omega
      · simp only [preNodes, List.length_singleton]; omega
    · rename_i h0
      split at h
      · cases h
      split at h
      · cases h
      rename_i h5 hnm
      simp only at h
      split at h
      · cases h
      rename_i a ha
      split at h
      · cases h
      rename_i b hb
      split at h
      · cases h
      rename_i hsum
      injection h with h
      obtain ⟨l, rfl, hbl, hll, hnl, hdl, hsl, hpl, hel, hil⟩ := ih ha
      obtain ⟨r, rfl, hbr, hlr, hnr, hdr, hsr, hpr, her, hir⟩ := ih hb
      simp only [parsedTree] at hsum hir hbr hlr hdr h
      refine ⟨.node (be32 byte (p + 1)) l r, ?_, ?_, ?_, ?_, ?_, ?_, ⟨hpl, hpr⟩, ⟨?_, hel, her⟩, ?_⟩
      · rw [← h]
        simp [parsedTree, serTree, CodeTree.syms, preNodes, CodeTree.weight, CodeTree.first]
        omega
      · rw [serTree, internalRecord, bytesBe32_be32]
        have : byte p = 1 := BitVec.eq_of_toNat_eq (by simp; omega)
        simp only [List.cons_append, List.nil_append, bytesAt_cons, this, Nat.add_assoc, Nat.reduceAdd,
          true_and, bytesAt_append]
        exact ⟨hbl, by rwa [Nat.add_assoc] at hbr⟩
      · simp only [serTree, List.length_append, internalRecord_length]; omega
      · rw [CodeTree.syms, List.nodup_append]
        refine ⟨hnl, hnr, fun x hx y hy hxy => ?_⟩
        subst hxy
        exact hdr x hy (by simp [hx])
      · intro x hx
        rcases List.mem_append.mp hx with hx | hx
        · exact hdl x hx
        · exact fun hs => hdr x hx (by simp [hs])
      · intro x hx
        rcases List.mem_append.mp hx with hx | hx
        · exact hsl x hx
        · exact hsr x hx
      · simp only [not_not] at hsum; exact hsum.symm
      · simp only [preNodes, List.length_cons, List.length_append]; omega

/-- The blob parses exactly if it is the records of one tree that 10_state.md R42 allows
(44_tree_serializer.md R195, R197). -/
theorem parseBlob_ok_iff {byte : Nat → Byte} {len nsym : Nat} {r : Parsed} (hn : 1 ≤ nsym) :
    parseBlob byte len (2 * nsym - 1) nsym = .ok r ↔
      ∃ t, treeOk nsym t ∧ bytesAt byte 0 (serTree t) ∧ (serTree t).length = len ∧
        r = parsedTree t 0 0 [] := by
  unfold parseBlob
  constructor
  · intro h
    split at h
    · cases h
    · rename_i r' hr
      split at h
      · cases h
      · rename_i hpos
        injection h with h; subst h
        obtain ⟨t, rfl, hb, hl, hnd, -, hs, hp, he, -⟩ := tree_of_parseRecord hr
        refine ⟨t, ⟨hnd, hs, hp, he⟩, hb, ?_, rfl⟩
        simpa [parsedTree] using hpos
  · rintro ⟨t, ⟨hnd, hs, hp, he⟩, hb, hl, rfl⟩
    have hk := syms_length_le hnd hs
    have hd := treeDepth_le t
    have hq := preNodes_length t 0
    rw [parseRecord_of_tree t (by omega) hb (by omega) hnd (by simp) hs hp he (by omega)]
    simp [parsedTree, hl]

/-! ### The first wrong record (44_tree_serializer.md R196) -/

theorem treesBefore_none (w : Weight) (up : List (Weight × Option CodeTree)) :
    treesBefore ((w, none) :: up) = treesBefore up := rfl

theorem treesBefore_some (w : Weight) (l : CodeTree) (up : List (Weight × Option CodeTree)) :
    treesBefore ((w, some l) :: up) = l :: treesBefore up := rfl

theorem recordsBefore_none (w : Weight) (up : List (Weight × Option CodeTree)) :
    recordsBefore ((w, none) :: up) = 1 + recordsBefore up := by
  simp only [recordsBefore, treesBefore_none, List.length_cons]; omega

theorem recordsBefore_some (w : Weight) (l : CodeTree) (up : List (Weight × Option CodeTree)) (i : Nat) :
    recordsBefore ((w, some l) :: up) = 1 + (preNodes l i).length + recordsBefore up := by
  have := preNodes_length l i
  simp only [recordsBefore, treesBefore_some, recordsOf, List.length_cons, List.map_cons, List.sum_cons]
  omega

theorem subtreesOk_cons {nsym : Nat} {t : CodeTree} {ts : List CodeTree} (h : subtreesOk nsym (t :: ts)) :
    treeOk nsym t ∧ subtreesOk nsym ts ∧ ∀ x ∈ t.syms, x ∉ ts.flatMap CodeTree.syms := by
  obtain ⟨h1, h2, h3⟩ := h
  rw [List.flatMap_cons, List.nodup_append] at h1
  simp only [List.flatMap_cons, List.mem_append, List.mem_cons] at h2 h3
  exact ⟨⟨h1.1, fun x hx => h2 x (.inl hx), h3 t (.inl rfl)⟩,
    ⟨h1.2.1, fun x hx => h2 x (.inr hx), fun t ht => h3 t (.inr ht)⟩, fun x hx hy => h1.2.2 x hx x hy rfl⟩

/-- A tree whose records fit the arena after `i` others fits the depth that is left (log 14). -/
theorem treeDepth_fits {nodeMax fuel i : Nat} {t : CodeTree} (hf : nodeMax + 1 ≤ fuel + i)
    (hi : i + (preNodes t i).length ≤ nodeMax) : treeDepth t ≤ fuel := by
  have := treeDepth_le t; have := preNodes_length t i; omega

/-- What the parse of an internal record does, its own form being right: its two subtrees, then its
weight. -/
theorem parseRecord_internal {byte : Nat → Byte} {len nodeMax nsym fuel i p : Nat} {seen : List Sym}
    {w : Weight} (hb : bytesAt byte p (internalRecord w)) (hl : p + 5 ≤ len) (hi : i < nodeMax) :
    (∀ e, parseRecord byte len nodeMax nsym fuel (i + 1) (p + 5) seen = .error e →
      parseRecord byte len nodeMax nsym (fuel + 1) i p seen = .error e) ∧
    ∀ a, parseRecord byte len nodeMax nsym fuel (i + 1) (p + 5) seen = .ok a →
      (∀ e, parseRecord byte len nodeMax nsym fuel (i + 1 + a.nodes.length) a.pos a.seen = .error e →
        parseRecord byte len nodeMax nsym (fuel + 1) i p seen = .error e) ∧
      ∀ b, parseRecord byte len nodeMax nsym fuel (i + 1 + a.nodes.length) a.pos a.seen = .ok b →
        a.weight + b.weight ≠ w.toNat → parseRecord byte len nodeMax nsym (fuel + 1) i p seen = .error p := by
  rw [internalRecord, bytesAt_cons] at hb
  have hw := be32_of_bytes hb.2
  have c1 : ¬ p ≥ len := by omega
  have c2 : ¬ p + 5 > len := by omega
  have c3 : ¬ i ≥ nodeMax := by omega
  refine ⟨fun e h => ?_, fun a ha => ⟨fun e h => ?_, fun b h hn => ?_⟩⟩
  · simp [parseRecord, c1, c2, c3, hb.1, h]
  · simp [parseRecord, c1, c2, c3, hb.1, ha, h]
  · simp [parseRecord, c1, c2, c3, hb.1, ha, h, hw, hn]

/-- An error of the record that stands after `up` is the error of the whole parse, if nothing before it is
wrong (44_tree_serializer.md R195: "the first failing record in pre-order wins"). -/
theorem parseRecord_error_after {byte : Nat → Byte} {len nodeMax nsym : Nat}
    (up : List (Weight × Option CodeTree)) {fuel i p : Nat} {seen : List Sym}
    (hf : nodeMax + 1 ≤ fuel + i) (hb : bytesAt byte p (bytesBefore up))
    (hl : p + (bytesBefore up).length ≤ len) (ho : subtreesOk nsym (treesBefore up))
    (hd : ∀ x ∈ (treesBefore up).flatMap CodeTree.syms, x ∉ seen) (hi : i + recordsBefore up ≤ nodeMax) :
    ∃ fuel' seen', nodeMax + 1 ≤ fuel' + (i + recordsBefore up) ∧
      (∀ x, x ∈ seen' ↔ x ∈ (treesBefore up).flatMap CodeTree.syms ∨ x ∈ seen) ∧
      ∀ e, parseRecord byte len nodeMax nsym fuel' (i + recordsBefore up) (p + (bytesBefore up).length) seen'
          = .error e →
        parseRecord byte len nodeMax nsym fuel i p seen = .error e := by
  induction up generalizing fuel i p seen with
  | nil => exact ⟨fuel, seen, hf, by simp [treesBefore], fun e h => h⟩
  | cons a up ih =>
    obtain ⟨w, _ | l⟩ := a
    · rw [treesBefore_none] at ho hd
      rw [recordsBefore_none] at hi
      rw [bytesBefore, bytesAt_append] at hb
      rw [bytesBefore, List.length_append, internalRecord_length] at hl
      obtain ⟨f, rfl⟩ : ∃ f, fuel = f + 1 := ⟨fuel - 1, by omega⟩
      obtain ⟨f', s', h1, h2, h3⟩ := ih (fuel := f) (i := i + 1) (by omega) hb.2 (by simp; omega) ho hd (by omega)
      refine ⟨f', s', by rw [recordsBefore_none]; omega, h2, fun e he => ?_⟩
      refine (parseRecord_internal hb.1 (by omega) (by omega)).1 e (h3 e ?_)
      rw [← he, recordsBefore_none, bytesBefore, List.length_append]; congr 1 <;> omega
    · rw [treesBefore_some] at ho hd
      rw [recordsBefore_some _ _ _ (i + 1)] at hi
      obtain ⟨ht, ho, hdis⟩ := subtreesOk_cons ho
      simp only [List.flatMap_cons, List.mem_append] at hd
      rw [bytesBefore, bytesAt_append, bytesAt_append] at hb
      simp only [bytesBefore, List.length_append, internalRecord_length] at hl
      obtain ⟨f, rfl⟩ : ∃ f, fuel = f + 1 := ⟨fuel - 1, by omega⟩
      have hA := parseRecord_of_tree (len := len) (nodeMax := nodeMax) l (fuel := f) (i := i + 1) (seen := seen)
        (treeDepth_fits (nodeMax := nodeMax) (i := i + 1) (by omega) (by omega)) hb.2.1
        (by simp; omega) ht.1 (fun x hx => hd x (.inl hx)) ht.2.1 ht.2.2.1 ht.2.2.2 (by omega)
      obtain ⟨f', s', h1, h2, h3⟩ := ih (fuel := f) (i := i + 1 + (preNodes l (i + 1)).length)
        (seen := l.syms.reverse ++ seen) (by omega) hb.2.2 (by simp; omega) ho
        (fun x hx => by
          simp only [List.mem_append, List.mem_reverse, not_or]
          exact ⟨fun h => hdis x h hx, hd x (.inr hx)⟩)
        (by omega)
      refine ⟨f', s', by rw [recordsBefore_some _ _ _ (i + 1)]; omega, fun x => ?_, fun e he => ?_⟩
      · rw [h2, treesBefore_some, List.flatMap_cons]
        simp only [List.mem_append, List.mem_reverse]
        tauto
      · refine ((parseRecord_internal hb.1 (by omega) (by omega)).2 _ hA).1 e (h3 e ?_)
        rw [← he, recordsBefore_some _ _ _ (i + 1)]
        simp only [bytesBefore, List.length_append]
        congr 1 <;> omega

/-- The errors of one record on its own (44_tree_serializer.md R196), in the order of R195. -/
theorem parseRecord_error {byte : Nat → Byte} {len nodeMax nsym fuel i p : Nat} {seen : List Sym} :
    (len ≤ p → parseRecord byte len nodeMax nsym (fuel + 1) i p seen = .error len) ∧
    (p < len → 1 < (byte p).toNat → parseRecord byte len nodeMax nsym (fuel + 1) i p seen = .error p) ∧
    (p < len → byte p = 0 → len < p + 7 → parseRecord byte len nodeMax nsym (fuel + 1) i p seen = .error len) ∧
    (p < len → byte p = 1 → len < p + 5 → parseRecord byte len nodeMax nsym (fuel + 1) i p seen = .error len) ∧
    (p + 5 ≤ len → byte p = 1 → nodeMax ≤ i →
      parseRecord byte len nodeMax nsym (fuel + 1) i p seen = .error p) ∧
    ∀ w x, p + 7 ≤ len → bytesAt byte p (leafRecord w x) →
      nodeMax ≤ i ∨ w = 0 ∨ nsym ≤ x.toNat ∨ x ∈ seen →
      parseRecord byte len nodeMax nsym (fuel + 1) i p seen = .error p := by
  refine ⟨fun h => ?_, fun h h1 => ?_, fun h h1 h2 => ?_, fun h h1 h2 => ?_, fun h h1 h2 => ?_,
    fun w x h hb hbad => ?_⟩
  · simp [parseRecord, h]
  · have c1 : ¬ p ≥ len := by omega
    simp [parseRecord, c1, h1]
  · have c1 : ¬ p ≥ len := by omega
    simp [parseRecord, c1, h1, h2]
  · have c1 : ¬ p ≥ len := by omega
    simp [parseRecord, c1, h1, h2]
  · have c1 : ¬ p ≥ len := by omega
    have c2 : ¬ p + 5 > len := by omega
    simp [parseRecord, c1, c2, h1, h2]
  · rw [leafRecord, bytesAt_cons, bytesAt_append] at hb
    obtain ⟨h0, hw, hy⟩ := hb
    have hw := be32_of_bytes hw
    have hy := be16_of_bytes hy
    simp only [bytesBe32_length, Nat.add_assoc, Nat.reduceAdd] at hy
    have c1 : ¬ p ≥ len := by omega
    have c2 : ¬ p + 7 > len := by omega
    by_cases c3 : nodeMax ≤ i
    · simp [parseRecord, c1, c2, c3, h0]
    · have hbad : w = 0#32 ∨ nsym ≤ x.toNat ∨ x ∈ seen := hbad.resolve_left c3
      simp [parseRecord, c1, c2, c3, h0, hw, hy, hbad]

end Sys2Proof.Machine
end

