-- ==== Sys2Proof/Laws/Step.lean ====
section
/-! SUPPORT. What the port, a turn of the host and a step can do: one inversion lemma for each, cited instead
of unfolding memRead, memWrite, hostTurn and step. -/

namespace Sys2Proof.Machine

/-- A read is accepted exactly on these conditions (20_memory.md R61), and returns the location's word. -/
theorem memRead_ok_iff (s : State) (a n : Nat) (d : Word) : memRead s a n = .ok d ↔
    n = 4 ∧ a % 4 = 0 ∧ ∃ l, locate s.cfg a = some l ∧ (s.busy = true → busyReadable l = true) ∧
      d = s.readLoc l := by
  unfold memRead
  by_cases h1 : n = 4
  · by_cases h2 : a % 4 = 0
    · cases h3 : locate s.cfg a with
      | none => simp [h1, h2]
      | some l =>
        simp only [h1, h2, ne_eq, not_true_eq_false, if_false, Option.some.injEq, exists_eq_left', true_and]
        cases s.busy <;> cases busyReadable l <;> simp <;> exact eq_comm
    · simp [h1, h2]
  · simp [h1]

/-- A write is accepted exactly on these conditions (20_memory.md R62), and stores to the location. -/
theorem memWrite_ok_iff (s : State) (a n : Nat) (v : Word) (t : State) : memWrite s a n v = .ok t ↔
    n = 4 ∧ a % 4 = 0 ∧ ∃ l, locate s.cfg a = some l ∧ readOnly l = false ∧
      (s.busy = true → busyWritable l = true) ∧ t = s.writeLoc v l := by
  unfold memWrite
  by_cases h1 : n = 4
  · by_cases h2 : a % 4 = 0
    · cases h3 : locate s.cfg a with
      | none => simp [h1, h2]
      | some l =>
        simp only [h1, h2, ne_eq, not_true_eq_false, if_false, Option.some.injEq, exists_eq_left', true_and]
        cases readOnly l <;> cases s.busy <;> cases busyWritable l <;> simp <;> exact eq_comm
    · simp [h1, h2]
  · simp [h1]

/-- The port stops an access by a bus error only (20_memory.md R65). -/
theorem memRead_error {s : State} {a n : Nat} {f : Fault} (h : memRead s a n = .error f) :
    ∃ c, f = .busError c := by
  unfold memRead at h
  split at h
  · injection h with h; exact ⟨_, h.symm⟩
  · split at h
    · injection h with h; exact ⟨_, h.symm⟩
    · split at h
      · injection h with h; exact ⟨_, h.symm⟩
      · split at h
        · injection h with h; exact ⟨_, h.symm⟩
        · cases h

/-- The port stops an access by a bus error only (20_memory.md R65). -/
theorem memWrite_error {s : State} {a n : Nat} {v : Word} {f : Fault} (h : memWrite s a n v = .error f) :
    ∃ c, f = .busError c := by
  unfold memWrite at h
  split at h
  · injection h with h; exact ⟨_, h.symm⟩
  · split at h
    · injection h with h; exact ⟨_, h.symm⟩
    · split at h
      · injection h with h; exact ⟨_, h.symm⟩
      · split at h
        · injection h with h; exact ⟨_, h.symm⟩
        · split at h
          · injection h with h; exact ⟨_, h.symm⟩
          · cases h

/-- A located offset is mapped (20_memory.md R67). -/
theorem mapped_of_locate {c : Config} {a : Nat} {l : Loc} (h : locate c a = some l) :
    mapped c l = true := by
  unfold locate at h
  split at h
  · split at h
    · injection h with h; subst h; assumption
    · cases h
  · cases h

/-- What a turn of the host that answers a next state did: nothing, an accepted read, an accepted write, a
look at STATUS, or a pulse of the reset input. -/
theorem hostTurn_cases {s t : State} (h : hostTurn s = .next t) :
    (s.program[s.line]? = none ∧ t = s) ∨
    (∃ a n d, s.program[s.line]? = some (.rd a n) ∧ memRead s a n = .ok d ∧
      t = s.answer (.data d) (s.line + 1)) ∨
    (∃ a n v u, s.program[s.line]? = some (.wr a n v) ∧ memWrite s a n v = .ok u ∧
      t = u.answer .ok (s.line + 1)) ∨
    (∃ k d, s.program[s.line]? = some (.busyLoop k) ∧ memRead s 0x008 4 = .ok d ∧
      t = s.answer (.data d) (if d.getLsbD 0 then k else s.line + 1)) ∨
    (s.program[s.line]? = some .resetPin ∧ t = s.powerReset.answer .none (s.line + 1)) := by
  unfold hostTurn at h
  split at h
  · rename_i hl; injection h with h; exact .inl ⟨hl, h.symm⟩
  · rename_i a n hl
    split at h
    · cases h
    · rename_i d hd; injection h with h; exact .inr (.inl ⟨a, n, d, hl, hd, h.symm⟩)
  · rename_i a n v hl
    split at h
    · cases h
    · rename_i u hu; injection h with h; exact .inr (.inr (.inl ⟨a, n, v, u, hl, hu, h.symm⟩))
  · rename_i k hl
    split at h
    · cases h
    · rename_i d hd; injection h with h; exact .inr (.inr (.inr (.inl ⟨k, d, hl, hd, h.symm⟩)))
  · rename_i hl; injection h with h; exact .inr (.inr (.inr (.inr ⟨hl, h.symm⟩)))

/-- A turn of the host is never refused, and it stops by a bus error only (20_memory.md R65). -/
theorem hostTurn_stops (s : State) :
    (∃ t, hostTurn s = .next t) ∨ ∃ c, hostTurn s = .fault (.busError c) := by
  unfold hostTurn
  split
  · exact .inl ⟨_, rfl⟩
  · split
    · rename_i f hf; obtain ⟨c, rfl⟩ := memRead_error hf; exact .inr ⟨c, rfl⟩
    · exact .inl ⟨_, rfl⟩
  · split
    · rename_i f hf; obtain ⟨c, rfl⟩ := memWrite_error hf; exact .inr ⟨c, rfl⟩
    · exact .inl ⟨_, rfl⟩
  · split
    · rename_i f hf; obtain ⟨c, rfl⟩ := memRead_error hf; exact .inr ⟨c, rfl⟩
    · exact .inl ⟨_, rfl⟩
  · exact .inl ⟨_, rfl⟩

/-- What one step is: a turn of the host, the completion step of a command, or that of a word that is no
command (60_exceptions.md R210, 30_encoding.md R96). -/
theorem step_cases (s : State) :
    (s.phase = .idle ∧ step s = hostTurn s) ∨
    (∃ w n, s.phase = .running w (n + 1) ∧ step s = hostTurn { s with phase := .running w n }) ∨
    (∃ w i, s.phase = .running w 0 ∧ decode w = .ok i ∧ step s = exec i s) ∨
    (∃ w e, s.phase = .running w 0 ∧ decode w = .error e ∧ step s = .next (s.complete .illegalCmd w)) := by
  unfold step
  split
  · rename_i h; exact .inl ⟨h, rfl⟩
  · rename_i w n h; exact .inr (.inl ⟨w, n, h, rfl⟩)
  · rename_i w h
    split
    · rename_i i hi; exact .inr (.inr (.inl ⟨w, i, h, hi, rfl⟩))
    · rename_i e he; exact .inr (.inr (.inr ⟨w, e, h, he, rfl⟩))

/-- A run of one step more: the step, then the rest of the run. -/
theorem core_run_succ (M : Host.Core) (n : Nat) (s s' : M.State) (h : M.step s = .next s') :
    M.run (n + 1) s = M.run n s' := by
  simp [Host.Core.run, h]

theorem run_succ {s s' : State} (n : Nat) (h : step s = .next s') :
    Sys2Proof.core.run (n + 1) s = Sys2Proof.core.run n s' :=
  core_run_succ Sys2Proof.core n s s' h

end Sys2Proof.Machine
end

