-- ==== Sys2Proof/Laws/Walk.lean ====
section
/-! SUPPORT. The automaton of DECODE (43_decoder.md R180 to R182) on the tree that the arena holds: what it
does on a leaf's path, on a sequence of paths, on an unfinished path, and on the one-leaf tree. -/

namespace Sys2Proof.Machine

/-- The first bit of the code that is being read after the automaton takes bit `i` at node `n`. -/
def codeStart (root i n start : Nat) : Nat := if n = root then i else start

section
variable {node : Nat → Node} {root cap : Nat}

theorem walkBits_leaf {n i start c : Nat} {b : Bool} {bits : List Bool} {w : Weight} {s : Sym}
    (h : node (nextNode node n b) = .leaf w s) :
    walkBits node root cap i n start c (b :: bits) =
      if c ≥ cap then .error (.outOverflow, BitVec.ofNat 32 i)
      else match walkBits node root cap (i + 1) root (codeStart root i n start) (c + 1) bits with
        | .error x => .error x
        | .ok syms => .ok (s :: syms) := by
  rw [walkBits]
  simp only [h, codeStart] <;> rfl

theorem walkBits_internal {n i start c : Nat} {b : Bool} {bits : List Bool} {w : Weight} {l r : NodeIdx}
    {f : Sym} (h : node (nextNode node n b) = .internal w l r f) :
    walkBits node root cap i n start c (b :: bits) =
      walkBits node root cap (i + 1) (nextNode node n b) (codeStart root i n start) c bits := by
  rw [walkBits]
  simp only [h, codeStart]

/-- A leaf's path, read from the subtree's root, emits its symbol and goes back to the root, or overflows at
its last bit (43_decoder.md R180). -/
theorem walkBits_path {t : CodeTree} {n : Nat} {is : List Nat} (h : holdsTree node t n is)
    (hr : root ∉ is.tail) {p : Sym × List Bool} (hp : p ∈ t.paths) (hne : p.2 ≠ [])
    (i start c : Nat) (rest : List Bool) :
    walkBits node root cap i n start c (p.2 ++ rest) =
      if c ≥ cap then .error (.outOverflow, BitVec.ofNat 32 (i + p.2.length - 1))
      else match walkBits node root cap (i + p.2.length) root (codeStart root i n start) (c + 1) rest with
        | .error x => .error x
        | .ok syms => .ok (p.1 :: syms) := by
  induction t generalizing n is p i start with
  | leaf w s =>
    simp only [CodeTree.paths, List.mem_singleton] at hp
    subst hp; exact absurd rfl hne
  | node w a b iha ihb =>
    obtain ⟨l, r, ia, ib, hn, ha, hb, rfl, -⟩ := h
    simp only [List.tail_cons, List.mem_append, not_or] at hr
    have hside : ∀ (sub : CodeTree) (m : Nat) (im : List Nat) (bit : Bool) (q : Sym × List Bool),
        holdsTree node sub m im → root ∉ im → nextNode node n bit = m → q ∈ sub.paths →
        (∀ (i start : Nat), q.2 ≠ [] →
          walkBits node root cap i m start c (q.2 ++ rest) =
            if c ≥ cap then .error (.outOverflow, BitVec.ofNat 32 (i + q.2.length - 1))
            else match walkBits node root cap (i + q.2.length) root (codeStart root i m start) (c + 1) rest with
              | .error x => .error x
              | .ok syms => .ok (q.1 :: syms)) →
        walkBits node root cap i n start c (bit :: q.2 ++ rest) =
          if c ≥ cap then .error (.outOverflow, BitVec.ofNat 32 (i + (bit :: q.2).length - 1))
          else match walkBits node root cap (i + (bit :: q.2).length) root (codeStart root i n start) (c + 1)
              rest with
            | .error x => .error x
            | .ok syms => .ok (q.1 :: syms) := by
      intro sub m im bit q hs hm hx hq ih
      cases sub with
      | leaf w' s' =>
        simp only [CodeTree.paths, List.mem_singleton] at hq
        subst hq
        have hl : node (nextNode node n bit) = .leaf w' s' := by rw [hx]; exact hs.1
        rw [List.cons_append, walkBits_leaf hl]
        simp
      | node w' a' b' =>
        have hq' := CodeTree.node_path_pos hq
        have hmr : m ≠ root := fun he => hm (he ▸ holdsTree_mem_root hs)
        obtain ⟨l', r', _, _, hn', -⟩ := hs
        have hl : node (nextNode node n bit) = .internal w' l' r' a'.first := by rw [hx]; exact hn'
        rw [List.cons_append, walkBits_internal hl, hx, ih _ _ (by intro h0; simp [h0] at hq')]
        have h1 : codeStart root (i + 1) m (codeStart root i n start) = codeStart root i n start := by
          rw [codeStart, if_neg hmr]
        have h2 : i + 1 + q.2.length = i + (q.2.length + 1) := by omega
        rw [h1, List.length_cons, h2]
    simp only [CodeTree.paths, List.mem_append, List.mem_map] at hp
    rcases hp with ⟨q, hq, rfl⟩ | ⟨q, hq, rfl⟩
    · refine hside a l.toNat ia false q ha hr.1 (by simp [nextNode, hn, Node.left]) hq ?_
      intro i' start' hq'
      exact iha ha (fun ht => hr.1 (List.mem_of_mem_tail ht)) hq hq' i' start'
    · refine hside b r.toNat ib true q hb hr.2 (by simp [nextNode, hn, Node.right]) hq ?_
      intro i' start' hq'
      exact ihb hb (fun ht => hr.2 (List.mem_of_mem_tail ht)) hq hq' i' start'

/-- Bits that stop inside a path end in TREE_BITSTREAM_MISMATCH at the first bit of the unfinished code
(43_decoder.md R182). -/
theorem walkBits_unfinished {t : CodeTree} {n : Nat} {is : List Nat} (h : holdsTree node t n is)
    (hr : root ∉ is.tail) {p : Sym × List Bool} (hp : p ∈ t.paths) {q : List Bool} (hq : q <+: p.2)
    (hne : q ≠ p.2) (hq0 : q ≠ [] ∨ n ≠ root) (i start c : Nat) :
    walkBits node root cap i n start c q =
      .error (.treeBitstreamMismatch, BitVec.ofNat 32 (if q = [] then start else codeStart root i n start)) := by
  induction t generalizing n is p q i start with
  | leaf w s =>
    simp only [CodeTree.paths, List.mem_singleton] at hp
    subst hp
    simp only [List.prefix_nil] at hq
    exact absurd hq hne
  | node w a b iha ihb =>
    obtain ⟨l, r, ia, ib, hn, ha, hb, rfl, -⟩ := h
    simp only [List.tail_cons, List.mem_append, not_or] at hr
    cases q with
    | nil =>
      have : n ≠ root := by rcases hq0 with h | h; exact absurd rfl h; exact h
      simp [walkBits, this]
    | cons bit q =>
      have hside : ∀ (sub : CodeTree) (m : Nat) (im : List Nat) (p' : Sym × List Bool),
          holdsTree node sub m im → root ∉ im → nextNode node n bit = m → p' ∈ sub.paths →
          q <+: p'.2 → q ≠ p'.2 →
          (∀ (i start : Nat), m ≠ root → walkBits node root cap i m start c q =
            .error (.treeBitstreamMismatch,
              BitVec.ofNat 32 (if q = [] then start else codeStart root i m start))) →
          walkBits node root cap i n start c (bit :: q) =
            .error (.treeBitstreamMismatch, BitVec.ofNat 32 (codeStart root i n start)) := by
        intro sub m im p' hs hm hx hp' hq' hne' ih
        have hmr : m ≠ root := fun he => hm (he ▸ holdsTree_mem_root hs)
        cases sub with
        | leaf w' s' =>
          simp only [CodeTree.paths, List.mem_singleton] at hp'
          subst hp'
          simp only [List.prefix_nil] at hq'
          exact absurd hq' hne'
        | node w' a' b' =>
          obtain ⟨l', r', _, _, hn', -⟩ := hs
          have hl : node (nextNode node n bit) = .internal w' l' r' a'.first := by rw [hx]; exact hn'
          rw [walkBits_internal hl, hx, ih _ _ hmr]
          have h1 : codeStart root (i + 1) m (codeStart root i n start) = codeStart root i n start := by
            rw [codeStart, if_neg hmr]
          rw [h1, ite_self]
      rw [if_neg (List.cons_ne_nil _ _)]
      simp only [CodeTree.paths, List.mem_append, List.mem_map] at hp
      rcases hp with ⟨p', hp', rfl⟩ | ⟨p', hp', rfl⟩
      · simp only [List.cons_prefix_cons] at hq
        obtain ⟨rfl, hq⟩ := hq
        have hne' : q ≠ p'.2 := fun h => hne (by rw [h])
        exact hside a l.toNat ia p' ha hr.1 (by simp [nextNode, hn, Node.left]) hp' hq hne'
          fun i' start' hm => iha ha (fun ht => hr.1 (List.mem_of_mem_tail ht)) hp' hq hne' (.inr hm) i' start'
      · simp only [List.cons_prefix_cons] at hq
        obtain ⟨rfl, hq⟩ := hq
        have hne' : q ≠ p'.2 := fun h => hne (by rw [h])
        exact hside b r.toNat ib p' hb hr.2 (by simp [nextNode, hn, Node.right]) hp' hq hne'
          fun i' start' hm => ihb hb (fun ht => hr.2 (List.mem_of_mem_tail ht)) hp' hq hne' (.inr hm) i' start'

/-- A sequence of paths emits their symbols, as far as they fit (43_decoder.md R180). -/
theorem walkBits_paths {w : Weight} {a b : CodeTree} {is : List Nat}
    (h : holdsTree node (.node w a b) root is) (hnd : is.Nodup) (xs : List (Sym × List Bool))
    (hx : ∀ p ∈ xs, p ∈ (CodeTree.node w a b).paths) (i start c : Nat) (hc : c + xs.length ≤ cap)
    (rest : List Bool) : ∃ start', walkBits node root cap i root start c (xs.flatMap Prod.snd ++ rest) =
      match walkBits node root cap (i + (xs.flatMap Prod.snd).length) root start' (c + xs.length) rest with
      | .error x => .error x
      | .ok syms => .ok (xs.map Prod.fst ++ syms) := by
  have hr : root ∉ is.tail := by
    obtain ⟨l, r, ia, ib, -, -, -, rfl, -⟩ := h
    simp only [List.nodup_cons] at hnd
    exact hnd.1
  induction xs generalizing i start c with
  | nil =>
    refine ⟨start, ?_⟩
    simp only [List.flatMap_nil, List.nil_append, List.length_nil, Nat.add_zero, List.map_nil]
    cases walkBits node root cap i root start c rest <;> rfl
  | cons p xs ih =>
    have hp := hx p List.mem_cons_self
    have hpos := CodeTree.node_path_pos hp
    simp only [List.length_cons] at hc
    obtain ⟨s', hs'⟩ := ih (fun q hq => hx q (List.mem_cons_of_mem _ hq)) (i + p.2.length)
      (codeStart root i root start) (c + 1) (by omega)
    refine ⟨s', ?_⟩
    rw [List.flatMap_cons, List.append_assoc,
      walkBits_path h hr hp (by intro h0; simp [h0] at hpos) i start c, if_neg (by omega), hs']
    have e1 : i + (p.2 ++ xs.flatMap Prod.snd).length = i + p.2.length + (xs.flatMap Prod.snd).length := by
      rw [List.length_append]; omega
    have e2 : c + (p :: xs).length = c + 1 + xs.length := by rw [List.length_cons]; omega
    rw [e1, e2]
    cases walkBits node root cap (i + p.2.length + (xs.flatMap Prod.snd).length) root s'
      (c + 1 + xs.length) rest <;> rfl

end

/-- On the one-leaf tree every bit emits the symbol (43_decoder.md R181). -/
theorem repeatSym_ok (x : Sym) (cap i : Nat) (bits : List Bool) (h : i + bits.length ≤ cap) :
    repeatSym x cap i bits = .ok (List.replicate bits.length x) := by
  induction bits generalizing i with
  | nil => rfl
  | cons b bits ih =>
    simp only [List.length_cons] at h
    rw [repeatSym, if_neg (by omega), ih (i + 1) (by omega)]
    rfl

/-- The bit after the last symbol that fits overflows (43_decoder.md R181). -/
theorem repeatSym_overflow (x : Sym) (cap i : Nat) (bits : List Bool) (hi : i ≤ cap)
    (h : cap < i + bits.length) :
    repeatSym x cap i bits = .error (.outOverflow, BitVec.ofNat 32 cap) := by
  induction bits generalizing i with
  | nil => simp at h; omega
  | cons b bits ih =>
    simp only [List.length_cons] at h
    rw [repeatSym]
    by_cases hc : i = cap
    · subst hc; rw [if_pos (le_refl _)]
    · rw [if_neg (by omega), ih (i + 1) (by omega) (by omega)]

/-! ### What the automaton emits fits SYMBUF (43_decoder.md R180) -/

theorem walkBits_len {node : Nat → Node} {root cap i n start k : Nat} {l : List Bool}
    {b : List Sym} (hk : k ≤ cap) (h : walkBits node root cap i n start k l = .ok b) : k + b.length ≤ cap := by
  induction l generalizing i n start k b with
  | nil =>
    simp only [walkBits] at h
    split at h
    · cases h
    · injection h with h; subst h; simpa
  | cons _ l ih =>
    simp only [walkBits] at h
    split at h
    · split at h
      · cases h
      · split at h
        · cases h
        · rename_i y hy
          injection h with h; subst h
          have := ih (by omega) hy
          simp; omega
    · exact ih hk h

theorem repeatSym_len {s : Sym} {cap i : Nat} {l : List Bool} {b : List Sym} (hk : i ≤ cap)
    (h : repeatSym s cap i l = .ok b) : i + b.length ≤ cap := by
  induction l generalizing i b with
  | nil => simp [repeatSym] at h; subst h; simpa
  | cons _ l ih =>
    simp only [repeatSym] at h
    split at h
    · cases h
    · split at h
      · cases h
      · rename_i y hy
        injection h with h; subst h
        have := ih (by omega) hy
        simp; omega

theorem decodedSymbols_len {node : Nat → Node} {root cap : Nat} {l : List Bool} {b : List Sym}
    (h : decodedSymbols node root cap l = .ok b) : b.length ≤ cap := by
  unfold decodedSymbols at h
  split at h
  · simpa using repeatSym_len (Nat.zero_le _) h
  · simpa using walkBits_len (Nat.zero_le _) h

end Sys2Proof.Machine
end

