-- ==== Sys2Proof/Laws/Weights.lean ====
section
/-! SUPPORT. The weights BUILD reads (40_tree_builder.md R121): the nonzero entries of WTAB and their running
sum. -/

namespace Sys2Proof.Machine

variable (s : State)

theorem weighted_eq (n : Nat) : s.weighted n =
    ((List.range n).filter fun i => decide (s.wtabAt i ≠ 0)).map fun i => (i, s.wtabAt i) := by
  unfold State.weighted
  induction List.range n with
  | nil => rfl
  | cons i is ih =>
    simp only [List.filterMap_cons, ih]
    by_cases h : s.wtabAt i = 0
    · simp only [h, ne_eq, not_true_eq_false, if_false, decide_false, List.filter_cons, Bool.false_eq_true]
    · simp only [h, ne_eq, not_false_eq_true, if_true, decide_true, List.filter_cons, List.map_cons]

theorem mem_weighted {n : Nat} {p : Nat × Weight} :
    p ∈ s.weighted n ↔ p.1 < n ∧ p.2 = s.wtabAt p.1 ∧ p.2 ≠ 0 := by
  obtain ⟨i, w⟩ := p
  rw [weighted_eq]
  simp only [List.mem_map, List.mem_filter, List.mem_range, decide_eq_true_eq, Prod.mk.injEq]
  constructor
  · rintro ⟨j, ⟨h1, h2⟩, rfl, rfl⟩; exact ⟨h1, rfl, h2⟩
  · rintro ⟨h1, rfl, h2⟩; exact ⟨i, ⟨h1, h2⟩, rfl, rfl⟩

theorem weighted_fst (n : Nat) :
    (s.weighted n).map Prod.fst = (List.range n).filter fun i => decide (s.wtabAt i ≠ 0) := by
  rw [weighted_eq, List.map_map]; exact List.map_id _

theorem weighted_length_le (n : Nat) : (s.weighted n).length ≤ n := by
  have := congrArg List.length (weighted_fst s n)
  rw [List.length_map] at this
  rw [this]
  simpa using List.length_filter_le (fun i => decide (s.wtabAt i ≠ 0)) (List.range n)

/-- The zero weights add nothing to the sum. -/
theorem weighted_sum (n : Nat) : ((s.weighted n).map fun p => p.2.toNat).sum =
    ((List.range n).map fun i => (s.wtabAt i).toNat).sum := by
  rw [weighted_eq, List.map_map]
  induction List.range n with
  | nil => rfl
  | cons i is ih =>
    by_cases h : s.wtabAt i = 0
    · simp only [List.filter_cons, h, ne_eq, not_true_eq_false, decide_false, Bool.false_eq_true, if_false,
        List.map_cons, List.sum_cons]
      rw [← ih]
      simp
    · simp only [List.filter_cons, h, ne_eq, not_false_eq_true, decide_true, if_true, List.map_cons,
        List.sum_cons]
      rw [← ih]
      rfl

/-- The symbols of the seed are distinct (10_state.md R42 clause 2). -/
theorem weighted_syms_nodup {n : Nat} (h : n ≤ 65536) :
    ((s.weighted n).map fun p => BitVec.ofNat 16 p.1).Nodup := by
  have h1 : ((s.weighted n).map fun p => BitVec.ofNat 16 p.1) =
      ((s.weighted n).map Prod.fst).map (BitVec.ofNat 16) := by simp
  rw [h1, weighted_fst]
  refine (List.nodup_range.filter _).map_on fun i hi j hj he => ?_
  simp only [List.mem_filter, List.mem_range] at hi hj
  have := congrArg BitVec.toNat he
  simp only [BitVec.toNat_ofNat] at this
  omega

theorem weighted_append {i n : Nat} (h : i ≤ n) : ∃ rest, s.weighted n = s.weighted i ++ rest := by
  refine ⟨(List.range' i (n - i)).filterMap fun i => if s.wtabAt i ≠ 0 then some (i, s.wtabAt i) else none, ?_⟩
  unfold State.weighted
  rw [← List.filterMap_append]
  congr 1
  have hn : n = i + (n - i) := by omega
  conv_lhs => rw [List.range_eq_range', hn, ← List.range'_append_1]
  rw [List.range_eq_range', Nat.zero_add]

theorem overflowAt_none_iff {ws : List (Nat × Weight)} {t : Nat} (ht : t ≤ 0xFFFFFFFF) :
    overflowAt t ws = none ↔ t + (ws.map fun p => p.2.toNat).sum ≤ 0xFFFFFFFF := by
  induction ws generalizing t with
  | nil => simpa [overflowAt] using ht
  | cons p ws ih =>
    obtain ⟨i, w⟩ := p
    simp only [overflowAt, List.map_cons, List.sum_cons]
    split
    · simp; omega
    · rw [ih (by omega)]; omega

/-- The weight with which the running sum first leaves 32 bits (40_tree_builder.md R121). -/
theorem overflowAt_append {ws : List (Nat × Weight)} {t i : Nat} {w : Weight} {rest : List (Nat × Weight)}
    (h1 : t + (ws.map fun p => p.2.toNat).sum ≤ 0xFFFFFFFF)
    (h2 : 0xFFFFFFFF < t + (ws.map fun p => p.2.toNat).sum + w.toNat) :
    overflowAt t (ws ++ (i, w) :: rest) = some i := by
  induction ws generalizing t with
  | nil => simp only [List.map_nil, List.sum_nil] at h1 h2; simp [overflowAt]; omega
  | cons p ws ih =>
    obtain ⟨j, v⟩ := p
    simp only [List.map_cons, List.sum_cons] at h1 h2
    have : ¬ t + v.toNat > 0xFFFFFFFF := by omega
    simp only [List.cons_append, overflowAt, this, if_false]
    exact ih (by omega) (by omega)

theorem overflowAt_weighted {i n : Nat} (hi : i < n)
    (h1 : ((List.range i).map fun j => (s.wtabAt j).toNat).sum ≤ 0xFFFFFFFF)
    (h2 : 0xFFFFFFFF < ((List.range (i + 1)).map fun j => (s.wtabAt j).toNat).sum) :
    overflowAt 0 (s.weighted n) = some i := by
  rw [List.range_succ, List.map_append, List.sum_append] at h2
  simp only [List.map_cons, List.map_nil, List.sum_cons, List.sum_nil] at h2
  have hw : s.wtabAt i ≠ 0 := by intro h; rw [h] at h2; simp at h2; omega
  have hs : s.weighted (i + 1) = s.weighted i ++ [(i, s.wtabAt i)] := by
    unfold State.weighted
    rw [List.range_succ, List.filterMap_append]
    simp only [List.filterMap_cons, List.filterMap_nil, hw, ne_eq, not_false_eq_true, if_true]
  obtain ⟨rest, hr⟩ := weighted_append s (show i + 1 ≤ n by omega)
  rw [hr, hs, List.append_assoc, List.singleton_append]
  apply overflowAt_append <;> rw [weighted_sum] <;> omega

/-- BUILD's input depends on the entries below WTAB_LEN only (40_tree_builder.md R125). -/
theorem weighted_congr {s s' : State} {n : Nat} (h : ∀ i, i < n → s'.wtabAt i = s.wtabAt i) :
    s'.weighted n = s.weighted n := by
  unfold State.weighted
  refine List.filterMap_congr fun i hi => ?_
  rw [h i (List.mem_range.mp hi)]

end Sys2Proof.Machine
end

