-- ==== Sys2Proof/Tests/Slice0.lean ====
section
/-! SUPPORT. The model's own tests: the WellFormed smoke test, command words written out from 30_encoding.md
R90 and R92, single steps against the vectors of 95_test_vectors.md, and for every statement of
Certificates/Slice0/Obligations.lean a state and operands that meet its hypotheses together. -/

namespace Sys2Proof.Tests

open Sys2Proof Sys2Proof.Machine Sys2Proof.Claims

/-- The outcome is a next state with this property. -/
def nextIs (o : Host.Outcome State Fault Refusal) (p : State → Bool) : Bool :=
  match o with
  | .next t => p t
  | .fault _ => false
  | .refused _ => false

theorem exists_of_nextIs {o : Host.Outcome State Fault Refusal} {p : State → Bool}
    (h : nextIs o p = true) : ∃ t, o = .next t ∧ p t = true := by
  cases o with
  | next t => exact ⟨t, rfl, h⟩
  | fault f => cases h
  | refused r => cases h

/-- The access was accepted and gave a value with this property. -/
def okIs {α : Type} (o : Except Fault α) (p : α → Bool) : Bool :=
  match o with
  | .ok t => p t
  | .error _ => false

theorem exists_of_okIs {α : Type} {o : Except Fault α} {p : α → Bool} (h : okIs o p = true) :
    ∃ t, o = .ok t ∧ p t = true := by
  cases o with
  | ok t => exact ⟨t, rfl, h⟩
  | error f => cases h

/-! ### Small parameters and states -/

/-- NSYM = 4, SYMBUF_MAX = 4, BITBUF_BITS = 32, ART_MAX = 8, TREE_MAX = 44. -/
def c4 : Config := { base := 0, nsym := 4, symbufMax := 4, bitbufBits := 32, artMax := 8, treeMax := 44 }

/-- NSYM = 1: the parameters of vector S-24. -/
def c1 : Config := { c4 with nsym := 1, treeMax := 20 }

/-- NSYM = 66: the parameters of the caterpillar of vector S-13. -/
def c66 : Config :=
  { base := 0, nsym := 66, symbufMax := 4, bitbufBits := 32, artMax := 8, treeMax := 788 }

/-- Power-on at the small parameters. -/
def s4 : State := State.powerOn c4 0

/-- WTAB = `ws`, WTAB_LEN its length. -/
def withWeights (s : State) (ws : List Weight) : State :=
  { s with mem := { s.mem with wtab := Ram.ofList 0 ws }, wtabLen := BitVec.ofNat 32 ws.length }

/-- SYMBUF = `xs`, SYM_COUNT its length. -/
def withSyms (s : State) (xs : List Sym) : State :=
  { s with mem := { s.mem with symbuf := Ram.ofList 0 xs }, symCount := BitVec.ofNat 32 xs.length }

/-- BITBUF = `bs`, BIT_LEN its length. -/
def withBits (s : State) (bs : List Bool) : State :=
  { s with mem := { s.mem with bitbuf := Ram.ofList 0 bs }, bitLen := BitVec.ofNat 32 bs.length }

/-- ARTBUF = `bs`, ART_LEN its length. -/
def withArt (s : State) (bs : List Byte) : State :=
  { s with mem := { s.mem with artbuf := Ram.ofList 0 bs }, artLen := BitVec.ofNat 32 bs.length }

/-- TREEBUF = `bs`, TREE_LEN its length. -/
def withTree (s : State) (bs : List Byte) : State :=
  { s with mem := { s.mem with treebuf := Ram.ofList 0 bs }, treeLen := BitVec.ofNat 32 bs.length }

/-- The arena of scenario A (95_test_vectors.md 1.1), TREE_VALID = 1. -/
def sTree : State :=
  { s4 with
    mem := { s4.mem with
      node := Ram.ofList 0
        [.leaf 3 0, .leaf 2 1, .leaf 1 2, .internal 3 2 1 2, .internal 6 0 3 0] }
    nodeCount := 5, root := 4, leafCount := 3, treeValid := true }

/-- The right subtree of scenario A. -/
def treeAr : CodeTree := .node 3 (.leaf 1 2) (.leaf 2 1)
/-- The tree of scenario A. -/
def treeA : CodeTree := .node 6 (.leaf 3 0) treeAr

/-- Scenario A after GEN_CODES (vector G-1). -/
def sCodes : State :=
  { sTree with
    mem := { sTree.mem with ctab := Ram.ofList 0 [⟨1, 0⟩, ⟨2, 3⟩, ⟨2, 2⟩, ⟨0, 0⟩] }
    maxLen := 2, codesValid := true }

/-- Scenario B (95_test_vectors.md 1.2): the one-leaf tree. -/
def sLone : State :=
  { s4 with
    mem := { s4.mem with node := Ram.ofList 0 [.leaf 1 0] }
    nodeCount := 1, root := 0, leafCount := 1, treeValid := true }

/-- The caterpillar of `n` leaves, its symbols from `j` on: a left leaf at every level. -/
def caterpillar : Nat → Nat → CodeTree
  | 0, j => .leaf 1 (BitVec.ofNat 16 j)
  | n + 1, j => .node (BitVec.ofNat 32 (n + 2)) (.leaf 1 (BitVec.ofNat 16 j)) (caterpillar n (j + 1))

/-- Its arena in pre-order from index `i` on (vectors S-12, S-13). -/
def caterpillarNodes : Nat → Nat → Nat → List Node
  | 0, j, _ => [.leaf 1 (BitVec.ofNat 16 j)]
  | n + 1, j, i =>
    .internal (BitVec.ofNat 32 (n + 2)) (BitVec.ofNat 17 (i + 1)) (BitVec.ofNat 17 (i + 2))
      (BitVec.ofNat 16 j) :: .leaf 1 (BitVec.ofNat 16 j) :: caterpillarNodes n (j + 1) (i + 2)

/-- The tree of vector S-13, 66 leaves. -/
def sDeep : State :=
  { State.powerOn c66 0 with
    mem := { (State.powerOn c66 0).mem with node := Ram.ofList 0 (caterpillarNodes 65 0 0) }
    nodeCount := 131, root := 0, leafCount := 66, treeValid := true }

/-- The 31 bytes of scenario A's tree (vector S-1). -/
def bytesA : List Byte :=
  [0x01, 0, 0, 0, 6, 0x00, 0, 0, 0, 3, 0, 0] ++ [0x01, 0, 0, 0, 3, 0x00, 0, 0, 0, 1, 0, 2] ++
    [0x00, 0, 0, 0, 2, 0, 1]

/-- The bits of scenario A's text (vector E-1), and their first four (vector D-8). -/
def bitsA : List Bool := [false, false, false, true, true, true, true, true, false]

/-! ### WellFormed refuses ill-formed terms -/

theorem test_default_legal : Config.default.legal = true := by decide
theorem test_small_legal : c4.legal = true ∧ c66.legal = true := by decide
theorem test_base_refused : ({ c4 with base := 4 } : Config).legal = false := by decide
theorem test_nsym_refused :
    ({ c4 with nsym := 0 } : Config).legal = false ∧
      ({ c4 with nsym := 65537, treeMax := 1000000 } : Config).legal = false := by decide
theorem test_symbuf_refused : ({ c4 with symbufMax := 5 } : Config).legal = false := by decide
theorem test_bitbuf_refused : ({ c4 with bitbufBits := 16 } : Config).legal = false := by decide
theorem test_art_refused :
    ({ c4 with artMax := 4 } : Config).legal = false ∧ ({ c4 with artMax := 10 } : Config).legal = false := by
  decide
theorem test_tree_refused :
    ({ c4 with treeMax := 40 } : Config).legal = false ∧
      ({ c4 with treeMax := 45 } : Config).legal = false := by decide
theorem test_host_line_refused :
    (HostLine.rd 0x000 1).wf = false ∧ (HostLine.rd 0x002 4).wf = false ∧
      (HostLine.wr 0x2000000 4 0).wf = false := by decide
theorem test_source_refused :
    srcWf [.busyLoop 1] = false ∧ srcWf [.label 1, .label 1] = false ∧
      srcWf [.label 1, .busyLoop 1] = true := by decide

/-! ### Words written out from 30_encoding.md R90 and R92 -/

theorem test_decode_nop : decode (0x000000#24 ++ 0x00#8) = .ok .nop := by decide
theorem test_decode_build : decode (0x000000#24 ++ 0x01#8) = .ok .build := by decide
theorem test_decode_genCodes : decode (0x000000#24 ++ 0x02#8) = .ok .genCodes := by decide
theorem test_decode_encode : decode (0x000000#24 ++ 0x03#8) = .ok .encode := by decide
theorem test_decode_pack : decode (0x000000#24 ++ 0x04#8) = .ok .pack := by decide
theorem test_decode_unpack : decode (0x000000#24 ++ 0x05#8) = .ok .unpack := by decide
theorem test_decode_decode : decode (0x000000#24 ++ 0x06#8) = .ok .decode := by decide
theorem test_decode_serialize : decode (0x000000#24 ++ 0x07#8) = .ok .serialize := by decide
theorem test_decode_deserialize : decode (0x000000#24 ++ 0x08#8) = .ok .deserialize := by decide
/-- Vectors N-2 to N-6: the first and last reserved OP, and reserved bits before OP. -/
theorem test_decode_refuses :
    decode 0x00000009 = .error .reservedOp ∧ decode 0x000000FF = .error .reservedOp ∧
    decode 0x00000100 = .error .reservedBits ∧ decode 0x00000106 = .error .reservedBits ∧
    decode 0x80000001 = .error .reservedBits := by decide

/-! ### Single steps against 95_test_vectors.md -/

/-- Vector N-1: NOP from reset. -/
theorem test_nop : nextIs (step (State.reset.withFetchWord 32 0x0)) (fun t =>
    t.statusWord == 0x02 && t.errCodeWord == 0) = true := by decide

/-- Vector N-5: an illegal word comes before every other error. -/
theorem test_illegal : nextIs (step ({ State.reset with bitLen := 0xFFFFFFFF }.withFetchWord 32 0x106))
    (fun t => t.errCodeWord == 0x01 && t.errInfo == 0x106 && t.statusWord == 0x06) = true := by decide

/-- Vector B-1 (1.1): the arena, its descriptor and STATUS. -/
theorem test_build : nextIs (exec .build (withWeights s4 [3, 2, 1])) (fun t =>
    (List.range 5).map t.nodeAt ==
      [.leaf 3 0, .leaf 2 1, .leaf 1 2, .internal 3 2 1 2, .internal 6 0 3 0] &&
    t.root == 4 && t.nodeCount == 5 && t.leafCount == 3 && t.statusWord == 0x0A) = true := by decide

/-- Vectors B-8 and B-11: the largest sum that fits, and the symbol at which a sum first does not. -/
theorem test_build_sum : nextIs (exec .build (withWeights s4 [0xFFFFFFFE, 1])) (fun t =>
    t.nodeAt 2 == .internal 0xFFFFFFFF 1 0 1 && t.root == 2) = true ∧
    nextIs (exec .build (withWeights s4 [0x80000000, 0x7FFFFFFF, 1])) (fun t =>
      t.errCodeWord == 0x04 && t.errInfo == 2) = true := by decide

/-- Vector G-1. -/
theorem test_genCodes : nextIs (exec .genCodes sTree) (fun t =>
    (List.range 4).map t.ctabAt == [⟨1, 0⟩, ⟨2, 3⟩, ⟨2, 2⟩, ⟨0, 0⟩] && t.maxLen == 2 &&
    t.statusWord == 0x1A) = true := by decide

/-- Vector G-11: symbol 64 is the first leaf deeper than 64. -/
theorem test_genCodes_deep : nextIs (exec .genCodes sDeep) (fun t =>
    t.errCodeWord == 0x08 && t.errInfo == 64 && t.maxLen == 0 && t.statusWord == 0x0E) = true := by
  decide +kernel

/-- Vector E-3's shape on scenario A's codes: [1, 2, 0] gives "11" "10" "0". -/
theorem test_encode : nextIs (exec .encode (withSyms sCodes [1, 2, 0])) (fun t =>
    t.bitLen == 5 && t.bitstring 5 == [true, true, true, false, false]) = true := by decide

/-- Vector E-8: the symbol without a code, by its entry; BIT_LEN becomes 0. -/
theorem test_encode_unknown : nextIs (exec .encode (withSyms sCodes [0, 3])) (fun t =>
    t.errCodeWord == 0x07 && t.errInfo == 1 && t.bitLen == 0) = true := by decide

/-- Vector P-6. -/
theorem test_pack : nextIs (exec .pack (withBits s4 bitsA)) (fun t =>
    t.artLen == 3 && t.artBytes 3 == [0x07, 0x1F, 0x00]) = true := by decide

/-- Vector P-5: a whole number of bytes gets a padding byte. -/
theorem test_pack_whole : nextIs (exec .pack (withBits s4
    [true, false, true, false, false, true, false, true])) (fun t =>
    t.artLen == 3 && t.artBytes 3 == [0x08, 0xA5, 0x00]) = true := by decide

/-- Vector U-1. -/
theorem test_unpack : nextIs (exec .unpack (withArt s4 [0x07, 0x1F, 0x00])) (fun t =>
    t.bitLen == 9 && t.bitstring 9 == bitsA) = true := by decide

/-- Vectors U-9, U-11, U-13 and U-14: the order of the artifact checks. -/
theorem test_unpack_errors :
    nextIs (exec .unpack (withArt s4 [])) (fun t => t.errCodeWord == 0x0A && t.errInfo == 0) = true ∧
    nextIs (exec .unpack (withArt s4 [0x01])) (fun t => t.errInfo == 2) = true ∧
    nextIs (exec .unpack (withArt s4 [0x09, 0x00])) (fun t => t.errInfo == 1) = true ∧
    nextIs (exec .unpack (withArt s4 [0x00])) (fun t => t.errInfo == 1) = true := by decide

/-- Vector D-8. -/
theorem test_decode : nextIs (exec .decode (withBits sTree [false, false, true, true])) (fun t =>
    t.symCount == 3 && t.symbols 3 == [0, 0, 1]) = true := by decide

/-- Vector D-3: the code begun at bit 1 is unfinished. -/
theorem test_decode_mismatch : nextIs (exec .decode (withBits sTree [false, true])) (fun t =>
    t.errCodeWord == 0x0B && t.errInfo == 1 && t.symCount == 0) = true := by decide

/-- Vector S-1. -/
theorem test_serialize : nextIs (exec .serialize sTree) (fun t =>
    t.treeLen == 31 && (List.range 31).map t.treeByte == bytesA) = true := by decide

/-- Vector S-9 (1.1). -/
theorem test_deserialize : nextIs (exec .deserialize (withTree s4 bytesA)) (fun t =>
    (List.range 5).map t.nodeAt ==
      [.internal 6 1 2 0, .leaf 3 0, .internal 3 3 4 2, .leaf 1 2, .leaf 2 1] &&
    t.root == 0 && t.nodeCount == 5 && t.leafCount == 3 && t.statusWord == 0x0A) = true := by decide

/-- Vectors S-19 and S-20: a symbol twice, and a weight that is no sum. -/
theorem test_deserialize_errors :
    nextIs (exec .deserialize (withTree s4
      ([0x01, 0, 0, 0, 2, 0x00, 0, 0, 0, 1, 0, 0] ++ [0x00, 0, 0, 0, 1, 0, 0])))
      (fun t => t.errCodeWord == 0x0C && t.errInfo == 12) = true ∧
    nextIs (exec .deserialize (withTree s4
      ([0x01, 0, 0, 0, 3, 0x00, 0, 0, 0, 1, 0, 0] ++ [0x00, 0, 0, 0, 1, 0, 1])))
      (fun t => t.errCodeWord == 0x0C && t.errInfo == 0) = true := by decide

/-! ### The statements' hypotheses can be met: one theorem for each statement that has hypotheses -/

theorem holds_treeA : holdsTree sTree.nodeAt treeA 4 [4, 0, 3, 2, 1] :=
  holdsTree_node (l := 0) (r := 3) (ia := [0]) (ib := [3, 2, 1]) (by decide) (holdsTree_leaf (by decide))
    (holdsTree_node (l := 2) (r := 1) (ia := [2]) (ib := [1]) (by decide) (holdsTree_leaf (by decide))
      (holdsTree_leaf (by decide)) (by decide)) (by decide)

theorem syms_treeA : ∀ x ∈ treeA.syms, x.toNat < 4 := by
  simp [treeA, treeAr, CodeTree.syms]

theorem arenaOk_sTree : arenaOk sTree := by
  refine ⟨treeA, [4, 0, 3, 2, 1], holds_treeA, by decide, by decide, by decide, syms_treeA, ?_, by decide,
    by decide⟩
  simp [CodeTree.leavesPositive, treeA, treeAr]

theorem arenaOk_sLone : arenaOk sLone := by
  refine ⟨.leaf 1 0, [0], holdsTree_leaf (by decide), by decide, by decide, by decide, ?_, ?_,
    by decide, by decide⟩
  · simp [CodeTree.syms, sLone, s4, State.powerOn, c4]
  · simp [CodeTree.leavesPositive]

theorem inv_sTree : sTree.Inv where
  legal := by decide
  memWf := by decide
  issued := by intro w n h; cases h
  errCoded := by decide
  codesNeedTree := by decide
  tree := fun _ => arenaOk_sTree
  noTree := by decide
  codes := by intro h; cases h

theorem inv_sCodes : sCodes.Inv where
  legal := by decide
  memWf := by decide
  issued := by intro w n h; cases h
  errCoded := by decide
  codesNeedTree := by decide
  tree := fun _ => arenaOk_sTree
  noTree := by decide
  codes := fun _ => ⟨treeA, [(0, ⟨1, 0⟩), (2, ⟨2, 2⟩), (1, ⟨2, 3⟩)], by decide, by rfl, by decide, by decide⟩

/-- The issue of a word keeps the invariant. -/
theorem inv_issueWith {s : State} (h : s.Inv) (w : Word) (n : Nat) : (s.issueWith w n).Inv where
  legal := h.legal
  memWf := h.memWf
  issued := by intro w' n' h'; injection h' with h1 h2; exact ⟨h1, rfl, rfl, rfl, rfl⟩
  errCoded := by intro h'; cases h'
  codesNeedTree := h.codesNeedTree
  tree := h.tree
  noTree := h.noTree
  codes := h.codes

theorem inv_symbols {s : State} (h : s.Inv) (xs : List Sym) (hx : xs.length ≤ s.cfg.symbufMax) :
    (withSyms s xs).Inv where
  legal := h.legal
  memWf := by
    have := h.memWf
    rw [memory_wf_iff] at this ⊢
    exact ⟨this.1, this.2.1, this.2.2.1, ofList_wf hx, this.2.2.2.2⟩
  issued := h.issued
  errCoded := h.errCoded
  codesNeedTree := h.codesNeedTree
  tree := h.tree
  noTree := h.noTree
  codes := h.codes

theorem test_CommandWordsDecode_hyps : 0x09 ≤ 0x09 ∧ 0x09 ≤ 0xFF ∧ 0x09 ≤ 0xFF ∧ 0xFF ≤ 0xFF := by decide

/-- Each of the four clauses. -/
theorem test_StepRunsTheIssuedCommand_hyps :
    (s4.issueWith 0x1 0).phase = .running 0x1 0 ∧ decode 0x1 = .ok .build ∧
    (s4.issueWith 0x1 3).phase = .running 0x1 (2 + 1) ∧ s4.phase = .idle := by decide

/-- A reserved bit, and the first and last reserved OP. -/
theorem test_IllegalWordsComplete_hyps :
    (s4.issueWith 0x100 0).phase = .running 0x100 0 ∧ (0x100 : Word).extractLsb' 8 24 ≠ 0 ∧
    (s4.issueWith 0x09 0).phase = .running 0x09 0 ∧ 0x09 ≤ ((0x09 : Word).extractLsb' 0 8).toNat ∧
    (s4.issueWith 0xFF 0).phase = .running 0xFF 0 ∧ 0x09 ≤ ((0xFF : Word).extractLsb' 0 8).toNat := by
  decide

theorem test_IssueStoresTheCommand_hyps :
    s4.busy = false ∧ (s4.issueWith 0x1 0).busy = true := by decide

theorem test_CompletionRecordsTheResult_hyps :
    ∃ t, exec .build (withWeights s4 [3, 2, 1]) = .next t ∧ decide (t.errCode = .ok) = true :=
  exists_of_nextIs (by decide)

theorem test_ResultCodesOfEachCommand_hyps :
    ∃ t, exec .encode (withSyms sCodes [0, 3]) = .next t ∧ decide (t.errCode = .unknownSymbol) = true :=
  exists_of_nextIs (by decide)

theorem test_PreCheckErrorsChangeNothing_hyps :
    ∃ t, exec .unpack s4 = .next t ∧ decide (t.errCode ∈ preCheckCodes .unpack) = true :=
  exists_of_nextIs (by decide)

theorem test_PreCheckErrorsChangeNothing_illegal_hyps :
    (s4.issueWith 0x109 0).phase = .running 0x109 0 ∧ decode 0x109 = .error .reservedBits := by decide

theorem test_InFlightErrors_genCodes_hyps :
    ∃ t, exec .genCodes sDeep = .next t ∧ decide (t.errCode ∈ inFlightCodes .genCodes) = true :=
  exists_of_nextIs (by decide +kernel)

theorem test_InFlightErrors_encode_hyps :
    ∃ t, exec .encode (withSyms sCodes [0, 3]) = .next t ∧
      decide (t.errCode ∈ inFlightCodes .encode) = true :=
  exists_of_nextIs (by decide)

theorem test_InFlightErrors_decode_hyps :
    ∃ t, exec .decode (withBits sTree [true]) = .next t ∧
      decide (t.errCode ∈ inFlightCodes .decode) = true :=
  exists_of_nextIs (by decide)

theorem test_InFlightErrors_deserialize_hyps :
    ∃ t, exec .deserialize s4 = .next t ∧ decide (t.errCode ∈ inFlightCodes .deserialize) = true :=
  exists_of_nextIs (by decide)

/-- Each of the seven clauses; every state has the legal parameters `c4`. -/
theorem test_EntriesBeyondTheNewLengthAreAny_hyps :
    c4.legal = true ∧
    nextIs (exec .encode (withSyms sCodes [1, 2, 0])) (fun t => decide (t.errCode = .ok)) = true ∧
    nextIs (exec .unpack (withArt s4 [0x07, 0x1F, 0x00])) (fun t => decide (t.errCode = .ok)) = true ∧
    nextIs (exec .pack (withBits s4 bitsA)) (fun t => decide (t.errCode = .ok)) = true ∧
    nextIs (exec .decode (withBits sTree [false])) (fun t => decide (t.errCode = .ok)) = true ∧
    nextIs (exec .serialize sTree) (fun t => decide (t.errCode = .ok)) = true ∧
    nextIs (exec .build (withWeights s4 [3, 2, 1])) (fun t => decide (t.errCode = .ok)) = true ∧
    nextIs (exec .deserialize (withTree s4 bytesA)) (fun t => decide (t.errCode = .ok)) = true := by decide

theorem test_FailedCommandFailsAgain_hyps :
    ∃ t, exec .decode (withBits sTree [true]) = .next t ∧ decide (t.errCode ≠ .ok) = true :=
  exists_of_nextIs (by decide)

/-- Each of the four clauses, the lengths one above their bounds. -/
theorem test_PrerequisitesAndLengthsComeFirst_hyps :
    s4.treeValid = false ∧ s4.codesValid = false ∧
    ({ sCodes with symCount := 5 } : State).codesValid = true ∧
    ({ sCodes with symCount := 5 } : State).cfg.symbufMax < (5 : Word).toNat ∧
    ({ sTree with bitLen := 33 } : State).treeValid = true ∧
    ({ sTree with bitLen := 33 } : State).cfg.bitbufBits < (33 : Word).toNat := by decide

theorem buildable_iff (s : State) : buildable s ↔
    (decide (s.wtabLen.toNat ≤ s.cfg.nsym) && decide (weightedSyms s s.wtabLen.toNat ≠ []) &&
      decide (weightSum s s.wtabLen.toNat ≤ 0xFFFFFFFF)) = true := by
  simp [buildable, and_assoc]

theorem test_BuildCompletes_hyps :
    (withWeights s4 [3, 2, 1]).cfg.legal = true ∧ buildable (withWeights s4 [3, 2, 1]) :=
  ⟨by decide, (buildable_iff _).mpr (by decide)⟩

/-- The sum is exactly 0xFFFFFFFF, and there is one internal node. -/
theorem test_BuildMergesTheTwoLeast_hyps :
    (withWeights s4 [0xFFFFFFFE, 1]).cfg.legal = true ∧ buildable (withWeights s4 [0xFFFFFFFE, 1]) ∧
    (weightedSyms (withWeights s4 [0xFFFFFFFE, 1]) 2).length ≤ 2 ∧
    2 < 2 * (weightedSyms (withWeights s4 [0xFFFFFFFE, 1]) 2).length - 1 :=
  ⟨by decide, (buildable_iff _).mpr (by decide), by decide, by decide⟩

theorem test_BuildGivesTheArenaInvariant_hyps :
    (withWeights s4 [3, 2, 1]).cfg.legal = true ∧
    ∃ t, exec .build (withWeights s4 [3, 2, 1]) = .next t ∧ decide (t.errCode = .ok) = true :=
  ⟨by decide, exists_of_nextIs (by decide)⟩

/-- Two states that differ beyond WTAB_LEN and in another register. -/
theorem test_BuildReadsOnlyItsWeights_hyps :
    let s := withWeights s4 [3, 2, 1]
    let s' : State :=
      { s with mem := { s.mem with wtab := Ram.ofList 0 [3, 2, 1, 9] }, symCount := 7 }
    s.cfg.legal = true ∧ s'.cfg = s.cfg ∧ s'.wtabLen = s.wtabLen ∧
    (∀ i, i < s.wtabLen.toNat → s'.wtabAt i = s.wtabAt i) ∧ s' ≠ s ∧
    nextIs (exec .build s) (fun t => decide (t.errCode = .ok)) = true := by decide

/-- Each of the three clauses, WTAB_LEN one above its bound. -/
theorem test_BuildPreCheckErrors_hyps :
    (withWeights s4 [1, 1, 1, 1, 1]).cfg.nsym < (withWeights s4 [1, 1, 1, 1, 1]).wtabLen.toNat ∧
    weightSum (withWeights s4 [0xFFFFFFFF, 1]) 1 ≤ 0xFFFFFFFF ∧
    0xFFFFFFFF < weightSum (withWeights s4 [0xFFFFFFFF, 1]) (1 + 1) ∧
    (withWeights s4 [0xFFFFFFFF, 1]).wtabLen.toNat = 2 ∧
    weightedSyms (withWeights s4 [0, 0, 0, 0]) 4 = [] ∧ weightedSyms s4 0 = [] ∧
    (withWeights s4 [0, 0, 0, 0]).wtabLen.toNat ≤ (withWeights s4 [0, 0, 0, 0]).cfg.nsym := by decide

theorem test_LoneSymbolGivesTheDegenerateTree_hyps :
    (withWeights s4 [0, 0, 0, 0xFFFFFFFF]).cfg.legal = true ∧
    (withWeights s4 [0, 0, 0, 0xFFFFFFFF]).wtabLen.toNat ≤ (withWeights s4 [0, 0, 0, 0xFFFFFFFF]).cfg.nsym ∧
    weightedSyms (withWeights s4 [0, 0, 0, 0xFFFFFFFF]) 4 = [3] := by decide

theorem test_GenCodesWritesThePaths_hyps :
    sTree.cfg.legal = true ∧ sTree.treeValid = true ∧ arenaOk sTree ∧
    sTree.tree = some (.node 6 (.leaf 3 0) treeAr) ∧
    ∀ p ∈ (CodeTree.node 6 (.leaf 3 0) treeAr).paths, p.2.length ≤ 64 :=
  ⟨by decide, by decide, arenaOk_sTree, by decide, by decide⟩

/-- The longest code that GEN_CODES accepts: 65 leaves, the deepest at depth 64 (vector S-12). -/
theorem test_GenCodes_boundary :
    ∀ p ∈ (caterpillar 64 0).paths, p.2.length ≤ 64 := by decide +kernel

theorem test_DegenerateTreeGetsCodeZero_hyps :
    sLone.cfg.legal = true ∧ sLone.treeValid = true ∧ sLone.nodeAt sLone.root.toNat = .leaf 1 0 ∧
    (0 : Sym).toNat < sLone.cfg.nsym := by decide

theorem test_CodesArePrefixFree_hyps :
    sTree.cfg.legal = true ∧ arenaOk sTree ∧
    ∃ t, exec .genCodes sTree = .next t ∧
      decide (t.errCode = .ok ∧ (t.ctabAt 0).len ≠ 0 ∧ (t.ctabAt 2).len ≠ 0) = true :=
  ⟨by decide, arenaOk_sTree, exists_of_nextIs (by decide)⟩

theorem test_DeepTreeEndsWithCodeTooLong_hyps :
    sDeep.treeValid = true ∧ sDeep.tree = some (caterpillar 65 0) ∧
    (caterpillar 65 0).paths.find? (fun q => 64 < q.2.length) =
      some (64, List.replicate 64 true ++ [false]) := by decide +kernel

theorem test_EncodeConcatenatesTheCodes_hyps :
    let s := withSyms sCodes [1, 2, 0, 0]
    s.cfg.legal = true ∧ s.codesValid = true ∧ s.symCount.toNat ≤ s.cfg.symbufMax ∧
    (∀ e, e < s.symCount.toNat → (s.symAt e).toNat < s.cfg.nsym ∧ (s.ctabAt (s.symAt e).toNat).len ≠ 0) ∧
    codeLengthSum s s.symCount.toNat ≤ s.cfg.bitbufBits := by decide

/-- An entry without a code, and (with 3 bits of BITBUF) one whose code does not fit. -/
theorem test_EncodeReportsTheFirstBadEntry_hyps :
    let s := withSyms sCodes [0, 3]
    let s' := withSyms { sCodes with cfg := { c4 with bitbufBits := 3 } } [1, 2]
    s.codesValid = true ∧ s.symCount.toNat ≤ s.cfg.symbufMax ∧ 1 < s.symCount.toNat ∧
    (∀ e, e < 1 → (s.symAt e).toNat < s.cfg.nsym ∧ (s.ctabAt (s.symAt e).toNat).len ≠ 0) ∧
    codeLengthSum s 1 ≤ s.cfg.bitbufBits ∧
    ¬ ((s.symAt 1).toNat < s.cfg.nsym ∧ (s.ctabAt (s.symAt 1).toNat).len ≠ 0) ∧
    s'.codesValid = true ∧ s'.symCount.toNat ≤ s'.cfg.symbufMax ∧ 1 < s'.symCount.toNat ∧
    (∀ e, e < 1 → (s'.symAt e).toNat < s'.cfg.nsym ∧ (s'.ctabAt (s'.symAt e).toNat).len ≠ 0) ∧
    codeLengthSum s' 1 ≤ s'.cfg.bitbufBits ∧
    ((s'.symAt 1).toNat < s'.cfg.nsym ∧ (s'.ctabAt (s'.symAt 1).toNat).len ≠ 0) ∧
    s'.cfg.bitbufBits < codeLengthSum s' (1 + 1) := by decide

/-- BIT_LEN at its bounds, 0 and BITBUF_BITS. -/
theorem test_PackWritesTheArtifact_hyps :
    s4.cfg.legal = true ∧ s4.bitLen.toNat = 0 ∧
    ({ s4 with bitLen := 32 } : State).cfg.legal = true ∧
    ({ s4 with bitLen := 32 } : State).bitLen.toNat ≤ ({ s4 with bitLen := 32 } : State).cfg.bitbufBits := by
  decide

/-- Each of the seven clauses. PACK's OUT_OVERFLOW needs parameters that 00_scope.md R8 rules out. -/
theorem test_PackAndUnpackPreCheckErrors_hyps :
    c4.bitbufBits < (33 : Word).toNat ∧
    ((32 : Word).toNat ≤ ({ c4 with artMax := 4 } : Config).bitbufBits ∧
      ({ c4 with artMax := 4 } : Config).artMax < 2 + (32 : Word).toNat / 8) ∧
    c4.artMax < (9 : Word).toNat ∧ (withArt s4 []).artLen = 0 ∧
    (((withArt s4 [0x00]).artByte 0).toNat = 0 ∧ (withArt s4 [0x00]).artLen.toNat = 1) ∧
    (8 < ((withArt s4 [0x09]).artByte 0).toNat ∧ (withArt s4 [0x09]).artLen.toNat = 1) ∧
    (1 ≤ ((withArt s4 [0x08]).artByte 0).toNat ∧ ((withArt s4 [0x08]).artByte 0).toNat ≤ 8 ∧
      8 * ((withArt s4 [0x08]).artLen.toNat - 1) < ((withArt s4 [0x08]).artByte 0).toNat) ∧
    (let s := withArt s4 [0x01, 0, 0, 0, 0, 0, 0, 0]
     s.artLen.toNat ≤ s.cfg.artMax ∧ 1 ≤ (s.artByte 0).toNat ∧
      (s.artByte 0).toNat ≤ 8 * (s.artLen.toNat - 1) ∧
      s.cfg.bitbufBits < 8 * (s.artLen.toNat - 1) - (s.artByte 0).toNat) := by decide

/-- An artifact of no bits and one of nine. -/
theorem test_UnpackRecoversTheBits_hyps :
    (∀ s ∈ [withArt s4 [0x08, 0x00], withArt s4 [0x07, 0x1F, 0x00]],
      s.cfg.legal = true ∧ s.artLen.toNat ≤ s.cfg.artMax ∧ 1 ≤ (s.artByte 0).toNat ∧
      (s.artByte 0).toNat ≤ 8 ∧ (s.artByte 0).toNat ≤ 8 * (s.artLen.toNat - 1) ∧
      8 * (s.artLen.toNat - 1) - (s.artByte 0).toNat ≤ s.cfg.bitbufBits) := by decide

/-- The artifacts of vectors U-4 and U-5, which differ in the padding. -/
theorem test_UnpackIgnoresThePadding_hyps :
    let s := withArt s4 [0x07, 0x80]
    let s' := withArt s4 [0x07, 0xFF]
    s'.cfg = s.cfg ∧ s'.artLen = s.artLen ∧ s'.artByte 0 = s.artByte 0 ∧ s' ≠ s ∧
    (∀ i, i < 8 * (s.artLen.toNat - 1) - (s.artByte 0).toNat → artBit s' i = artBit s i) ∧
    nextIs (exec .unpack s) (fun t => t.bitLen == 1) = true := by decide

theorem test_PackThenUnpackRestoresTheBits_hyps :
    (withBits s4 bitsA).cfg.legal = true ∧
    (withBits s4 bitsA).bitLen.toNat ≤ (withBits s4 bitsA).cfg.bitbufBits := by decide

/-- The bits of vector D-8 as paths of the tree. -/
theorem test_DecodeFollowsThePaths_hyps :
    let s := withBits sTree [false, false, true, true]
    let xs : List (Sym × List Bool) := [(0, [false]), (0, [false]), (1, [true, true])]
    s.cfg.legal = true ∧ s.treeValid = true ∧ arenaOk s ∧ s.tree = some (.node 6 (.leaf 3 0) treeAr) ∧
    s.bitLen.toNat ≤ s.cfg.bitbufBits ∧ (∀ x ∈ xs, x ∈ (CodeTree.node 6 (.leaf 3 0) treeAr).paths) ∧
    s.bitstring s.bitLen.toNat = xs.flatMap Prod.snd ∧ xs.length ≤ s.cfg.symbufMax :=
  ⟨by decide, by decide, arenaOk_sTree, by decide, by decide, by decide, by decide, by decide⟩

/-- The bits of vector D-3. -/
theorem test_DecodeReportsAnUnfinishedCode_hyps :
    let s := withBits sTree [false, true]
    let xs : List (Sym × List Bool) := [(0, [false])]
    let q := [true]
    s.cfg.legal = true ∧ s.treeValid = true ∧ arenaOk s ∧ s.tree = some (.node 6 (.leaf 3 0) treeAr) ∧
    s.bitLen.toNat ≤ s.cfg.bitbufBits ∧ (∀ x ∈ xs, x ∈ (CodeTree.node 6 (.leaf 3 0) treeAr).paths) ∧
    (∃ p ∈ (CodeTree.node 6 (.leaf 3 0) treeAr).paths, q <+: p.2 ∧ q ≠ p.2) ∧ q ≠ [] ∧
    s.bitstring s.bitLen.toNat = xs.flatMap Prod.snd ++ q ∧ xs.length ≤ s.cfg.symbufMax :=
  ⟨by decide, by decide, arenaOk_sTree, by decide, by decide, by decide, by decide, by decide, by decide,
    by decide⟩

/-- Five symbols where four fit, on the tree of three leaves and on the one-leaf tree. -/
theorem test_DecodeReportsSymbolOverflow_hyps :
    let s := withBits sTree [false, false, false, false, true, true, false]
    let xs : List (Sym × List Bool) :=
      [(0, [false]), (0, [false]), (0, [false]), (0, [false]), (1, [true, true])]
    (s.cfg.legal = true ∧ s.treeValid = true ∧ arenaOk s ∧ s.tree = some (.node 6 (.leaf 3 0) treeAr) ∧
      s.bitLen.toNat ≤ s.cfg.bitbufBits ∧ (∀ x ∈ xs, x ∈ (CodeTree.node 6 (.leaf 3 0) treeAr).paths) ∧
      s.bitstring s.bitLen.toNat = xs.flatMap Prod.snd ++ [false] ∧ xs.length = s.cfg.symbufMax + 1) ∧
    (sLone.treeValid = true ∧ sLone.nodeAt sLone.root.toNat = .leaf 1 0 ∧
      (withBits sLone [true, true, true, true, true]).bitLen.toNat ≤ sLone.cfg.bitbufBits ∧
      sLone.cfg.symbufMax < (withBits sLone [true, true, true, true, true]).bitLen.toNat) :=
  ⟨⟨by decide, by decide, arenaOk_sTree, by decide, by decide, by decide, by decide, by decide⟩,
    by decide, by decide, by decide, by decide⟩

theorem test_DegenerateTreeDecodesEveryBit_hyps :
    let s := withBits sLone [true, false, true, true]
    s.treeValid = true ∧ s.nodeAt s.root.toNat = .leaf 1 0 ∧ s.bitLen.toNat ≤ s.cfg.bitbufBits ∧
    s.bitLen.toNat ≤ s.cfg.symbufMax := by decide

theorem test_EncodeThenDecodeRestoresTheSymbols_hyps :
    (withSyms sCodes [1, 2, 0]).Inv ∧
    ∃ t, exec .encode (withSyms sCodes [1, 2, 0]) = .next t ∧ decide (t.errCode = .ok) = true :=
  ⟨inv_symbols inv_sCodes _ (by decide), exists_of_nextIs (by decide)⟩

theorem test_SerializeWritesTheTree_hyps :
    sTree.cfg.legal = true ∧ sTree.treeValid = true ∧ arenaOk sTree ∧ sTree.tree = some treeA :=
  ⟨by decide, by decide, arenaOk_sTree, by decide⟩

theorem test_DeserializeRebuildsTheTree_hyps :
    let s := withTree s4 bytesA
    s.cfg.legal = true ∧ s.treeLen.toNat ≤ s.cfg.treeMax ∧ treeOk s.cfg.nsym treeA ∧
    treeBytes s = serTree treeA := by
  refine ⟨by decide, by decide, ⟨by decide, syms_treeA, ?_, ?_⟩, by decide⟩
  · simp [CodeTree.leavesPositive, treeA, treeAr]
  · simp [CodeTree.sumsExact, treeA, treeAr, CodeTree.weight]

theorem test_DeserializeAcceptsExactlySerializedTrees_hyps :
    (withTree s4 bytesA).cfg.legal = true ∧ (withTree s4 bytesA).treeLen.toNat ≤ s4.cfg.treeMax ∧
    ∃ u, exec .deserialize (withTree s4 bytesA) = .next u ∧ decide (u.errCode = .ok) = true :=
  ⟨by decide, by decide, exists_of_nextIs (by decide)⟩

/-- Each clause: vectors S-25, S-14, S-15, S-16, S-17, S-18 and S-21, and a short internal record. -/
theorem test_FirstRecordErrors_hyps :
    c4.legal = true ∧ c4.treeMax < (45 : Word).toNat ∧ (withTree s4 []).treeLen = 0 ∧
    (1 ≤ (withTree s4 [2]).treeLen.toNat ∧ 1 < ((withTree s4 [2]).treeByte 0).toNat) ∧
    (((withTree s4 [0, 0, 0, 0, 1, 0]).treeByte 0).toNat = 0 ∧
      (withTree s4 [0, 0, 0, 0, 1, 0]).treeLen.toNat < 7) ∧
    (((withTree s4 [1, 0, 0, 0]).treeByte 0).toNat = 1 ∧ (withTree s4 [1, 0, 0, 0]).treeLen.toNat < 5) ∧
    be32 (withTree s4 [0, 0, 0, 0, 0, 0, 0]).treeByte 1 = 0 ∧
    s4.cfg.nsym ≤ (be16 (withTree s4 [0, 0, 0, 0, 1, 0, 4]).treeByte 5).toNat ∧
    (let s := withTree s4 [0, 0, 0, 0, 1, 0, 3, 0]
     (s.treeByte 0).toNat = 0 ∧ be32 s.treeByte 1 ≠ 0 ∧ (be16 s.treeByte 5).toNat < s.cfg.nsym ∧
      7 < s.treeLen.toNat ∧ s.treeLen.toNat ≤ s.cfg.treeMax) := by decide

/-- The later records: vectors S-22, S-23, a short leaf and a short internal record in the right subtree,
S-19 and S-20, and bytes after a tree (S-21). -/
theorem test_FirstRecordErrors_later_hyps :
    let up : List (Weight × Option CodeTree) := [(2, some (.leaf 1 0))]
    let before := bytesBefore up
    c4.legal = true ∧ recordsBefore up ≤ c4.nodeMax ∧ before.length = 12 ∧
    treeBytes (withTree s4 [1, 0, 0, 0, 2, 0, 0, 0, 0, 1, 0, 0]) = before ++ [] ∧
    treeBytes (withTree s4 (before ++ [3, 0, 0, 0, 1, 0, 1])) = before ++ 3 :: [0, 0, 0, 1, 0, 1] ∧
    treeBytes (withTree s4 (before ++ [0, 0, 0, 0, 1, 0])) = before ++ 0x00 :: [0, 0, 0, 1, 0] ∧
    treeBytes (withTree s4 (before ++ [1, 0, 0, 0])) = before ++ 0x01 :: [0, 0, 0] ∧
    treeBytes (withTree s4 (before ++ [0, 0, 0, 0, 1, 0, 0])) = before ++ (leafRecord 1 0 ++ []) ∧
    0 ∈ (treesBefore up).flatMap CodeTree.syms ∧
    treeBytes (withTree s4 [1, 0, 0, 0, 3, 0, 0, 0, 0, 1, 0, 0, 0, 0, 0, 0, 1, 0, 1]) =
      bytesBefore [] ++ (internalRecord 3 ++ serTree (.leaf 1 0) ++ serTree (.leaf 1 1) ++ []) ∧
    recordsBefore [] + 1 + recordsOf [.leaf 1 0, .leaf 1 1] ≤ c4.nodeMax ∧ (3 : Weight).toNat ≠ 1 + 1 ∧
    treeBytes (withTree s4 [0, 0, 0, 0, 1, 0, 0, 0]) = serTree (.leaf 1 0) ++ [0] := by decide

/-- Nothing wrong before those records. -/
theorem test_FirstRecordErrors_before_hyps :
    subtreesOk 4 (treesBefore [(2, some (.leaf 1 0))]) ∧ subtreesOk 4 (treesBefore [] ++ [.leaf 1 0, .leaf 1 1]) ∧
    treeOk 4 (.leaf 1 0) ∧ subtreesOk 1 (treesBefore [(2, none)]) := by
  simp [subtreesOk, treeOk, treesBefore, CodeTree.syms, CodeTree.leavesPositive, CodeTree.sumsExact]

/-- Vector S-24, and the same with an internal record: the second record exceeds NODE_MAX. -/
theorem test_FirstRecordErrors_nodeMax_hyps :
    c1.legal = true ∧
    recordsBefore [(2, none)] = c1.nodeMax ∧
    treeBytes (withTree (State.powerOn c1 0) [1, 0, 0, 0, 2, 0, 0, 0, 0, 1, 0, 0, 0, 0, 0, 0, 1, 0, 1]) =
      bytesBefore [(2, none)] ++ (leafRecord 1 0 ++ [0, 0, 0, 0, 1, 0, 1]) ∧
    treeBytes (withTree (State.powerOn c1 0) [1, 0, 0, 0, 2, 1, 0, 0, 0, 2]) =
      bytesBefore [(2, none)] ++ (internalRecord 2 ++ []) := by decide

theorem test_SerializeThenDeserializeRestoresTheTree_hyps : sTree.Inv ∧ sTree.treeValid = true :=
  ⟨inv_sTree, by decide⟩

theorem test_BadAccessFormsAreBusErrors_hyps : 1 ≠ 4 ∧ 0x002 % 4 ≠ 0 := by decide

/-- The last register, the last words of the windows, and an unmapped offset (vectors M-5, M-8). -/
theorem test_MappedOffsetsAreLocations_hyps :
    c4.legal = true ∧ mapped c4 (.reg .capMaxcode) = true ∧ mapped c4 (.wtab 3) = true ∧
    mapped c4 (.node 6 .b) = true ∧ mapped c4 (.symbuf 1) = true ∧ mapped c4 (.bitbuf 0) = true ∧
    mapped c4 (.artbuf 1) = true ∧ mapped c4 (.treebuf 10) = true ∧
    0x0800010 % 4 = 0 ∧ locate c4 0x0800010 = some (.ctab 1 .len) ∧
    locate c4 0x058 = none ∧ locate c4 0x0400010 = none := by decide

theorem test_BusyAcceptsOnlyStatusAndControl_hyps : (s4.issueWith 0x2 1).busy = true := by decide

/-- The first and last word of the two read-only windows, and words that differ in reserved bits. -/
theorem test_ReadOnlyLocationsRejectWrites_hyps :
    0x0800000 ≤ 0x0800000 ∧ 0x0FFFFFC < 0x1000000 ∧
    (0xFFFFFFFD : Word).getLsbD 0 = (0x1 : Word).getLsbD 0 ∧
    (0xFFFFFFFD : Word).getLsbD 1 = (0x1 : Word).getLsbD 1 ∧
    (0xFFFFFFFB : Word).getLsbD 1 = (0x2 : Word).getLsbD 1 ∧
    (0xFFFFFFFB : Word).getLsbD 2 = (0x2 : Word).getLsbD 2 ∧ s4.busy = false := by decide

theorem test_RegistersReadTheirValues_hyps : sTree.busy = false := by decide

/-- A leaf, an internal node, and the entries at n ≥ NODE_COUNT and without a tree. -/
theorem test_CodeAndNodeWindows_hyps :
    sTree.busy = false ∧ sTree.cfg.legal = true ∧ 3 < sTree.cfg.nsym ∧ sTree.treeValid = true ∧
    0 < sTree.nodeCount.toNat ∧ sTree.nodeAt 0 = .leaf 3 0 ∧ 4 < sTree.nodeCount.toNat ∧
    sTree.nodeAt 4 = .internal 6 0 3 0 ∧ sTree.nodeCount.toNat ≤ 5 ∧ 6 < sTree.cfg.nodeMax ∧
    s4.treeValid = false := by decide

theorem test_WriteThenReadGivesTheValue_hyps :
    s4.cfg.legal = true ∧ s4.busy = false ∧ mapped s4.cfg (.bitbuf 0) = true ∧
    plainStorage (.bitbuf 0) = true ∧ mapped s4.cfg (.reg .treeLen) = true ∧
    plainStorage (.reg .treeLen) = true ∧ mapped s4.cfg (.symbuf 1) = true ∧
    plainStorage (.symbuf 1) = true := by decide

/-- A soft reset with TREE_VALID = 1: the window words at n ≥ NODE_COUNT keep their draw (10_state.md R44). -/
theorem test_softReset_keeps_the_window_draw :
    okIs (memWrite { sTree with nodeView := 7 } 0x004 4 0x2) (fun t => t.nodeView == 7 && !t.treeValid) = true := by
  decide

/-- The hypotheses of the soft reset clause, and a CTRL write that sets IRQ_EN (vector M-14). -/
theorem test_CodeAndNodeWindows_softReset_hyps :
    sTree.busy = false ∧ (0x2 : Word).getLsbD 1 = true ∧ sTree.cfg.legal = true ∧ 5 < sTree.cfg.nodeMax ∧
    sTree.nodeCount.toNat ≤ 5 ∧ (0x1 : Word).getLsbD 1 = false ∧
    okIs (memWrite s4 0x004 4 0x1) (fun t => t.irqEn) = true := by decide

/-- Vector M-14 and the accesses that clear IRQ. -/
theorem test_InterruptFollowsDone_hyps :
    nextIs (exec .nop { s4 with irqEn := true }) State.irq = true ∧
    okIs (memWrite { s4 with irqEn := true, done := true } 0x008 4 0x2) (fun t => !t.irq) = true ∧
    okIs (memWrite { s4 with irqEn := true, done := true } 0x00C 4 0x0) (fun t => !t.irq) = true ∧
    okIs (memWrite { s4 with irqEn := true, done := true } 0x004 4 0x0) (fun t => !t.irq) = true ∧
    okIs (memWrite { s4 with irqEn := true, done := true } 0x004 4 0x3) (fun t => !t.irq) = true := by
  decide

/-- Vectors M-15 and M-16, idle and busy. -/
theorem test_SoftResetClearsRegisters_hyps :
    (0x3 : Word).getLsbD 1 = true ∧ s4.busy = false ∧
    (∀ i ∈ [Instr.nop, .build, .genCodes, .encode, .pack, .unpack, .decode, .serialize, .deserialize],
      (s4.issueWith (encode i) 1).phase = .running (encode i) 1) := by decide

theorem test_StaleCodesAreRefused_hyps :
    nextIs (exec .build (withWeights sCodes [3, 2, 1])) (fun t => decide (t.errCode = .ok)) = true ∧
    nextIs (exec .deserialize (withTree sCodes bytesA)) (fun t => decide (t.errCode = .ok)) = true := by
  decide

theorem test_ResetHasTheInvariant_hyps : Config.legal c4 = true := by decide

theorem test_StepKeepsTheInvariant_hyps :
    (sTree.issueWith 0x2 0).Inv ∧
    ∃ t, step (sTree.issueWith 0x2 0) = .next t ∧ decide (t.codesValid = true) = true :=
  ⟨inv_issueWith inv_sTree 0x2 0, exists_of_nextIs (by decide)⟩

/-- A host that reads an unmapped offset (vector M-4). -/
theorem test_OnlyBusErrorsStop_hyps :
    (loaded c4 [.rd 0x03C 4]).Inv ∧ step (loaded c4 [.rd 0x03C 4]) = .fault (.busError .unmapped) :=
  ⟨{ legal := by decide
     memWf := by decide
     issued := by intro w n h; cases h
     errCoded := by decide
     codesNeedTree := by decide
     tree := by intro h; cases h
     noTree := by decide
     codes := by intro h; cases h }, rfl⟩

/-- A running command with a host at the end of its list, and with one that waits on its BUSYLOOP. -/
theorem test_RunningCommandCompletes_hyps :
    (sTree.issueWith 0x2 5).Inv ∧ (sTree.issueWith 0x2 5).phase = .running 0x2 5 ∧
    (sTree.issueWith 0x2 5).program.length ≤ (sTree.issueWith 0x2 5).line ∧
    ({ sTree.issueWith 0x2 5 with program := [.busyLoop 0] } : State).program[0]? = some (.busyLoop 0) :=
  ⟨inv_issueWith inv_sTree 0x2 5, rfl, by decide, rfl⟩

end Sys2Proof.Tests
end

section
/-! SUPPORT. The port at a register's offset (10_state.md R23, 20_memory.md R61, R62), and what the registers
read after a reset and in STATUS. -/

namespace Sys2Proof.Machine

/-- Every register lies at its offset, for all parameters (10_state.md R23). -/
theorem locate_regOffset (c : Config) (r : Reg) : locate c (regOffset r) = some (.reg r) := by
  cases r <;> rfl

theorem regOffset_aligned (r : Reg) : regOffset r % 4 = 0 := by cases r <;> rfl

/-- A read of a register that BUSY does not close returns its value. -/
theorem memRead_reg {s : State} {r : Reg} (h : s.busy = true → busyReadable (.reg r) = true) :
    memRead s (regOffset r) 4 = .ok (s.regWord r) :=
  (memRead_ok_iff ..).mpr ⟨rfl, regOffset_aligned r, _, locate_regOffset s.cfg r, h, rfl⟩

/-- While the engine is IDLE every register can be read. -/
theorem memRead_reg_idle {s : State} (h : s.busy = false) (r : Reg) :
    memRead s (regOffset r) 4 = .ok (s.regWord r) :=
  memRead_reg fun hb => absurd hb (by simp [h])

/-- A write to a writable register that BUSY does not close is stored. -/
theorem memWrite_reg {s : State} {r : Reg} (v : Word) (hr : readOnly (.reg r) = false)
    (h : s.busy = true → busyWritable (.reg r) = true) :
    memWrite s (regOffset r) 4 v = .ok (s.writeReg v r) :=
  (memWrite_ok_iff ..).mpr ⟨rfl, regOffset_aligned r, _, locate_regOffset s.cfg r, hr, h, rfl⟩

/-- A write to a read-only register gets a bus error, busy or not (20_memory.md R68). -/
theorem memWrite_reg_readOnly (s : State) {r : Reg} (v : Word) (hr : readOnly (.reg r) = true) :
    memWrite s (regOffset r) 4 v = .error (.busError .readOnly) := by
  simp [memWrite, regOffset_aligned, locate_regOffset, hr]

/-- A write to a register that BUSY closes gets a bus error (20_memory.md R69). -/
theorem memWrite_reg_busy {s : State} {r : Reg} (v : Word) (hr : readOnly (.reg r) = false)
    (hb : s.busy = true) (hw : busyWritable (.reg r) = false) :
    memWrite s (regOffset r) 4 v = .error (.busError .busy) := by
  simp [memWrite, regOffset_aligned, locate_regOffset, hr, hb, hw]

/-- The bits of STATUS (10_state.md R26). -/
theorem statusWord_bits (s : State) :
    s.statusWord.getLsbD 0 = s.busy ∧ s.statusWord.getLsbD 1 = s.done ∧ s.statusWord.getLsbD 2 = s.err ∧
      s.statusWord.getLsbD 3 = s.treeValid ∧ s.statusWord.getLsbD 4 = s.codesValid := by
  unfold State.statusWord
  generalize s.busy = b, s.done = d, s.err = e, s.treeValid = t, s.codesValid = c
  revert b d e t c
  decide

/-- The bits of STATUS above CODES_VALID read 0 (10_state.md R26). -/
theorem statusWord_high (s : State) {j : Nat} (h : 5 ≤ j) : s.statusWord.getLsbD j = false := by
  have hlt : s.busy.toNat + 2 * s.done.toNat + 4 * s.err.toNat + 8 * s.treeValid.toNat
      + 16 * s.codesValid.toNat < 2 ^ 5 := by
    have := s.busy.toNat_lt; have := s.done.toNat_lt; have := s.err.toNat_lt
    have := s.treeValid.toNat_lt; have := s.codesValid.toNat_lt
    omega
  rw [State.statusWord, BitVec.getLsbD_ofNat,
    Nat.testBit_lt_two_pow (hlt.trans_le (Nat.pow_le_pow_right (by decide) h)), Bool.and_false]

theorem abandon_cfg (s : State) : s.abandon.cfg = s.cfg := softReset_cfg s

/-- Cleared registers read as after power-on (10_state.md R45). -/
theorem clearRegisters_regWord (s : State) (d : Nat) (r : Reg) :
    s.clearRegisters.regWord r = (State.powerOn s.cfg d).regWord r := by
  cases r <;> rfl

theorem softReset_regWord (s : State) (d : Nat) (r : Reg) :
    s.softReset.regWord r = (State.powerOn s.cfg d).regWord r := by
  rw [State.softReset, clearRegisters_regWord s.abandon d, abandon_cfg]

/-- After power-on every RAM entry is a free draw (10_state.md R44, R45). -/
theorem powerOn_entries (c : Config) (d i : Nat) :
    (State.powerOn c d).wtabAt i = Config.anyWtab d i ∧ (State.powerOn c d).nodeAt i = Config.anyNode d i ∧
      (State.powerOn c d).ctabAt i = Config.anyCtab d i ∧
      (State.powerOn c d).symAt i = Config.anySymbuf d i ∧
      (State.powerOn c d).bitAt i = Config.anyBitbuf d i ∧
      (State.powerOn c d).artByte i = Config.anyArtbuf d i ∧
      (State.powerOn c d).treeByte i = Config.anyTreebuf d i :=
  ⟨rfl, rfl, rfl, rfl, rfl, rfl, rfl⟩

end Sys2Proof.Machine
end

section
/-! SUPPORT. The machine's invariant in two parts: what the RAMs, the descriptor and the flags satisfy, which
each command's output keeps, and what the completion registers satisfy, which every completion establishes. -/

namespace Sys2Proof.Machine

/-- What the arena and code clauses of the invariant speak of (10_state.md R41, R42, R31, R32). -/
def State.treePart (s : State) : Config × Ram Node × Ram Code × Bool × Bool × Word × Word × Word × Word :=
  (s.cfg, s.mem.node, s.mem.ctab, s.treeValid, s.codesValid, s.nodeCount, s.root, s.leafCount, s.maxLen)

theorem arenaOk_congr {s t : State} (e : t.treePart = s.treePart) (h : arenaOk s) : arenaOk t := by
  simp only [State.treePart, Prod.mk.injEq] at e
  obtain ⟨ecfg, enode, -, -, -, ecount, eroot, eleaf, -⟩ := e
  unfold arenaOk State.nodeAt at *
  rwa [ecfg, enode, ecount, eroot, eleaf]

theorem codesOk_congr {s t : State} (e : t.treePart = s.treePart) (h : codesOk s) : codesOk t := by
  simp only [State.treePart, Prod.mk.injEq] at e
  obtain ⟨ecfg, enode, ectab, -, -, -, eroot, -, emax⟩ := e
  unfold codesOk State.tree State.nodeAt State.ctabAt at *
  rwa [ecfg, enode, ectab, eroot, emax]

/-- The invariant without the completion registers: all that a command reads and has to keep. -/
structure State.DataInv (s : State) : Prop where
  legal : s.cfg.legal = true
  memWf : s.mem.wf s.cfg = true
  codesNeedTree : s.codesValid = true → s.treeValid = true
  tree : s.treeValid = true → arenaOk s
  noTree : s.treeValid = false → s.nodeCount = 0 ∧ s.root = 0 ∧ s.leafCount = 0
  codes : s.codesValid = true → codesOk s

theorem State.Inv.dataInv {s : State} (h : s.Inv) : s.DataInv :=
  ⟨h.legal, h.memWf, h.codesNeedTree, h.tree, h.noTree, h.codes⟩

/-- An update that leaves the tree part alone has only the canonical form of the RAMs to keep. -/
theorem State.DataInv.congr {s t : State} (h : s.DataInv) (e : t.treePart = s.treePart)
    (hm : t.mem.wf s.cfg = true) : t.DataInv := by
  have e' := e
  simp only [State.treePart, Prod.mk.injEq] at e'
  obtain ⟨ecfg, -, -, etree, ecodes, ecount, eroot, eleaf, -⟩ := e'
  exact
    { legal := ecfg ▸ h.legal
      memWf := ecfg ▸ hm
      codesNeedTree := by rw [etree, ecodes]; exact h.codesNeedTree
      tree := fun ht => arenaOk_congr e (h.tree (etree ▸ ht))
      noTree := by rw [etree, ecount, eroot, eleaf]; exact h.noTree
      codes := fun hc => codesOk_congr e (h.codes (ecodes ▸ hc)) }

/-- The completion registers are in order: a running command's word is in CMD with its result fields cleared
(30_encoding.md R91), and ERR = 1 comes with an error code (10_state.md R26, R28). -/
structure State.EngineInv (s : State) : Prop where
  issued : ∀ w n, s.phase = .running w n →
    s.cmd = w ∧ s.done = false ∧ s.err = false ∧ s.errCode = .ok ∧ s.errInfo = 0
  errCoded : s.err = true → s.errCode ≠ .ok

theorem State.Inv.engineInv {s : State} (h : s.Inv) : s.EngineInv := ⟨h.issued, h.errCoded⟩

theorem State.DataInv.inv {s : State} (h : s.DataInv) (he : s.EngineInv) : s.Inv :=
  { h, he with }

/-- What the completion registers' part of the invariant speaks of. -/
def State.enginePart (s : State) : Phase × Word × Bool × Bool × ResultCode × Word :=
  (s.phase, s.cmd, s.done, s.err, s.errCode, s.errInfo)

theorem State.EngineInv.congr {s t : State} (h : s.EngineInv) (e : t.enginePart = s.enginePart) :
    t.EngineInv := by
  simp only [State.enginePart, Prod.mk.injEq] at e
  obtain ⟨ephase, ecmd, edone, eerr, ecode, einfo⟩ := e
  exact
    { issued := by rw [ephase, ecmd, edone, eerr, ecode, einfo]; exact h.issued
      errCoded := by rw [eerr, ecode]; exact h.errCoded }

/-- An update outside both parts has only the canonical form of the RAMs to keep. -/
theorem State.Inv.congr {s t : State} (h : s.Inv) (ed : t.treePart = s.treePart)
    (ee : t.enginePart = s.enginePart) (hm : t.mem.wf s.cfg = true) : t.Inv :=
  (h.dataInv.congr ed hm).inv (h.engineInv.congr ee)

/-- While the engine is IDLE with ERR = 0 nothing is asked of the completion registers. -/
theorem engineInv_idle {s : State} (hp : s.phase = .idle) (he : s.err = false) : s.EngineInv :=
  ⟨fun _ _ h => absurd (hp.symm.trans h) Phase.noConfusion,
    fun h => absurd (he.symm.trans h) Bool.false_ne_true⟩

/-- Completion, with or without an error, establishes the invariant (60_exceptions.md R210). -/
theorem State.DataInv.complete {s : State} (h : s.DataInv) (c : ResultCode) (info : Word) :
    (s.complete c info).Inv :=
  (h.congr rfl h.memWf : (s.complete c info).DataInv).inv
    ⟨fun _ _ hp => (by cases hp), fun he => by simpa using he⟩

/-- Issue establishes the completion registers' part (30_encoding.md R91). -/
theorem State.DataInv.issue {s : State} (h : s.DataInv) (v : Word) : (s.issue v).Inv :=
  (h.congr rfl h.memWf : (s.issue v).DataInv).inv
    ⟨fun w n hp => by injection hp with hw; exact ⟨hw, rfl, rfl, rfl, rfl⟩, fun he => by cases he⟩

/-! ### States without a tree: the resets and a lost arena -/

/-- Without a tree only the parameters and the RAMs' form are left of the invariant. -/
theorem dataInv_of_noTree {s : State} (hl : s.cfg.legal = true) (hm : s.mem.wf s.cfg = true)
    (ht : s.treeValid = false) (hc : s.codesValid = false)
    (hd : s.nodeCount = 0 ∧ s.root = 0 ∧ s.leafCount = 0) : s.DataInv where
  legal := hl
  memWf := hm
  codesNeedTree := fun h => by rw [hc] at h; cases h
  tree := fun h => by rw [ht] at h; cases h
  noTree := fun _ => hd
  codes := fun h => by rw [hc] at h; cases h

theorem inv_powerOn {c : Config} (d : Nat) (h : c.legal = true) : (State.powerOn c d).Inv :=
  (dataInv_of_noTree h (powerOn_wf c d) rfl rfl ⟨rfl, rfl, rfl⟩).inv (engineInv_idle rfl rfl)

/-- The host's list, its position and the port's last answer are not in the invariant. -/
theorem State.Inv.withHost {s : State} (h : s.Inv) (p : List HostLine) (l : Nat) (r : Response) :
    ({ s with program := p, line := l, response := r } : State).Inv :=
  h.congr rfl rfl h.memWf

theorem State.Inv.answer {s : State} (h : s.Inv) (r : Response) (l : Nat) : (s.answer r l).Inv :=
  h.withHost s.program l r

theorem State.DataInv.powerReset {s : State} (h : s.DataInv) : s.powerReset.Inv :=
  (inv_powerOn s.draws h.legal).withHost s.program s.line s.response

theorem State.DataInv.softReset {s : State} (h : s.DataInv) : s.softReset.Inv :=
  (dataInv_of_noTree (softReset_cfg s ▸ h.legal) (by rw [softReset_cfg]; exact softReset_wf h.memWf)
    rfl rfl ⟨rfl, rfl, rfl⟩).inv (engineInv_idle rfl rfl)

theorem State.DataInv.loseArena {s : State} (h : s.DataInv) : s.loseArena.DataInv :=
  dataInv_of_noTree h.legal (anyNodes_wf (s := s) h.memWf) rfl rfl ⟨rfl, rfl, rfl⟩

/-! ### What BUILD, DESERIALIZE and GEN_CODES establish -/

/-- The entries of the new arena, as the state shows them. -/
theorem setArena_nodeAt (s : State) (nodes : List Node) (r k n : Nat) :
    (s.setArena nodes r k).nodeAt n = (nodes[n]?).getD (Config.anyNode s.draws n) :=
  read_ofList ..

/-- A new arena has the arena invariant if it holds an allowed tree in all its entries (10_state.md R42). -/
theorem arenaOk_setArena {s : State} {nodes : List Node} {root : Nat} {t : CodeTree} {is : List Nat}
    (hl : s.cfg.legal = true) (ht : holdsTree (arenaOf (Config.anyNode s.draws) nodes) t root is)
    (hi : is.Perm (List.range nodes.length)) (hn : t.syms.Nodup)
    (hs : ∀ x ∈ t.syms, x.toNat < s.cfg.nsym) (hp : t.leavesPositive) :
    nodes.length ≤ s.cfg.nodeMax ∧ arenaOk (s.setArena nodes root t.syms.length) := by
  obtain ⟨-, ⟨-, hnsym⟩, -⟩ := (legal_iff _).mp hl
  have hk := syms_length_le hn hs
  have hlen := holdsTree_length ht
  have hpos := t.syms_pos
  rw [hi.length_eq, List.length_range] at hlen
  have hroot : root < nodes.length := List.mem_range.mp (hi.subset (holdsTree_mem_root ht))
  have hcount : (s.setArena nodes root t.syms.length).nodeCount.toNat = nodes.length :=
    Nat.mod_eq_of_lt (by omega)
  refine ⟨by unfold Config.nodeMax; omega, t, is, ?_, hi.nodup_iff.mpr List.nodup_range, fun n h => ?_,
    hn, hs, hp, Nat.mod_eq_of_lt (by omega), by omega⟩
  · rw [setArena_root, BitVec.toNat_ofNat, Nat.mod_eq_of_lt (by omega)]
    exact holdsTree_congr ht fun n _ => setArena_nodeAt ..
  · rw [hcount]
    exact List.mem_range.mp (hi.subset h)

/-- The arena that BUILD leaves on success has the arena invariant (40_tree_builder.md R121). -/
theorem arenaOk_build {s : State} (hl : s.cfg.legal = true) (hw : s.wtabLen.toNat ≤ s.cfg.nsym)
    (ho : overflowAt 0 (s.weighted s.wtabLen.toNat) = none) (hne : s.weighted s.wtabLen.toNat ≠ []) :
    (buildArena (s.weighted s.wtabLen.toNat)).1.length ≤ s.cfg.nodeMax ∧
      arenaOk (s.setArena (buildArena (s.weighted s.wtabLen.toNat)).1
        (buildArena (s.weighted s.wtabLen.toNat)).2 (s.weighted s.wtabLen.toNat).length) := by
  obtain ⟨-, ⟨-, hnsym⟩, -⟩ := (legal_iff _).mp hl
  have hk := weighted_length_le s s.wtabLen.toNat
  have hsum := (overflowAt_none_iff (Nat.zero_le _)).mp ho
  have hnodup := weighted_syms_nodup s (n := s.wtabLen.toNat) (by omega)
  obtain ⟨hlen, -, -, -, t, is, ht, hi, hsyms, hp, -⟩ :=
    buildArena_spec (Config.anyNode s.draws) _ hne (fun p h => ((mem_weighted s).mp h).2.2) (by omega)
      (by omega) hnodup
  have hleaves : t.syms.length = (s.weighted s.wtabLen.toNat).length := by
    rw [hsyms.length_eq, List.length_map]
  rw [← hleaves]
  refine arenaOk_setArena hl ht (hlen ▸ hi) (hsyms.nodup_iff.mpr hnodup) (fun x hx => ?_) hp
  obtain ⟨p, hp, rfl⟩ := List.mem_map.mp (hsyms.subset hx)
  have := ((mem_weighted s).mp hp).1
  rw [BitVec.toNat_ofNat]
  omega

/-- The arena that DESERIALIZE leaves on success has the arena invariant (44_tree_serializer.md R197). -/
theorem arenaOk_deserialize {s : State} {r : Parsed} (hl : s.cfg.legal = true)
    (hr : parseBlob s.treeByte s.treeLen.toNat s.cfg.nodeMax s.cfg.nsym = .ok r) :
    r.nodes.length ≤ s.cfg.nodeMax ∧ arenaOk (s.setArena r.nodes 0 ((r.nodes.length + 1) / 2)) := by
  obtain ⟨-, ⟨hpos, hnsym⟩, -⟩ := (legal_iff _).mp hl
  obtain ⟨t, ⟨hn, hs, hp, he⟩, -, -, rfl⟩ := (parseBlob_ok_iff hpos).mp hr
  have hk := syms_length_le hn hs
  have hlen := preNodes_length t 0
  have hleaves : ((parsedTree t 0 0 []).nodes.length + 1) / 2 = t.syms.length := by
    simp only [parsedTree]; omega
  have ht := holdsTree_preNodes (node := arenaOf (Config.anyNode s.draws) (preNodes t 0)) t 0 he (by omega)
    fun k x hk => by simp [arenaOf, hk]
  rw [hleaves]
  exact arenaOk_setArena hl ht (.of_eq List.range_eq_range'.symm) hn hs hp

/-- A new arena is the tree of a state without codes. -/
theorem State.DataInv.setArena {s : State} {nodes : List Node} {r k : Nat} (h : s.DataInv)
    (hl : nodes.length ≤ s.cfg.nodeMax) (ha : arenaOk (s.setArena nodes r k)) :
    (s.setArena nodes r k).DataInv where
  legal := h.legal
  memWf := setArena_wf (s := s) h.memWf hl
  codesNeedTree := fun _ => rfl
  tree := fun _ => ha
  noTree := fun ht => by cases ht
  codes := fun hc => by cases hc

theorem longestCode_lt (codes : List (Sym × Code)) : longestCode codes < 2 ^ 7 := by
  induction codes with
  | nil => simp [longestCode]
  | cons p rest ih => exact max_lt p.2.len.isLt ih

/-- The code table that GEN_CODES writes is the Code Map of the arena's tree (41_code_map.md R140). -/
theorem codesOk_setCodes {s : State} {t : CodeTree} {codes : List (Sym × Code)} (ht : s.tree = some t)
    (hc : treeCodes t = .ok codes) :
    codesOk (s.setCodes (codeTable s.cfg.nsym codes) (longestCode codes)) := by
  refine ⟨t, codes, ht, hc, fun i hi => ?_, ?_⟩
  · have hi : i < s.cfg.nsym := hi
    rw [State.ctabAt, setCodes_ctab, read_ofList, codeTable_getElem? codes hi, Option.getD_some]
  · have := longestCode_lt codes
    exact Nat.mod_eq_of_lt (by omega)

theorem State.DataInv.setCodes {s : State} {t : CodeTree} {codes : List (Sym × Code)} (h : s.DataInv)
    (hv : s.treeValid = true) (ht : s.tree = some t) (hc : treeCodes t = .ok codes) :
    (s.setCodes (codeTable s.cfg.nsym codes) (longestCode codes)).DataInv where
  legal := h.legal
  memWf := setCodes_wf (s := s) h.memWf (codeTable_length ..).le
  codesNeedTree := fun _ => hv
  tree := h.tree
  noTree := h.noTree
  codes := fun _ => codesOk_setCodes ht hc

theorem State.DataInv.loseCodes {s : State} (h : s.DataInv) : s.loseCodes.DataInv where
  legal := h.legal
  memWf := anyCodes_wf (s := s) h.memWf
  codesNeedTree := fun hc => by cases hc
  tree := h.tree
  noTree := h.noTree
  codes := fun hc => by cases hc

/-! ### Every command keeps the invariant -/

/-- A next state that this outcome answers has the invariant. -/
def endsInInv (o : Host.Outcome State Fault Refusal) : Prop := ∀ t, o = .next t → t.Inv

theorem endsInInv_complete {o : Host.Outcome State Fault Refusal} {u : State} {c : ResultCode} {info : Word}
    (h : u.DataInv) (e : o = .next (u.complete c info)) : endsInInv o := by
  rintro t rfl
  injection e with e
  exact e ▸ h.complete c info

theorem endsInInv_fault {o : Host.Outcome State Fault Refusal} {f : Fault} (e : o = .fault f) :
    endsInInv o := by
  rintro t rfl
  cases e

section
variable {s : State} (h : s.DataInv)
include h

theorem execBuild_endsInInv : endsInInv (execBuild s) := by
  rcases execBuild_cases s with ⟨_, e⟩ | ⟨_, _, _, e⟩ | ⟨_, _, e⟩ | ⟨hw, ho, hne, e⟩
  · exact endsInInv_complete h e
  · exact endsInInv_complete h e
  · exact endsInInv_complete h e
  · obtain ⟨hlen, harena⟩ := arenaOk_build h.legal hw ho hne
    exact endsInInv_complete (h.setArena hlen harena) e

theorem execGenCodes_endsInInv : endsInInv (execGenCodes s) := by
  rcases execGenCodes_cases s with ⟨_, e⟩ | ⟨_, _, e⟩ | ⟨_, _, _, _, _, e⟩ | ⟨hv, t, codes, ht, hc, e⟩
  · exact endsInInv_complete h e
  · exact endsInInv_fault e
  · exact endsInInv_complete h.loseCodes e
  · exact endsInInv_complete (h.setCodes hv ht hc) e

theorem execEncode_endsInInv : endsInInv (execEncode s) := by
  rcases execEncode_cases s with ⟨_, e⟩ | ⟨_, _, e⟩ | ⟨_, _, _, _, _, e⟩ | ⟨_, _, bits, hb, e⟩
  · exact endsInInv_complete h e
  · exact endsInInv_complete h e
  · exact endsInInv_complete (h.congr (t := s.loseBits) rfl (anyBits_wf h.memWf)) e
  · have hlen := encodeFrom_len (Nat.zero_le _) hb
    exact endsInInv_complete (h.congr (t := s.setBits bits) rfl (setBits_wf h.memWf (by omega))) e

theorem execPack_endsInInv : endsInInv (execPack s) := by
  rcases execPack_cases s with ⟨_, e⟩ | ⟨_, _, e⟩ | ⟨_, hlen, e⟩
  · exact endsInInv_complete h e
  · exact endsInInv_complete h e
  · refine endsInInv_complete (h.congr (t := s.setArt _) rfl (setArt_wf h.memWf ?_)) e
    rwa [artifactOf_length, bitstring_length]

theorem execUnpack_endsInInv : endsInInv (execUnpack s) := by
  rcases execUnpack_cases s with ⟨_, e⟩ | ⟨_, _, e⟩ | ⟨_, _, _, e⟩ | ⟨_, _, _, _, _, e⟩ |
    ⟨_, _, _, _, _, _, e⟩ | ⟨_, _, _, _, _, hlen, e⟩
  · exact endsInInv_complete h e
  · exact endsInInv_complete h e
  · exact endsInInv_complete h e
  · exact endsInInv_complete h e
  · exact endsInInv_complete h e
  · refine endsInInv_complete (h.congr (t := s.setBits _) rfl (setBits_wf h.memWf ?_)) e
    exact (List.length_take_le ..).trans hlen

theorem execDecode_endsInInv : endsInInv (execDecode s) := by
  rcases execDecode_cases s with ⟨_, e⟩ | ⟨_, _, e⟩ | ⟨_, _, _, _, _, e⟩ | ⟨_, _, syms, hs, e⟩
  · exact endsInInv_complete h e
  · exact endsInInv_complete h e
  · exact endsInInv_complete (h.congr (t := s.loseSyms) rfl (anySyms_wf h.memWf)) e
  · exact endsInInv_complete
      (h.congr (t := s.setSyms syms) rfl (setSyms_wf h.memWf (decodedSymbols_len hs))) e

theorem execSerialize_endsInInv : endsInInv (execSerialize s) := by
  rcases execSerialize_cases s with ⟨_, e⟩ | ⟨_, _, e⟩ | ⟨_, _, _, e⟩ | ⟨_, hlen, _, _, e⟩
  · exact endsInInv_complete h e
  · exact endsInInv_complete h e
  · exact endsInInv_fault e
  · exact endsInInv_complete (h.congr (t := s.setTreeBytes _ _) rfl (setTreeBytes_wf h.memWf hlen)) e

theorem execDeserialize_endsInInv : endsInInv (execDeserialize s) := by
  rcases execDeserialize_cases s with ⟨_, e⟩ | ⟨_, _, _, e⟩ | ⟨_, r, hr, e⟩
  · exact endsInInv_complete h e
  · exact endsInInv_complete h.loseArena e
  · obtain ⟨hlen, harena⟩ := arenaOk_deserialize h.legal hr
    exact endsInInv_complete (h.setArena hlen harena) e

theorem exec_endsInInv (i : Instr) : endsInInv (exec i s) := by
  cases i with
  | nop => exact endsInInv_complete h (execNop_eq s)
  | build => exact execBuild_endsInInv h
  | genCodes => exact execGenCodes_endsInInv h
  | encode => exact execEncode_endsInInv h
  | pack => exact execPack_endsInInv h
  | unpack => exact execUnpack_endsInInv h
  | decode => exact execDecode_endsInInv h
  | serialize => exact execSerialize_endsInInv h
  | deserialize => exact execDeserialize_endsInInv h

end

/-! ### Every turn of the host keeps the invariant -/

/-- A write of STATUS keeps the invariant: it only clears DONE and ERR (10_state.md R26). -/
theorem State.Inv.writeStatus {s : State} (h : s.Inv) (v : Word) : (s.writeStatus v).Inv := by
  refine (h.dataInv.congr rfl h.memWf : (s.writeStatus v).DataInv).inv ⟨fun w n hp => ?_, fun he => ?_⟩
  · obtain ⟨hcmd, hdone, herr, hcode, hinfo⟩ := h.issued w n hp
    exact ⟨hcmd, by simp [hdone], by simp [herr], hcode, hinfo⟩
  · exact h.errCoded (Bool.and_eq_true_iff.mp he).1

/-- A write of CTRL keeps the invariant (10_state.md R25). -/
theorem State.Inv.writeCtrl {s : State} (h : s.Inv) (v : Word) : (s.writeCtrl v).Inv := by
  unfold State.writeCtrl
  split
  · exact h.dataInv.softReset
  · exact h.congr rfl rfl h.memWf

/-- A write of a register keeps the invariant (10_state.md R25, R26, R27, R30). -/
theorem State.Inv.writeReg {s : State} (h : s.Inv) (v : Word) (r : Reg) : (s.writeReg v r).Inv := by
  cases r with
  | ctrl => exact h.writeCtrl v
  | status => exact h.writeStatus v
  | cmd => exact h.dataInv.issue v
  | wtabLen | symCount | bitLen | artLen | treeLen => exact h.congr rfl rfl h.memWf
  | id | errCode | errInfo | nodeCount | root | leafCount | maxLen | capNsym | capSymbuf | capBitbuf | capArt
  | capTree | capMaxcode => exact h

/-- New contents for the RAMs beside the arena and CTAB keep the invariant. -/
theorem State.Inv.withMem {s : State} {m : Memory} (h : s.Inv) (hn : m.node = s.mem.node)
    (hc : m.ctab = s.mem.ctab) (hm : m.wf s.cfg = true) : ({ s with mem := m } : State).Inv :=
  h.congr (by simp only [State.treePart, hn, hc]) rfl hm

/-- A write of a mapped location keeps the invariant (20_memory.md R62). -/
theorem State.Inv.writeLoc {s : State} {l : Loc} (h : s.Inv) (v : Word) (hm : mapped s.cfg l = true) :
    (s.writeLoc v l).Inv := by
  have hwf := writeLoc_wf v h.legal h.memWf hm
  cases l with
  | reg r => exact h.writeReg v r
  | ctab _ _ | node _ _ => exact h
  | wtab _ | symbuf _ | bitbuf _ | artbuf _ | treebuf _ => exact h.withMem rfl rfl hwf

/-- One turn of the host less before the completion. -/
theorem State.Inv.tick {s : State} {w : Word} {n : Nat} (h : s.Inv) (hp : s.phase = .running w (n + 1)) :
    ({ s with phase := .running w n } : State).Inv := by
  refine (h.dataInv.congr rfl h.memWf : ({ s with phase := .running w n } : State).DataInv).inv
    ⟨fun w' n' hp' => ?_, h.errCoded⟩
  injection hp' with hw _
  exact hw ▸ h.issued w (n + 1) hp

theorem hostTurn_endsInInv {s : State} (h : s.Inv) : endsInInv (hostTurn s) := by
  intro t e
  rcases hostTurn_cases e with ⟨_, rfl⟩ | ⟨_, _, _, _, _, rfl⟩ | ⟨_, _, v, u, _, hu, rfl⟩ |
    ⟨_, _, _, _, rfl⟩ | ⟨_, rfl⟩
  · exact h
  · exact h.answer _ _
  · obtain ⟨_, _, l, hl, _, _, rfl⟩ := (memWrite_ok_iff ..).mp hu
    exact (h.writeLoc v (mapped_of_locate hl)).answer _ _
  · exact h.answer _ _
  · exact h.dataInv.powerReset.answer _ _

/-- Every step keeps the invariant: a turn of the host, the completion of a command, and the completion of a
word that is no command. -/
theorem step_endsInInv {s : State} (h : s.Inv) : endsInInv (step s) := by
  rcases step_cases s with ⟨_, e⟩ | ⟨_, _, hp, e⟩ | ⟨_, i, _, _, e⟩ | ⟨_, _, _, _, e⟩
  · exact e ▸ hostTurn_endsInInv h
  · exact e ▸ hostTurn_endsInInv (h.tick hp)
  · exact e ▸ exec_endsInInv h.dataInv i
  · exact endsInInv_complete h.dataInv e

end Sys2Proof.Machine
end

section
/-! PROOFS. The statements about the state (10_state.md). -/

namespace Sys2Proof.Machine

/-- Settles O56: the host's turn and each command's completion keep the two parts of the invariant. -/
theorem stepKeepsTheInvariant : Obligations.StepKeepsTheInvariant :=
  fun _ t h e => step_endsInInv h t e

/-- Settles O55: a power-on state has no tree, no codes and no command. -/
theorem resetHasTheInvariant : Obligations.ResetHasTheInvariant :=
  ⟨fun _ d h => inv_powerOn d h, inv_powerOn 0 (by decide),
    fun _ p h => (inv_powerOn 0 h).withHost p 0 .none⟩

/-- Settles O5: CMD is open to a write exactly while IDLE, and the write is the issue. -/
theorem issueStoresTheCommand : Obligations.IssueStoresTheCommand := by
  intro s v
  refine ⟨fun hb => ?_, fun hb => memWrite_reg_busy (r := .cmd) v rfl hb rfl,
    memRead_reg (r := .cmd) fun _ => rfl, fun c d => memRead_reg (r := .cmd) fun _ => rfl⟩
  exact ⟨s.issue v, Config.lat s.draws,
    memWrite_reg (r := .cmd) v rfl fun hb' => absurd (hb.symm.trans hb') Bool.false_ne_true, rfl, rfl⟩

/-- Settles O42: ID is readable in every state and read-only. -/
theorem identityIsConstant : Obligations.IdentityIsConstant :=
  fun s v => ⟨memRead_reg (r := .id) fun _ => rfl, memWrite_reg_readOnly s (r := .id) v rfl⟩

/-- Settles O50: STATUS is open in every state; its bits are `statusWord_bits` and `statusWord_high`. -/
theorem statusAcknowledge : Obligations.StatusAcknowledge := by
  intro s v
  obtain ⟨hbusy, hdone, herr, htree, hcodes⟩ := statusWord_bits s
  exact ⟨memWrite_reg (r := .status) v rfl fun _ => rfl, s.statusWord, memRead_reg (r := .status) fun _ => rfl,
    hbusy, hdone, herr, htree, hcodes, fun _ hj => statusWord_high s hj⟩

/-- Settles O52: the soft reset clears the registers to their power-on values, which are read off the state. -/
theorem powerOnValues : Obligations.PowerOnValues := by
  refine ⟨fun s r => softReset_regWord s s.draws r, fun c d => ?_⟩
  exact ⟨rfl, rfl, rfl, rfl, rfl, rfl, rfl, rfl, rfl, rfl, rfl, rfl, rfl, rfl, rfl, rfl, rfl, rfl, rfl, rfl,
    rfl, powerOn_entries c d, rfl, rfl⟩

/-- Settles O60: a register that BUSY does not close reads its value in every state, the others while IDLE. -/
theorem registersReadTheirValues : Obligations.RegistersReadTheirValues := by
  intro s
  refine ⟨memRead_reg (r := .errInfo) fun _ => rfl, memRead_reg (r := .capNsym) fun _ => rfl,
    memRead_reg (r := .capSymbuf) fun _ => rfl, memRead_reg (r := .capBitbuf) fun _ => rfl,
    memRead_reg (r := .capArt) fun _ => rfl, memRead_reg (r := .capTree) fun _ => rfl,
    memRead_reg (r := .capMaxcode) fun _ => rfl, fun hb => ?_⟩
  exact ⟨memRead_reg_idle hb .wtabLen, memRead_reg_idle hb .symCount, memRead_reg_idle hb .bitLen,
    memRead_reg_idle hb .artLen, memRead_reg_idle hb .treeLen, memRead_reg_idle hb .nodeCount,
    memRead_reg_idle hb .root, memRead_reg_idle hb .leafCount, memRead_reg_idle hb .maxLen⟩

end Sys2Proof.Machine
end

section
/-! SUPPORT. The address map (20_memory.md R66, R67): each location has a region and a place in it, and `locate`
and `locOffset` are inverse on aligned offsets. What the port answers at a mapped location's offset. -/

namespace Sys2Proof.Machine

/-- The number of the 4 MiB region a location lies in (20_memory.md R66). -/
def regionOf : Loc → Nat
  | .reg _ => 0
  | .wtab _ => 1
  | .ctab _ _ => 2
  | .node _ _ => 3
  | .symbuf _ => 4
  | .bitbuf _ => 5
  | .artbuf _ => 6
  | .treebuf _ => 7

/-- The offset of a location inside its region (20_memory.md R66). -/
def placeOf : Loc → Nat
  | .reg r => regOffset r
  | .wtab w | .symbuf w | .bitbuf w | .artbuf w | .treebuf w => 4 * w
  | .ctab i w => 16 * i + 4 * ctabWordIndex w
  | .node n w => 16 * n + 4 * nodeWordIndex w

theorem locOffset_eq (l : Loc) : locOffset l = 0x400000 * regionOf l + placeOf l := by
  cases l <;> simp only [locOffset, regionOf, placeOf, Nat.mul_zero, Nat.zero_add] <;> omega

theorem ctabWordIndex_lt (w : CtabWord) : ctabWordIndex w < 4 := by cases w <;> decide

theorem nodeWordIndex_lt (w : NodeWord) : nodeWordIndex w < 4 := by cases w <;> decide

theorem ctabWordAt_index (w : CtabWord) : ctabWordAt (ctabWordIndex w) = w := by cases w <;> rfl

theorem nodeWordAt_index (w : NodeWord) : nodeWordAt (nodeWordIndex w) = w := by cases w <;> rfl

theorem ctabWordIndex_at {k : Nat} (h : k < 4) : ctabWordIndex (ctabWordAt k) = k := by
  interval_cases k <;> rfl

theorem nodeWordIndex_at {k : Nat} (h : k < 4) : nodeWordIndex (nodeWordAt k) = k := by
  interval_cases k <;> rfl

theorem regAt_regOffset (r : Reg) : regAt (regOffset r) = some r := by cases r <;> rfl

theorem regOffset_of_regAt {off : Nat} {r : Reg} (h : regAt off = some r) : regOffset r = off := by
  unfold regAt at h
  split at h <;> cases h <;> rfl

theorem regOffset_lt (r : Reg) : regOffset r < 0x58 := by cases r <;> decide

theorem placeOf_aligned (l : Loc) : placeOf l % 4 = 0 := by
  cases l with
  | reg r => exact regOffset_aligned r
  | wtab _ | symbuf _ | bitbuf _ | artbuf _ | treebuf _ => exact Nat.mul_mod_right 4 _
  | ctab _ _ | node _ _ => simp only [placeOf]; omega

theorem locOffset_aligned (l : Loc) : locOffset l % 4 = 0 := by
  have := placeOf_aligned l
  rw [locOffset_eq]
  omega

/-- With legal parameters no mapped part is larger than its region (00_scope.md R7). -/
theorem placeOf_lt {c : Config} {l : Loc} (hl : c.legal = true) (hm : mapped c l = true) :
    placeOf l < 0x400000 := by
  obtain ⟨-, ⟨-, hnsym⟩, ⟨-, -, hsym⟩, ⟨-, -, hbit⟩, ⟨-, -, hart⟩, ⟨-, -, htree⟩⟩ := (legal_iff c).mp hl
  cases l with
  | reg r => exact (regOffset_lt r).trans (by decide)
  | wtab _ | symbuf _ | bitbuf _ | artbuf _ | treebuf _ =>
    simp only [mapped, decide_eq_true_eq] at hm
    simp only [placeOf]
    omega
  | ctab i w =>
    have := ctabWordIndex_lt w
    simp only [mapped, decide_eq_true_eq] at hm
    simp only [placeOf]
    omega
  | node n w =>
    have := nodeWordIndex_lt w
    rw [mapped, decide_eq_true_eq, Config.nodeMax] at hm
    simp only [placeOf]
    omega

/-- The location found at an aligned offset lies there: in its region, and at its place. -/
theorem regionLoc_some {a : Nat} {l : Loc} (h : regionLoc a = some l) :
    regionOf l = a / 0x400000 ∧ (a % 4 = 0 → placeOf l = a % 0x400000) := by
  unfold regionLoc at h
  simp only at h
  split at h
  · rename_i hr
    obtain ⟨r, hreg, rfl⟩ := Option.map_eq_some_iff.mp h
    exact ⟨hr.symm, fun _ => regOffset_of_regAt hreg⟩
  all_goals
    rename_i hr
    cases h
  case h_3 =>
    refine ⟨hr.symm, fun _ => ?_⟩
    rw [placeOf, ctabWordIndex_at (by omega)]
    omega
  case h_4 =>
    refine ⟨hr.symm, fun _ => ?_⟩
    rw [placeOf, nodeWordIndex_at (by omega)]
    omega
  all_goals exact ⟨hr.symm, fun _ => by simp only [placeOf]; omega⟩

/-- At a location's own offset that location is found. -/
theorem regionLoc_locOffset {l : Loc} (h : placeOf l < 0x400000) : regionLoc (locOffset l) = some l := by
  have hdiv : locOffset l / 0x400000 = regionOf l := by rw [locOffset_eq]; omega
  have hmod : locOffset l % 0x400000 = placeOf l := by rw [locOffset_eq]; omega
  unfold regionLoc
  rw [hdiv, hmod]
  cases l with
  | reg r => simp only [regionOf, placeOf, regAt_regOffset, Option.map_some]
  | wtab w | symbuf w | bitbuf w | artbuf w | treebuf w =>
    simp only [regionOf, placeOf, Nat.mul_div_cancel_left w (by decide : 0 < 4)]
  | ctab i w =>
    have hw := ctabWordIndex_lt w
    have hi : (16 * i + 4 * ctabWordIndex w) / 16 = i := by omega
    have hk : (16 * i + 4 * ctabWordIndex w) % 16 / 4 = ctabWordIndex w := by omega
    simp only [regionOf, placeOf, hi, hk, ctabWordAt_index]
  | node n w =>
    have hw := nodeWordIndex_lt w
    have hn : (16 * n + 4 * nodeWordIndex w) / 16 = n := by omega
    have hk : (16 * n + 4 * nodeWordIndex w) % 16 / 4 = nodeWordIndex w := by omega
    simp only [regionOf, placeOf, hn, hk, nodeWordAt_index]

theorem locate_iff (c : Config) (a : Nat) (l : Loc) :
    locate c a = some l ↔ regionLoc a = some l ∧ mapped c l = true := by
  unfold locate
  cases regionLoc a with
  | none => simp
  | some l' =>
    by_cases hm : mapped c l' = true
    · simp only [hm, if_true, Option.some.injEq]
      exact ⟨fun h => ⟨h, h ▸ hm⟩, And.left⟩
    · simp only [hm, Bool.false_eq_true, if_false, reduceCtorEq, Option.some.injEq, false_iff, not_and]
      exact fun h => h ▸ hm

theorem locate_locOffset {c : Config} {l : Loc} (hl : c.legal = true) (hm : mapped c l = true) :
    locate c (locOffset l) = some l :=
  (locate_iff ..).mpr ⟨regionLoc_locOffset (placeOf_lt hl hm), hm⟩

theorem locOffset_of_locate {c : Config} {a : Nat} {l : Loc} (ha : a % 4 = 0) (h : locate c a = some l) :
    locOffset l = a := by
  obtain ⟨hregion, hplace⟩ := regionLoc_some ((locate_iff ..).mp h).1
  rw [locOffset_eq, hregion, hplace ha]
  omega

theorem locOffset_lt {c : Config} {l : Loc} (hl : c.legal = true) (hm : mapped c l = true) :
    locOffset l < 0x2000000 := by
  have hplace := placeOf_lt hl hm
  have hregion : regionOf l ≤ 7 := by cases l <;> simp [regionOf]
  rw [locOffset_eq]
  omega

/-! ### The port's answers -/

/-- A read that is not accepted gets a bus error (20_memory.md R61, R65). -/
theorem memRead_busError {s : State} {a n : Nat} (h : ∀ d, memRead s a n ≠ .ok d) :
    ∃ c, memRead s a n = .error (.busError c) := by
  cases hr : memRead s a n with
  | ok d => exact absurd hr (h d)
  | error f =>
    obtain ⟨c, rfl⟩ := memRead_error hr
    exact ⟨c, rfl⟩

/-- A write that is not accepted gets a bus error (20_memory.md R62, R65). -/
theorem memWrite_busError {s : State} {a n : Nat} {v : Word} (h : ∀ t, memWrite s a n v ≠ .ok t) :
    ∃ c, memWrite s a n v = .error (.busError c) := by
  cases hw : memWrite s a n v with
  | ok t => exact absurd hw (h t)
  | error f =>
    obtain ⟨c, rfl⟩ := memWrite_error hw
    exact ⟨c, rfl⟩

/-- While the engine is IDLE a read of a mapped location returns its word. -/
theorem memRead_loc {s : State} {l : Loc} (hl : s.cfg.legal = true) (hb : s.busy = false)
    (hm : mapped s.cfg l = true) : memRead s (locOffset l) 4 = .ok (s.readLoc l) :=
  (memRead_ok_iff ..).mpr
    ⟨rfl, locOffset_aligned l, l, locate_locOffset hl hm,
      fun h => absurd (hb.symm.trans h) Bool.false_ne_true, rfl⟩

/-- While the engine is IDLE a write of a mapped writable location is stored. -/
theorem memWrite_loc {s : State} {l : Loc} (v : Word) (hl : s.cfg.legal = true) (hb : s.busy = false)
    (hm : mapped s.cfg l = true) (hr : readOnly l = false) :
    memWrite s (locOffset l) 4 v = .ok (s.writeLoc v l) :=
  (memWrite_ok_iff ..).mpr
    ⟨rfl, locOffset_aligned l, l, locate_locOffset hl hm, hr,
      fun h => absurd (hb.symm.trans h) Bool.false_ne_true, rfl⟩

/-- BUSY_READABLE, in the order of 20_memory.md R69. -/
def busyReadableRegs : List Reg :=
  [.id, .ctrl, .status, .cmd, .errCode, .errInfo, .capNsym, .capSymbuf, .capBitbuf, .capArt, .capTree,
    .capMaxcode]

/-- BUSY_WRITABLE (20_memory.md R69). -/
def busyWritableRegs : List Reg := [.ctrl, .status]

theorem busyReadable_iff (l : Loc) : busyReadable l = true ↔ ∃ r ∈ busyReadableRegs, l = .reg r := by
  cases l with
  | reg r => cases r <;> decide
  | wtab _ | ctab _ _ | node _ _ | symbuf _ | bitbuf _ | artbuf _ | treebuf _ => simp [busyReadable]

theorem busyWritable_iff (l : Loc) : busyWritable l = true ↔ ∃ r ∈ busyWritableRegs, l = .reg r := by
  simp [busyWritable, busyWritableRegs]

/-- While BUSY = 1 a read is accepted exactly at the offset of a register of BUSY_READABLE. -/
theorem memRead_busy_ok_iff {s : State} {a n : Nat} (hb : s.busy = true) :
    (∃ d, memRead s a n = .ok d) ↔ n = 4 ∧ a ∈ busyReadableRegs.map regOffset := by
  simp only [List.mem_map]
  constructor
  · rintro ⟨d, h⟩
    obtain ⟨hn, ha, l, hl, hr, -⟩ := (memRead_ok_iff ..).mp h
    obtain ⟨r, hmem, rfl⟩ := (busyReadable_iff l).mp (hr hb)
    exact ⟨hn, r, hmem, locOffset_of_locate ha hl⟩
  · rintro ⟨rfl, r, hmem, rfl⟩
    exact ⟨_, memRead_reg fun _ => (busyReadable_iff _).mpr ⟨r, hmem, rfl⟩⟩

/-- While BUSY = 1 a write is accepted exactly at the offset of a register of BUSY_WRITABLE. -/
theorem memWrite_busy_ok_iff {s : State} {a n : Nat} {v : Word} (hb : s.busy = true) :
    (∃ t, memWrite s a n v = .ok t) ↔ n = 4 ∧ a ∈ busyWritableRegs.map regOffset := by
  simp only [List.mem_map]
  constructor
  · rintro ⟨t, h⟩
    obtain ⟨hn, ha, l, hl, -, hw, -⟩ := (memWrite_ok_iff ..).mp h
    obtain ⟨r, hmem, rfl⟩ := (busyWritable_iff l).mp (hw hb)
    exact ⟨hn, r, hmem, locOffset_of_locate ha hl⟩
  · rintro ⟨rfl, r, hmem, rfl⟩
    have hwritable : ∀ r ∈ busyWritableRegs, readOnly (.reg r) = false := by decide
    exact ⟨_, memWrite_reg v (hwritable r hmem) fun _ => (busyWritable_iff _).mpr ⟨r, hmem, rfl⟩⟩

/-! ### The read-only locations and the reserved bits (20_memory.md R68) -/

/-- The read-only registers, in the order of 10_state.md R23. -/
def readOnlyRegs : List Reg :=
  [.id, .errCode, .errInfo, .nodeCount, .root, .leafCount, .maxLen, .capNsym, .capSymbuf, .capBitbuf, .capArt,
    .capTree, .capMaxcode]

/-- No write to an offset of the CTAB and NODE windows is accepted, in any state. -/
theorem memWrite_window_ne_ok {s : State} {a n : Nat} {v : Word} (ha : 0x0800000 ≤ a) (ha' : a < 0x1000000)
    (t : State) : memWrite s a n v ≠ .ok t := by
  intro h
  obtain ⟨-, -, l, hl, hr, -⟩ := (memWrite_ok_iff ..).mp h
  have hregion := (regionLoc_some ((locate_iff ..).mp hl).1).1
  cases l with
  | ctab _ _ | node _ _ => exact Bool.noConfusion hr
  | reg _ | wtab _ | symbuf _ | bitbuf _ | artbuf _ | treebuf _ =>
    simp only [regionOf] at hregion
    omega

theorem writeCtrl_congr (s : State) {v v' : Word} (h0 : v.getLsbD 0 = v'.getLsbD 0)
    (h1 : v.getLsbD 1 = v'.getLsbD 1) : s.writeCtrl v = s.writeCtrl v' := by
  simp only [State.writeCtrl, h0, h1]

theorem writeStatus_congr (s : State) {v v' : Word} (h1 : v.getLsbD 1 = v'.getLsbD 1)
    (h2 : v.getLsbD 2 = v'.getLsbD 2) : s.writeStatus v = s.writeStatus v' := by
  simp only [State.writeStatus, h1, h2]

end Sys2Proof.Machine
end

section
/-! SUPPORT. The word views of the RAM windows (20_memory.md R70 to R75): the lanes of a word, what a read of a
window shows after a write to it, and that a write to one location leaves the other locations alone. -/

namespace Sys2Proof.Machine

open Sys2Proof.Claims

/-! ### Lanes of a word -/

/-- Byte lane `j` of the word of four bytes is byte `j` (20_memory.md R70). -/
theorem wordOfBytes_extract (b : Nat → Byte) {j : Nat} (h : j < 4) :
    (wordOfBytes (b 0) (b 1) (b 2) (b 3)).extractLsb' (8 * j) 8 = b j := by
  obtain ⟨h0, h1, h2, h3⟩ := wordOfBytes_lane (b 0) (b 1) (b 2) (b 3)
  interval_cases j
  · exact h0
  · exact h1
  · exact h2
  · exact h3

theorem bytesOfWord_getElem? (v : Word) {j : Nat} (h : j < 4) :
    (bytesOfWord v)[j]? = some (v.extractLsb' (8 * j) 8) := by
  interval_cases j <;> rfl

/-- Bit `k` of byte lane `j`. -/
theorem getLsbD_lane (v : Word) (j : Nat) {k : Nat} (h : k < 8) :
    v.getLsbD (8 * j + k) = (v.extractLsb' (8 * j) 8).getLsbD k := by
  simp [h]

/-- Bit `i` of the bitstring of a word is bit 7 − (i mod 8) of byte lane i/8 (20_memory.md R71). -/
theorem bitsOfBytes_bytesOfWord (v : Word) {i : Nat} (h : i < 32) :
    (bitsOfBytes (bytesOfWord v))[i]? = some (v.getLsbD (8 * (i / 8) + (7 - i % 8))) := by
  rw [bitsOfBytes_getElem?, bytesOfWord_getElem? v (by omega), Option.map_some, getLsbD_lane v _ (by omega)]

theorem byteOfBits_getLsbD (b : Nat → Bool) {k : Nat} (h : k < 8) :
    (byteOfBits (b 0) (b 1) (b 2) (b 3) (b 4) (b 5) (b 6) (b 7)).getLsbD (7 - k) = b k := by
  have hbits := congrArg (·[k]?) (bits8_byteOfBits (b 0) (b 1) (b 2) (b 3) (b 4) (b 5) (b 6) (b 7))
  simp only [bits8_getElem?, h, if_true] at hbits
  interval_cases k <;> exact Option.some.inj hbits

/-- Bit 7 − k of byte `j` of BITBUF is bit 8·j + k of the bitstring (20_memory.md R71). -/
theorem bitByte_getLsbD (s : State) (j : Nat) {k : Nat} (h : k < 8) :
    (s.bitByte j).getLsbD (7 - k) = s.bitAt (8 * j + k) :=
  byteOfBits_getLsbD (fun k => s.bitAt (8 * j + k)) h

/-- The two halves of a word (20_memory.md R72). -/
theorem append_halves (v : Word) : v.extractLsb' 16 16 ++ v.extractLsb' 0 16 = v :=
  BitVec.extractLsb'_append_extractLsb'_eq_extractLsb' (by decide) |>.trans BitVec.extractLsb'_eq_self

theorem eq_of_lanes {v v' : Word}
    (h : ∀ j, j < 4 → v.extractLsb' (8 * j) 8 = v'.extractLsb' (8 * j) 8) : v = v' := by
  rw [← wordOfBytes_bytesOfWord v, ← wordOfBytes_bytesOfWord v', h 0 (by decide), h 1 (by decide),
    h 2 (by decide), h 3 (by decide)]

theorem eq_of_halves {v v' : Word}
    (h : ∀ j, j < 2 → v.extractLsb' (16 * j) 16 = v'.extractLsb' (16 * j) 16) : v = v' := by
  rw [← append_halves v, ← append_halves v', h 0 (by decide), h 1 (by decide)]

/-- The bit order of BITBUF reaches every bit of a word. -/
theorem eq_of_bitOrder {v v' : Word}
    (h : ∀ i, i < 32 → v.getLsbD (8 * (i / 8) + (7 - i % 8)) = v'.getLsbD (8 * (i / 8) + (7 - i % 8))) :
    v = v' := by
  apply BitVec.eq_of_getLsbD_eq
  intro k hk
  have hbit := h (8 * (k / 8) + (7 - k % 8)) (by omega)
  rwa [show 8 * ((8 * (k / 8) + (7 - k % 8)) / 8) + (7 - (8 * (k / 8) + (7 - k % 8)) % 8) = k by omega] at hbit

/-! ### A bulk write -/

section
variable {α : Type} (any : Nat → Nat → α) (r : Ram α)

/-- Inside the written range a read shows the written value. -/
theorem read_writeFrom_at {vs : List α} (i : Nat) {k : Nat} {x : α} (h : vs[k]? = some x) :
    (r.writeFrom i vs).read any (i + k) = x := by
  rw [read_writeFrom, if_pos (Nat.le_add_right i k), Nat.add_sub_cancel_left, h, Option.getD_some]

/-- Outside the written range a read shows the old value. -/
theorem read_writeFrom_outside {vs : List α} {i j : Nat} (h : j < i ∨ i + vs.length ≤ j) :
    (r.writeFrom i vs).read any j = r.read any j := by
  rw [read_writeFrom]
  split
  · rw [List.getElem?_eq_none (by omega), Option.getD_none]
  · rfl

/-- A write of word `w` leaves the entries of every other word alone, where a word holds `n` entries. -/
theorem read_writeFrom_otherWord {vs : List α} {n w w' k : Nat} (hn : vs.length = n) (h : w' ≠ w) (hk : k < n) :
    (r.writeFrom (n * w) vs).read any (n * w' + k) = r.read any (n * w' + k) := by
  apply read_writeFrom_outside
  rw [hn]
  rcases Nat.lt_or_gt_of_ne h with h | h
  · have := Nat.mul_le_mul_left n (Nat.succ_le_of_lt h)
    rw [Nat.mul_succ] at this
    exact .inl (by omega)
  · have := Nat.mul_le_mul_left n (Nat.succ_le_of_lt h)
    rw [Nat.mul_succ] at this
    exact .inr (by omega)

end

/-! ### What a read of a window shows, entry by entry -/

section
variable (s : State) (v : Word) (w : Nat)

theorem readLoc_artbuf_lane {j : Nat} (h : j < 4) :
    (s.readLoc (.artbuf w)).extractLsb' (8 * j) 8 = s.artByte (4 * w + j) :=
  wordOfBytes_extract (fun j => s.artByte (4 * w + j)) h

theorem readLoc_treebuf_lane {j : Nat} (h : j < 4) :
    (s.readLoc (.treebuf w)).extractLsb' (8 * j) 8 = s.treeByte (4 * w + j) :=
  wordOfBytes_extract (fun j => s.treeByte (4 * w + j)) h

theorem readLoc_bitbuf_lane {j : Nat} (h : j < 4) :
    (s.readLoc (.bitbuf w)).extractLsb' (8 * j) 8 = s.bitByte (4 * w + j) :=
  wordOfBytes_extract (fun j => s.bitByte (4 * w + j)) h

theorem readLoc_bitbuf_bit {i : Nat} (h : i < 32) :
    (s.readLoc (.bitbuf w)).getLsbD (8 * (i / 8) + (7 - i % 8)) = s.bitAt (32 * w + i) := by
  rw [getLsbD_lane _ _ (by omega), readLoc_bitbuf_lane s w (by omega), bitByte_getLsbD s _ (by omega)]
  congr 1
  omega

theorem readLoc_symbuf_half {j : Nat} (h : j < 2) :
    (s.readLoc (.symbuf w)).extractLsb' (16 * j) 16 = s.symAt (2 * w + j) := by
  interval_cases j
  · exact BitVec.extractLsb'_append_eq_right
  · exact BitVec.extractLsb'_append_eq_left

/-! ### What a write of a window stores, entry by entry -/

theorem writeLoc_artbuf_byte {j : Nat} (h : j < 4) :
    (s.writeLoc v (.artbuf w)).artByte (4 * w + j) = v.extractLsb' (8 * j) 8 :=
  read_writeFrom_at _ _ _ (bytesOfWord_getElem? v h)

theorem writeLoc_treebuf_byte {j : Nat} (h : j < 4) :
    (s.writeLoc v (.treebuf w)).treeByte (4 * w + j) = v.extractLsb' (8 * j) 8 :=
  read_writeFrom_at _ _ _ (bytesOfWord_getElem? v h)

theorem writeLoc_bitbuf_bit {i : Nat} (h : i < 32) :
    (s.writeLoc v (.bitbuf w)).bitAt (32 * w + i) = v.getLsbD (8 * (i / 8) + (7 - i % 8)) :=
  read_writeFrom_at _ _ _ (bitsOfBytes_bytesOfWord v h)

theorem writeLoc_symbuf_entry {j : Nat} (h : j < 2) :
    (s.writeLoc v (.symbuf w)).symAt (2 * w + j) = v.extractLsb' (16 * j) 16 :=
  read_writeFrom_at _ _ _ (by interval_cases j <;> rfl)

end

/-! ### A read after a write -/

/-- A write of a length register changes that register's word only (10_state.md R30). -/
theorem regWord_writeReg (s : State) (v : Word) {r : Reg} (h : plainStorage (.reg r) = true) (r' : Reg) :
    (s.writeReg v r).regWord r' = if r' = r then v else s.regWord r' := by
  cases r with
  | wtabLen | symCount | bitLen | artLen | treeLen => cases r' <;> rfl
  | _ => cases h

/-- A location that only stores shows what was written to it (20_memory.md R62). -/
theorem readLoc_writeLoc_self (s : State) (v : Word) {l : Loc} (h : plainStorage l = true) :
    (s.writeLoc v l).readLoc l = v := by
  cases l with
  | reg r => exact (regWord_writeReg s v h r).trans (if_pos rfl)
  | ctab _ _ | node _ _ => cases h
  | wtab i => exact read_write_self ..
  | symbuf w =>
    exact eq_of_halves fun j hj => (readLoc_symbuf_half _ w hj).trans (writeLoc_symbuf_entry s v w hj)
  | bitbuf w =>
    exact eq_of_bitOrder fun i hi => (readLoc_bitbuf_bit _ w hi).trans (writeLoc_bitbuf_bit s v w hi)
  | artbuf w =>
    exact eq_of_lanes fun j hj => (readLoc_artbuf_lane _ w hj).trans (writeLoc_artbuf_byte s v w hj)
  | treebuf w =>
    exact eq_of_lanes fun j hj => (readLoc_treebuf_lane _ w hj).trans (writeLoc_treebuf_byte s v w hj)

/-- Other contents of BITBUF show in the BITBUF window only. -/
theorem readLoc_withBitbuf (s : State) (r : Ram Bool) {l : Loc} (h : ∀ w, l ≠ .bitbuf w) :
    ({ s with mem := { s.mem with bitbuf := r } } : State).readLoc l = s.readLoc l := by
  cases l with
  | bitbuf w => exact absurd rfl (h w)
  | _ => rfl

/-- A write to a location that only stores leaves every other location alone (20_memory.md R62). -/
theorem readLoc_writeLoc_other (s : State) (v : Word) {l l' : Loc} (hp : plainStorage l = true) (h : l' ≠ l) :
    (s.writeLoc v l).readLoc l' = s.readLoc l' := by
  cases l with
  | ctab _ _ | node _ _ => cases hp
  | reg r => cases l' with
    | reg r' => exact (regWord_writeReg s v hp r').trans (if_neg fun e => h (congrArg Loc.reg e))
    | _ => cases r with
      | wtabLen | symCount | bitLen | artLen | treeLen => rfl
      | _ => cases hp
  | wtab i => cases l' with
    | wtab i' => exact read_write_other _ _ v fun e => h (congrArg Loc.wtab e)
    | _ => rfl
  | symbuf w => cases l' with
    | symbuf w' =>
      refine eq_of_halves fun j hj => ?_
      rw [readLoc_symbuf_half _ w' hj, readLoc_symbuf_half _ w' hj]
      exact read_writeFrom_otherWord _ _ rfl (fun e => h (congrArg Loc.symbuf e)) hj
    | _ => rfl
  | bitbuf w => cases l' with
    | bitbuf w' =>
      refine eq_of_bitOrder fun i hi => ?_
      rw [readLoc_bitbuf_bit _ w' hi, readLoc_bitbuf_bit _ w' hi]
      exact read_writeFrom_otherWord _ _ (bitsOfBytes_length _) (fun e => h (congrArg Loc.bitbuf e)) hi
    | _ => exact readLoc_withBitbuf s _ fun _ => Loc.noConfusion
  | artbuf w => cases l' with
    | artbuf w' =>
      refine eq_of_lanes fun j hj => ?_
      rw [readLoc_artbuf_lane _ w' hj, readLoc_artbuf_lane _ w' hj]
      exact read_writeFrom_otherWord _ _ (bytesOfWord_length v) (fun e => h (congrArg Loc.artbuf e)) hj
    | _ => rfl
  | treebuf w => cases l' with
    | treebuf w' =>
      refine eq_of_lanes fun j hj => ?_
      rw [readLoc_treebuf_lane _ w' hj, readLoc_treebuf_lane _ w' hj]
      exact read_writeFrom_otherWord _ _ (bytesOfWord_length v) (fun e => h (congrArg Loc.treebuf e)) hj
    | _ => rfl

theorem writeLoc_cfg (s : State) (v : Word) (l : Loc) : (s.writeLoc v l).cfg = s.cfg := by
  cases l with
  | reg r => cases r with
    | ctrl =>
      simp only [State.writeLoc, State.writeReg, State.writeCtrl]
      split
      · exact softReset_cfg s
      · rfl
    | _ => rfl
  | _ => simp only [State.writeLoc]

theorem writeLoc_busy_of_plainStorage (s : State) (v : Word) {l : Loc} (h : plainStorage l = true) :
    (s.writeLoc v l).busy = s.busy := by
  cases l with
  | reg r => cases r with
    | wtabLen | symCount | bitLen | artLen | treeLen => rfl
    | _ => cases h
  | _ => simp only [State.writeLoc, State.busy]

theorem readOnly_of_plainStorage {l : Loc} (h : plainStorage l = true) : readOnly l = false := by
  cases l with
  | reg r => cases r with
    | wtabLen | symCount | bitLen | artLen | treeLen => rfl
    | _ => cases h
  | ctab _ _ | node _ _ => cases h
  | _ => rfl

/-! ### The CTAB and NODE windows (20_memory.md R74, R75) -/

section
variable {s : State} (hl : s.cfg.legal = true) (hb : s.busy = false)
include hl hb

theorem memRead_ctab {i : Nat} (hi : i < s.cfg.nsym) (w : CtabWord) :
    memRead s (0x0800000 + 16 * i + 4 * ctabWordIndex w) 4 = .ok (codeWordOf (s.ctabAt i) w) :=
  memRead_loc (l := .ctab i w) hl hb (decide_eq_true (by omega))

theorem memRead_node {n : Nat} (hn : n < s.cfg.nodeMax) (w : NodeWord) :
    memRead s (0x0C00000 + 16 * n + 4 * nodeWordIndex w) 4 = .ok (s.nodeWindow n w) :=
  memRead_loc (l := .node n w) hl hb (decide_eq_true (by omega))

/-- An entry that holds no node of the tree reads as free words (20_memory.md R75, log 9). -/
theorem memRead_node_any {n k : Nat} (hn : n < s.cfg.nodeMax) (hk : k < 4)
    (h : s.treeValid = false ∨ s.nodeCount.toNat ≤ n) :
    memRead s (0x0C00000 + 16 * n + 4 * k) 4 = .ok (Config.anyNodeWord s.nodeView (4 * n + k)) := by
  have hread := memRead_node hl hb hn (nodeWordAt k)
  have hany : ¬ (s.treeValid = true ∧ n < s.nodeCount.toNat) := by
    rintro ⟨hv, hlt⟩
    rcases h with h | h
    · exact Bool.false_ne_true (h.symm.trans hv)
    · omega
  rwa [State.nodeWindow, if_neg hany, nodeWordIndex_at hk] at hread

/-- An entry of the tree reads as the fields of its node (20_memory.md R75). -/
theorem memRead_node_tree {n : Nat} (hn : n < s.cfg.nodeMax) (hv : s.treeValid = true)
    (hc : n < s.nodeCount.toNat) (w : NodeWord) :
    memRead s (0x0C00000 + 16 * n + 4 * nodeWordIndex w) 4 = .ok (nodeWordOf (s.nodeAt n) w) := by
  rw [memRead_node hl hb hn w, State.nodeWindow, if_pos ⟨hv, hc⟩]

end

theorem phase_idle_of_not_busy {s : State} (h : s.busy = false) : s.phase = .idle := by
  unfold State.busy at h
  split at h
  · assumption
  · cases h

theorem writeCtrl_softReset (s : State) {v : Word} (h : v.getLsbD 1 = true) : s.writeCtrl v = s.softReset := by
  rw [State.writeCtrl, if_pos h]

/-- A soft reset while IDLE abandons nothing, so the NODE window keeps its draw (70_reset_and_hazards.md R251). -/
theorem softReset_nodeView_idle {s : State} (h : s.busy = false) : s.softReset.nodeView = s.nodeView := by
  rw [softReset_nodeView, abandon_idle (phase_idle_of_not_busy h)]

end Sys2Proof.Machine
end

section
/-! SUPPORT. How a step can stop. -/

namespace Sys2Proof.Machine

/-- A step stops by a bus error of the host's access, or by a command whose arena holds no tree; it is never
refused (20_memory.md R65, log 10). -/
theorem step_stops (s : State) :
    (∃ t, step s = .next t) ∨ (∃ c, step s = .fault (.busError c)) ∨
      (s.treeValid = true ∧ s.tree = none ∧ step s = .fault .arenaNotTree) := by
  rcases step_cases s with ⟨_, e⟩ | ⟨w, n, _, e⟩ | ⟨_, i, _, _, e⟩ | ⟨_, _, _, _, e⟩ <;> rw [e]
  · exact (hostTurn_stops s).imp_right .inl
  · exact (hostTurn_stops _).imp_right .inl
  · exact (exec_stops i s).imp_right .inr
  · exact .inl ⟨_, rfl⟩

end Sys2Proof.Machine
end

section
/-! PROOFS. The statements about the port and the memory map (20_memory.md). -/

namespace Sys2Proof.Machine

/-- Settles O43: an accepted access is one word at a multiple of 4, so any other gets a bus error. -/
theorem badAccessFormsAreBusErrors : Obligations.BadAccessFormsAreBusErrors := by
  intro s a n v hbad
  refine ⟨memRead_busError fun d h => ?_, memWrite_busError fun t h => ?_⟩
  · obtain ⟨hn, ha, -⟩ := (memRead_ok_iff ..).mp h
    exact hbad.elim (absurd hn) (absurd ha)
  · obtain ⟨hn, ha, -⟩ := (memWrite_ok_iff ..).mp h
    exact hbad.elim (absurd hn) (absurd ha)

/-- Settles O44: `locate` and `locOffset` are inverse, and an accepted access has a location. -/
theorem mappedOffsetsAreLocations : Obligations.MappedOffsetsAreLocations := by
  refine ⟨fun c l hl hm => ⟨locOffset_aligned l, locOffset_lt hl hm, locate_locOffset hl hm⟩,
    fun c a l ha hloc => ⟨mapped_of_locate hloc, locOffset_of_locate ha hloc⟩, fun s a n v hnone => ?_⟩
  refine ⟨memRead_busError fun d h => ?_, memWrite_busError fun t h => ?_⟩
  · obtain ⟨-, -, l, hl, -⟩ := (memRead_ok_iff ..).mp h
    cases hnone.symm.trans hl
  · obtain ⟨-, -, l, hl, -⟩ := (memWrite_ok_iff ..).mp h
    cases hnone.symm.trans hl

/-- Settles O45: the two lists are the offsets of BUSY_READABLE and BUSY_WRITABLE. -/
theorem busyAcceptsOnlyStatusAndControl : Obligations.BusyAcceptsOnlyStatusAndControl :=
  fun _ _ _ _ hb => ⟨memRead_busy_ok_iff hb, memWrite_busy_ok_iff hb⟩

/-- Settles O46: the listed offsets are those of the read-only registers and of the two windows; CTRL and STATUS
look at two bits each; CMD keeps the whole word (log 23). -/
theorem readOnlyLocationsRejectWrites : Obligations.ReadOnlyLocationsRejectWrites := by
  intro s a v v'
  refine ⟨fun ha => ?_, fun h0 h1 => ?_, fun h1 h2 => ?_, fun hb => ?_⟩
  · rcases ha with hreg | ⟨hge, hlt⟩
    · have hreadOnly : ∀ r ∈ readOnlyRegs, readOnly (.reg r) = true := by decide
      obtain ⟨r, hr, rfl⟩ : ∃ r ∈ readOnlyRegs, regOffset r = a := List.mem_map.mp hreg
      exact ⟨_, memWrite_reg_readOnly s v (hreadOnly r hr)⟩
    · exact memWrite_busError (memWrite_window_ne_ok hge hlt)
  · have hw : ∀ u, memWrite s 0x004 4 u = .ok (s.writeCtrl u) :=
      fun u => memWrite_reg (r := .ctrl) u rfl fun _ => rfl
    exact ⟨by rw [hw, hw, writeCtrl_congr s h0 h1], _, hw v⟩
  · have hw : ∀ u, memWrite s 0x008 4 u = .ok (s.writeStatus u) :=
      fun u => memWrite_reg (r := .status) u rfl fun _ => rfl
    exact ⟨by rw [hw, hw, writeStatus_congr s h1 h2], _, hw v⟩
  · exact ⟨s.issue v, memWrite_reg (r := .cmd) v rfl fun hb' => absurd (hb.symm.trans hb') Bool.false_ne_true,
      rfl, memRead_reg (r := .cmd) fun _ => rfl⟩

/-- Settles O47: the lanes of each window, as a read shows them and as a write stores them. -/
theorem wordLanes : Obligations.WordLanes :=
  fun s v w =>
    ⟨fun _ h => ⟨readLoc_artbuf_lane s w h, writeLoc_artbuf_byte s v w h, readLoc_treebuf_lane s w h,
        writeLoc_treebuf_byte s v w h⟩,
      fun _ h => ⟨readLoc_bitbuf_bit s w h, writeLoc_bitbuf_bit s v w h⟩,
      fun _ h => ⟨readLoc_symbuf_half s w h, writeLoc_symbuf_entry s v w h⟩⟩

/-- Settles O48: the views of the two windows; a soft reset while IDLE keeps the draw of the NODE window and
leaves no tree, so a free word stays what it was. -/
theorem codeAndNodeWindows : Obligations.CodeAndNodeWindows := by
  refine ⟨fun s v hb hv hl => ?_, fun s hb => ⟨fun i hi hl => ?_, fun n hn hl =>
    ⟨fun htv hc => ?_, fun h k hk => memRead_node_any hl hb hn hk h⟩⟩⟩
  · refine ⟨s.softReset, ?_, fun n k hn hk h => ?_⟩
    · rw [← writeCtrl_softReset s hv]
      exact memWrite_reg (r := .ctrl) v rfl fun _ => rfl
    · have hcfg := softReset_cfg s
      rw [memRead_node_any hl hb hn hk h,
        memRead_node_any (s := s.softReset) (hcfg ▸ hl) rfl (hcfg ▸ hn) hk (.inl rfl), softReset_nodeView_idle hb]
  · exact ⟨memRead_ctab hl hb hi .len, memRead_ctab hl hb hi .hi, memRead_ctab hl hb hi .lo,
      memRead_ctab hl hb hi .zero⟩
  · have hread := memRead_node_tree hl hb hn htv hc
    refine ⟨fun w x hnode => ?_, fun w l r f hnode => ?_⟩ <;> rw [hnode] at hread
    · exact ⟨hread .kind, hread .weight, hread .a, hread .b⟩
    · exact ⟨hread .kind, hread .weight, hread .a, hread .b⟩

/-- Settles O49: the write is stored, shows at its own location, and shows at no other. -/
theorem writeThenReadGivesTheValue : Obligations.WriteThenReadGivesTheValue := by
  intro s l v hl hb hm hp
  have hcfg : (s.writeLoc v l).cfg = s.cfg := writeLoc_cfg s v l
  have hbusy : (s.writeLoc v l).busy = false := (writeLoc_busy_of_plainStorage s v hp).trans hb
  refine ⟨s.writeLoc v l, memWrite_loc v hl hb hm (readOnly_of_plainStorage hp), ?_,
    fun l' _ hne => readLoc_writeLoc_other s v hp hne⟩
  rw [memRead_loc (hcfg ▸ hl) hbusy (hcfg ▸ hm), readLoc_writeLoc_self s v hp]

/-- Settles O57: the host stops by bus errors only, and a command only where the arena holds no tree, which the
invariant excludes. -/
theorem onlyBusErrorsStop : Obligations.OnlyBusErrorsStop := by
  refine ⟨fun s f hi hf => ?_, fun s r hr => ?_⟩
  · rcases step_stops s with ⟨t, h⟩ | ⟨c, h⟩ | ⟨hv, hnone, h⟩
    · cases h.symm.trans hf
    · exact ⟨c, Host.Outcome.fault.inj (hf.symm.trans h)⟩
    · obtain ⟨t, _, htree, -⟩ := tree_of_arenaOk (hi.tree hv)
      cases hnone.symm.trans htree
  · rcases step_stops s with ⟨t, h⟩ | ⟨c, h⟩ | ⟨_, _, h⟩ <;> cases h.symm.trans hr

end Sys2Proof.Machine
end

section
/-! SUPPORT. The decoder (30_encoding.md R90 to R96): the two fields make up the word, and which of the three
answers `decode` gives is read off them. -/

namespace Sys2Proof

theorem rsvdField_append_opField (w : Word) : rsvdField w ++ opField w = w :=
  BitVec.extractLsb'_append_extractLsb'_eq_extractLsb' (by decide) |>.trans BitVec.extractLsb'_eq_self

theorem toNat_opField (w : Word) : (opField w).toNat = w.toNat % 0x100 := by
  simp [opField]

theorem rsvdField_eq_zero_iff (w : Word) : rsvdField w = 0 ↔ w.toNat < 0x100 := by
  have hw := w.isLt
  rw [← BitVec.toNat_inj, rsvdField, BitVec.extractLsb'_toNat, Nat.shiftRight_eq_div_pow]
  change w.toNat / 256 % 16777216 = 0 ↔ _
  omega

/-- Every command's word has its row of the opcode map. -/
theorem commandWord (i : Instr) : Laws.CommandWord.Statement i := by
  cases i
  case nop => exact Laws.CommandWord.nop
  case build => exact Laws.CommandWord.build
  case genCodes => exact Laws.CommandWord.genCodes
  case encode => exact Laws.CommandWord.encode
  case pack => exact Laws.CommandWord.pack
  case unpack => exact Laws.CommandWord.unpack
  case decode => exact Laws.CommandWord.decode
  case serialize => exact Laws.CommandWord.serialize
  case deserialize => exact Laws.CommandWord.deserialize

theorem decode_encode (i : Instr) : decode (encode i) = .ok i := by
  obtain ⟨_, hrsvd, hop⟩ := commandWord i
  simp [decode, hrsvd, hop]

/-- The opcode map has exactly the nine rows 0x00 to 0x08 (30_encoding.md R92, R93). -/
theorem opcodeMap_cases (op : BitVec 8) :
    (0x09 ≤ op.toNat ∧ opcodeMap op = none) ∨
      (op.toNat < 0x09 ∧ ∃ i, op = opField (encode i) ∧ opcodeMap op = some i) := by
  unfold opcodeMap
  split
  case h_10 =>
    have hop : 0x09 ≤ op.toNat := by simp only [imp_false] at *; omega
    exact .inl ⟨hop, rfl⟩
  all_goals exact .inr ⟨by omega, _, BitVec.eq_of_toNat_eq ‹_›, rfl⟩

/-- What a command word is: refused for its reserved bits, refused for its OP, or the word of a command. The
fields decide which (30_encoding.md R93, R94, R96). -/
theorem decode_cases (w : Word) :
    (rsvdField w ≠ 0 ∧ decode w = .error .reservedBits) ∨
    (rsvdField w = 0 ∧ 0x09 ≤ (opField w).toNat ∧ decode w = .error .reservedOp) ∨
    (rsvdField w = 0 ∧ (opField w).toNat < 0x09 ∧ ∃ i, w = encode i ∧ decode w = .ok i) := by
  by_cases hrsvd : rsvdField w = 0
  · rcases opcodeMap_cases (opField w) with ⟨hop, hmap⟩ | ⟨hop, i, hfield, hmap⟩
    · exact .inr (.inl ⟨hrsvd, hop, by simp [decode, hrsvd, hmap]⟩)
    · obtain ⟨_, hrsvd', _⟩ := commandWord i
      have hword : w = encode i := by
        rw [← rsvdField_append_opField w, ← rsvdField_append_opField (encode i), hrsvd, hfield, hrsvd']
      exact .inr (.inr ⟨hrsvd, hop, i, hword, by simp [decode, hrsvd, hmap]⟩)
  · exact .inl ⟨hrsvd, if_pos hrsvd⟩

theorem decode_eq_ok_iff (w : Word) (i : Instr) : decode w = .ok i ↔ w = encode i := by
  refine ⟨fun h => ?_, fun h => h ▸ decode_encode i⟩
  rcases decode_cases w with ⟨_, e⟩ | ⟨_, _, e⟩ | ⟨_, _, j, hword, e⟩
  · cases e.symm.trans h
  · cases e.symm.trans h
  · cases e.symm.trans h
    exact hword

theorem decode_eq_reservedBits_iff (w : Word) : decode w = .error .reservedBits ↔ rsvdField w ≠ 0 := by
  rcases decode_cases w with ⟨hrsvd, e⟩ | ⟨hrsvd, _, e⟩ | ⟨hrsvd, _, _, _, e⟩
  · exact iff_of_true e hrsvd
  · simp [e, hrsvd]
  · simp [e, hrsvd]

theorem decode_eq_reservedOp_iff (w : Word) :
    decode w = .error .reservedOp ↔ rsvdField w = 0 ∧ 0x09 ≤ (opField w).toNat := by
  rcases decode_cases w with ⟨hrsvd, e⟩ | ⟨hrsvd, hop, e⟩ | ⟨hrsvd, hop, _, _, e⟩
  · exact iff_of_false (by simp [e]) fun h => hrsvd h.1
  · exact iff_of_true e ⟨hrsvd, hop⟩
  · exact iff_of_false (by simp [e]) fun h => absurd h.2 (Nat.not_le_of_lt hop)

end Sys2Proof

namespace Sys2Proof.Machine

/-- The completion step of a refused word (30_encoding.md R93, R94). -/
theorem step_of_decode_error {s : State} {w : Word} {e : DecodeError} (hphase : s.phase = .running w 0)
    (he : decode w = .error e) : step s = .next (s.complete .illegalCmd w) := by
  simp only [step, hphase, he, illegalCommand_eq]

end Sys2Proof.Machine
end

section
/-! SUPPORT. PACK's success (42_bit_packer.md R160, R161): with legal parameters the artifact of a bitstring of
BITBUF fits ARTBUF, and what ARTBUF shows after it is written. -/

namespace Sys2Proof.Machine

open Sys2Proof.Claims

theorem artifactLength_le_artMax {c : Config} {n : Nat} (hc : c.legal = true) (hn : n ≤ c.bitbufBits) :
    artifactLength n ≤ c.artMax := by
  obtain ⟨-, -, -, -, ⟨-, hart, -⟩, -⟩ := (legal_iff c).mp hc
  rw [artifactLength_eq]
  omega

theorem exec_pack_of_legal {s : State} (hc : s.cfg.legal = true) (hlen : s.bitLen.toNat ≤ s.cfg.bitbufBits) :
    exec .pack s = .next ((s.setArt (artifactOf (s.bitstring s.bitLen.toNat))).complete .ok 0) := by
  have hfit := artifactLength_le_artMax hc hlen
  rcases execPack_cases s with ⟨hlong, _⟩ | ⟨_, hbig, _⟩ | ⟨_, _, e⟩
  · omega
  · omega
  · exact e

theorem bitstring_getElem? (s : State) {n i : Nat} (h : i < n) : (s.bitstring n)[i]? = some (s.bitAt i) := by
  simp [State.bitstring, h]

theorem artByte_setArt (s : State) {bytes : List Byte} {i : Nat} {b : Byte} (h : bytes[i]? = some b) :
    (s.setArt bytes).artByte i = b := by
  simp [State.artByte, h]

/-- The bits ARTBUF shows after the header are those of the bytes after the first. -/
theorem artBit_setArt (s : State) {bytes : List Byte} {i : Nat} {x : Bool}
    (h : (bitsOfBytes (bytes.drop 1))[i]? = some x) : artBit (s.setArt bytes) i = x := by
  rw [bitsOfBytes_getElem?, List.getElem?_drop] at h
  obtain ⟨b, hb, rfl⟩ := Option.map_eq_some_iff.mp h
  rw [artBit, artByte_setArt s hb]

/-- After the header come the bitstring and then the padding (30_encoding.md R97). -/
theorem artBit_setArt_artifactOf (s : State) {bits : List Bool} {i : Nat} {x : Bool}
    (h : (bits ++ List.replicate (padLength bits.length) false)[i]? = some x) :
    artBit (s.setArt (artifactOf bits)) i = x :=
  artBit_setArt s (bitsOfBytes_artifactOf bits ▸ h)

theorem artLen_setArt_artifactOf (s : State) {c : Config} {bits : List Bool} (hc : c.legal = true)
    (hlen : bits.length ≤ c.bitbufBits) :
    (s.setArt (artifactOf bits)).artLen.toNat = artifactLength bits.length := by
  obtain ⟨-, -, -, -, ⟨-, -, hcap⟩, -⟩ := (legal_iff c).mp hc
  have hfit := artifactLength_le_artMax hc hlen
  rw [setArt_artLen, artifactOf_length, BitVec.toNat_ofNat]
  exact Nat.mod_eq_of_lt (by omega)

/-- The header is the pad length (30_encoding.md R97). -/
theorem artByte_setArt_header (s : State) (bits : List Bool) :
    ((s.setArt (artifactOf bits)).artByte 0).toNat = padLength bits.length := by
  have hpad := padLength_range bits.length
  rw [artByte_setArt s (b := BitVec.ofNat 8 (padLength bits.length)) rfl, BitVec.toNat_ofNat]
  exact Nat.mod_eq_of_lt (by omega)

end Sys2Proof.Machine
end

section
/-! PROOFS. The statements about the encoding (30_encoding.md). -/

namespace Sys2Proof.Machine

/-- Settles O2: each answer of `decode` in terms of the fields, and the fields in terms of the number. -/
theorem decodeExactlyTheNineWords : Obligations.DecodeExactlyTheNineWords := by
  intro w
  refine ⟨decode_eq_ok_iff w, ?_, ?_⟩
  · rw [decode_eq_reservedBits_iff, ne_eq, rsvdField_eq_zero_iff, not_lt]
  · rw [decode_eq_reservedOp_iff, rsvdField_eq_zero_iff, toNat_opField]
    omega

/-- Settles O26: the artifact fits, and its bits after the pad byte are the bitstring and the padding. -/
theorem packWritesTheArtifact : Obligations.PackWritesTheArtifact := by
  intro s hc hlen
  have hbits : (s.bitstring s.bitLen.toNat).length = s.bitLen.toNat := bitstring_length s _
  obtain ⟨hpad1, hpad8, -⟩ := padLength_range s.bitLen.toNat
  have hheader := artByte_setArt_header s (s.bitstring s.bitLen.toNat)
  have hartLen := artLen_setArt_artifactOf s hc (hbits.trans_le hlen)
  rw [hbits] at hheader hartLen
  refine ⟨_, exec_pack_of_legal hc hlen, ?_, hheader, hpad1.trans_eq hheader.symm, hheader.trans_le hpad8,
    fun i hi => artBit_setArt_artifactOf s ?_, fun i hi hpad => artBit_setArt_artifactOf s ?_, rfl⟩
  · rw [complete_artLen, hartLen, artifactLength_eq]
    omega
  · rw [List.getElem?_append_left (by omega), bitstring_getElem? s hi]
  · rw [List.getElem?_append_right (by omega), hbits, List.getElem?_replicate, padLength, if_pos (by omega)]

/-- Settles O1: the nine words are the commands' encodings, and an OP from 0x09 to 0xFF is reserved. -/
theorem commandWordsDecode : Obligations.CommandWordsDecode := by
  refine ⟨decode_encode .nop, decode_encode .build, decode_encode .genCodes, decode_encode .encode,
    decode_encode .pack, decode_encode .unpack, decode_encode .decode, decode_encode .serialize,
    decode_encode .deserialize, fun op hlow hhigh => ?_⟩
  have hop : (BitVec.ofNat 32 op).toNat = op := by
    rw [BitVec.toNat_ofNat]
    exact Nat.mod_eq_of_lt (by omega)
  rw [decode_eq_reservedOp_iff, rsvdField_eq_zero_iff, toNat_opField, hop]
  omega

/-- Settles O4: such a word is refused, for its reserved bits or for its OP, and both complete alike. -/
theorem illegalWordsComplete : Obligations.IllegalWordsComplete := by
  intro s w hphase hillegal
  rcases decode_cases w with ⟨_, e⟩ | ⟨_, _, e⟩ | ⟨hrsvd, hop, _⟩
  · exact step_of_decode_error hphase e
  · exact step_of_decode_error hphase e
  · exact hillegal.elim (absurd hrsvd) (absurd · (Nat.not_le_of_lt hop))

/-- Settles O36: a record is its tag and its big-endian fields; the two subtrees follow an internal one. -/
theorem recordsAreBigEndian : Obligations.RecordsAreBigEndian :=
  ⟨fun _ _ => rfl, fun w l r => (List.append_assoc (internalRecord w) (serTree l) (serTree r)).symm⟩

/-- Settles O59: `expandLine` has one line for each pseudo-instruction (30_encoding.md R111). -/
theorem pseudoInstructionsExpand : Obligations.PseudoInstructionsExpand :=
  fun _ _ _ => ⟨rfl, rfl, rfl, rfl⟩

end Sys2Proof.Machine
end

section
/-! SUPPORT. BUILD on the weights of WTAB (40_tree_builder.md R121 to R128): which of its four results it has, and
the arena, root and counts it leaves where it builds a tree, as the state shows them. -/

namespace Sys2Proof.Machine

open Sys2Proof.Claims

/-! ### The seed -/

theorem weighted_eq_map_weightedSyms (s : State) (n : Nat) :
    s.weighted n = (weightedSyms s n).map fun i => (i, s.wtabAt i) :=
  weighted_eq s n

theorem weighted_length (s : State) (n : Nat) : (s.weighted n).length = (weightedSyms s n).length := by
  rw [weighted_eq_map_weightedSyms, List.length_map]

theorem weighted_eq_nil_iff (s : State) (n : Nat) : s.weighted n = [] ↔ weightedSyms s n = [] := by
  rw [weighted_eq_map_weightedSyms, List.map_eq_nil_iff]

theorem seedLeaves_weighted_getElem? {s : State} {n j x : Nat} (h : (weightedSyms s n)[j]? = some x) :
    (seedLeaves (s.weighted n))[j]? = some (.leaf (s.wtabAt x) (BitVec.ofNat 16 x)) := by
  simp [seedLeaves, weighted_eq_map_weightedSyms, h]

/-! ### The four results -/

/-- The state with the arena that BUILD writes (40_tree_builder.md R121), before completion. -/
def State.built (s : State) : State :=
  s.setArena (buildArena (s.weighted s.wtabLen.toNat)).1 (buildArena (s.weighted s.wtabLen.toNat)).2
    (s.weighted s.wtabLen.toNat).length

theorem buildable_iff_weighted (s : State) : buildable s ↔ s.wtabLen.toNat ≤ s.cfg.nsym ∧
    overflowAt 0 (s.weighted s.wtabLen.toNat) = none ∧ s.weighted s.wtabLen.toNat ≠ [] := by
  rw [overflowAt_none_iff (Nat.zero_le _), weighted_sum, Nat.zero_add, ne_eq, weighted_eq_nil_iff]
  exact and_congr_right fun _ => and_comm

theorem exec_build_badLength {s : State} (h : s.cfg.nsym < s.wtabLen.toNat) :
    exec .build s = .next (s.complete .badLength 0x018) :=
  if_pos h

theorem exec_build_weightOverflow {s : State} {i : Nat} (hlen : s.wtabLen.toNat ≤ s.cfg.nsym)
    (hover : overflowAt 0 (s.weighted s.wtabLen.toNat) = some i) :
    exec .build s = .next (s.complete .weightOverflow (BitVec.ofNat 32 i)) := by
  rcases execBuild_cases s with ⟨hlong, _⟩ | ⟨_, j, hj, e⟩ | ⟨_, hnil, _⟩ | ⟨_, hnone, _⟩
  · omega
  · cases hj.symm.trans hover
    exact e
  · rw [hnil] at hover
    cases hover
  · cases hnone.symm.trans hover

theorem exec_build_emptyInput {s : State} (hlen : s.wtabLen.toNat ≤ s.cfg.nsym)
    (hnil : s.weighted s.wtabLen.toNat = []) : exec .build s = .next (s.complete .emptyInput 0) := by
  rcases execBuild_cases s with ⟨hlong, _⟩ | ⟨_, _, hover, _⟩ | ⟨_, _, e⟩ | ⟨_, _, hne, _⟩
  · omega
  · rw [hnil] at hover
    cases hover
  · exact e
  · exact absurd hnil hne

theorem exec_build_of_buildable {s : State} (h : buildable s) :
    exec .build s = .next (s.built.complete .ok 0) := by
  obtain ⟨hlen, hnone, hne⟩ := (buildable_iff_weighted s).mp h
  rcases execBuild_cases s with ⟨hlong, _⟩ | ⟨_, _, hover, _⟩ | ⟨_, hnil, _⟩ | ⟨_, _, _, e⟩
  · omega
  · cases hnone.symm.trans hover
  · exact absurd hnil hne
  · exact e

/-- BUILD ends with OK only where it has a tree to build. -/
theorem buildable_of_exec_ok {s t : State} (h : exec .build s = .next t) (hok : t.errCode = .ok) :
    buildable s := by
  rcases execBuild_cases s with ⟨_, e⟩ | ⟨_, _, _, e⟩ | ⟨_, _, e⟩ | ⟨hlen, hnone, hne, _⟩
  · cases h.symm.trans e
    cases hok
  · cases h.symm.trans e
    cases hok
  · cases h.symm.trans e
    cases hok
  · exact (buildable_iff_weighted s).mpr ⟨hlen, hnone, hne⟩

/-! ### What the arena shows -/

/-- The entries that BUILD wrote, as the state shows them. -/
theorem built_nodeAt_of_getElem? {s : State} {n : Nat} {x : Node}
    (h : (buildArena (s.weighted s.wtabLen.toNat)).1[n]? = some x) : s.built.nodeAt n = x := by
  rw [State.built, setArena_nodeAt, h, Option.getD_some]

theorem keyLess_of_keyBefore {x y : Node} (h : keyBefore x y = true) : keyLess x y :=
  ((keyBefore_iff x y).mp h).imp_right fun ⟨hweight, hfirst⟩ => ⟨BitVec.eq_of_toNat_eq hweight, hfirst⟩

/-- The queue of the merge, in the words of the statements: an arena shows the entries of its list. -/
theorem inQueue_iff_queued {node : Nat → Node} {nodes : List Node} {k j m : Nat}
    (hnode : ∀ n x, nodes[n]? = some x → node n = x) (hj : j ≤ nodes.length) :
    inQueue node k j m ↔ queued nodes k j m := by
  refine and_congr_right fun _ => ⟨fun h j' nd hk hlt hnd => ?_, fun h j' hk hlt => ?_⟩
  · rw [← hnode j' nd hnd]
    exact h j' hk hlt
  · have hget := List.getElem?_eq_getElem (l := nodes) (i := j') (by omega)
    rw [hnode j' _ hget]
    exact h j' _ hk hlt hget

/-- Entry `j` is internal; its children are the two least members of the queue, the least on the left, and it has
their exact weight sum and the left child's FIRST (40_tree_builder.md R121, R122). -/
def mergesTwoLeast (node : Nat → Node) (k j : Nat) : Prop :=
  ∃ w l r f, node j = .internal w l r f ∧ inQueue node k j l.toNat ∧ inQueue node k j r.toNat ∧ l ≠ r ∧
    (∀ m, inQueue node k j m → m ≠ l.toNat → keyLess (node l.toNat) (node m)) ∧
    (∀ m, inQueue node k j m → m ≠ l.toNat → m ≠ r.toNat → keyLess (node r.toNat) (node m)) ∧
    w.toNat = (node l.toNat).weight.toNat + (node r.toNat).weight.toNat ∧ f = (node l.toNat).first

/-- A merge of the list is a merge of the arena that shows it. -/
theorem mergesTwoLeast_of_mergeAt {node : Nat → Node} {nodes : List Node} {k j : Nat}
    (hnode : ∀ n x, nodes[n]? = some x → node n = x) (hj : j < nodes.length) (h : mergeAt nodes k j) :
    mergesTwoLeast node k j := by
  obtain ⟨a, b, na, nb, hentry, ha, hb, hne, hqa, hqb, hsmall, hsum, hleast, hnext⟩ := h
  have hqueue : ∀ m, inQueue node k j m ↔ queued nodes k j m := fun m => inQueue_iff_queued hnode hj.le
  have hshown : ∀ m, inQueue node k j m → nodes[m]? = some (node m) := fun m ⟨hm, _⟩ => by
    have hget := List.getElem?_eq_getElem (hm.trans hj)
    exact hnode m _ hget ▸ hget
  have hleft : (BitVec.ofNat 17 a).toNat = a := Nat.mod_eq_of_lt (hqa.1.trans hsmall)
  have hright : (BitVec.ofNat 17 b).toNat = b := Nat.mod_eq_of_lt (hqb.1.trans hsmall)
  refine ⟨_, BitVec.ofNat 17 a, BitVec.ofNat 17 b, na.first, hnode j _ hentry, ?_⟩
  rw [hleft, hright, hnode a na ha, hnode b nb hb]
  refine ⟨(hqueue a).mpr hqa, (hqueue b).mpr hqb, fun e => hne ?_, fun m hm hma => ?_, fun m hm hma hmb => ?_,
    Nat.mod_eq_of_lt hsum, rfl⟩
  · rw [← hleft, ← hright, e]
  · exact keyLess_of_keyBefore (hleast m _ ((hqueue m).mp hm) (hshown m hm) hma)
  · exact keyLess_of_keyBefore (hnext m _ ((hqueue m).mp hm) (hshown m hm) hma hmb)

section
variable {s : State} (hl : s.cfg.legal = true) (hb : buildable s)
include hl hb

theorem weightedSyms_length_range : 1 ≤ (weightedSyms s s.wtabLen.toNat).length ∧
    (weightedSyms s s.wtabLen.toNat).length ≤ 65536 := by
  obtain ⟨-, ⟨-, hnsym⟩, -⟩ := (legal_iff _).mp hl
  obtain ⟨hlen, hne, -⟩ := hb
  have hle := weighted_length_le s s.wtabLen.toNat
  rw [weighted_length] at hle
  exact ⟨List.length_pos_iff.mpr hne, by omega⟩

/-- The merge of BUILD's own weights (40_tree_builder.md R121, R122, R124, R126). -/
theorem buildArena_weighted :
    let k := (weightedSyms s s.wtabLen.toNat).length
    let arena := buildArena (s.weighted s.wtabLen.toNat)
    arena.1.length = 2 * k - 1 ∧ arena.2 = 2 * k - 2 ∧
    (∀ (j : Nat) (x : Node), (seedLeaves (s.weighted s.wtabLen.toNat))[j]? = some x → arena.1[j]? = some x) ∧
    (∀ j, k ≤ j → j < 2 * k - 1 → mergeAt arena.1 k j) ∧
    (s.built.nodeAt arena.2).weight.toNat = weightSum s s.wtabLen.toNat := by
  obtain ⟨-, hk⟩ := weightedSyms_length_range hl hb
  obtain ⟨-, ⟨-, hnsym⟩, -⟩ := (legal_iff _).mp hl
  obtain ⟨hlen, hne, hsum⟩ := hb
  have hweights : ((s.weighted s.wtabLen.toNat).map fun p => p.2.toNat).sum = weightSum s s.wtabLen.toNat :=
    weighted_sum s _
  obtain ⟨hcount, hroot, hkept, hmerges, t, is, ht, -, -, -, htotal⟩ :=
    buildArena_spec (Config.anyNode s.draws) (s.weighted s.wtabLen.toNat)
      (fun h => hne ((weighted_eq_nil_iff s _).mp h)) (fun p h => ((mem_weighted s).mp h).2.2)
      (weighted_length s _ ▸ hk) (by omega) (weighted_syms_nodup s (by omega))
  rw [weighted_length] at hcount hroot hmerges
  refine ⟨hcount, hroot, hkept, hmerges, ?_⟩
  rw [State.built, setArena_nodeAt]
  exact ((congrArg BitVec.toNat (holdsTree_root ht).1).trans htotal).trans hweights

theorem built_leafCount : s.built.leafCount.toNat = (weightedSyms s s.wtabLen.toNat).length := by
  have hk := weightedSyms_length_range hl hb
  rw [State.built, setArena_leafCount, weighted_length]
  exact Nat.mod_eq_of_lt (by omega)

theorem built_nodeCount : s.built.nodeCount.toNat = 2 * (weightedSyms s s.wtabLen.toNat).length - 1 := by
  have hk := weightedSyms_length_range hl hb
  obtain ⟨hcount, -⟩ := buildArena_weighted hl hb
  rw [State.built, setArena_nodeCount, hcount]
  exact Nat.mod_eq_of_lt (by omega)

theorem built_root : s.built.root.toNat = 2 * (weightedSyms s s.wtabLen.toNat).length - 2 := by
  have hk := weightedSyms_length_range hl hb
  obtain ⟨-, hroot, -⟩ := buildArena_weighted hl hb
  rw [State.built, setArena_root, hroot]
  exact Nat.mod_eq_of_lt (by omega)

theorem built_leaf {j x : Nat} (hj : (weightedSyms s s.wtabLen.toNat)[j]? = some x) :
    s.built.nodeAt j = .leaf (s.wtabAt x) (BitVec.ofNat 16 x) := by
  obtain ⟨-, -, hkept, -⟩ := buildArena_weighted hl hb
  exact built_nodeAt_of_getElem? (hkept j _ (seedLeaves_weighted_getElem? hj))

theorem built_merge {j : Nat} (hj : (weightedSyms s s.wtabLen.toNat).length ≤ j)
    (hj' : j < 2 * (weightedSyms s s.wtabLen.toNat).length - 1) :
    mergesTwoLeast s.built.nodeAt (weightedSyms s s.wtabLen.toNat).length j := by
  obtain ⟨hcount, -, -, hmerges, -⟩ := buildArena_weighted hl hb
  exact mergesTwoLeast_of_mergeAt (fun _ _ => built_nodeAt_of_getElem?) (hcount ▸ hj') (hmerges j hj hj')

theorem built_rootWeight :
    (s.built.nodeAt s.built.root.toNat).weight.toNat = weightSum s s.wtabLen.toNat := by
  obtain ⟨-, hroot, -, -, hweight⟩ := buildArena_weighted hl hb
  rw [built_root hl hb, ← hroot]
  exact hweight

end

/-- A merged entry is internal, and its children stand before it. -/
theorem mergesTwoLeast_children {node : Nat → Node} {k j : Nat} (h : mergesTwoLeast node k j) :
    (node j).isLeaf = false ∧ (node j).left.toNat < j ∧ (node j).right.toNat < j := by
  obtain ⟨w, l, r, f, hentry, hleft, hright, -⟩ := h
  rw [hentry]
  exact ⟨rfl, hleft.1, hright.1⟩

/-- A single weight fits 32 bits, so a lone symbol is an input to build from (40_tree_builder.md R128). -/
theorem buildable_of_lone {s : State} {x : Nat} (hlen : s.wtabLen.toNat ≤ s.cfg.nsym)
    (h : weightedSyms s s.wtabLen.toNat = [x]) : buildable s := by
  have hsum : weightSum s s.wtabLen.toNat = (s.wtabAt x).toNat := by
    rw [weightSum, ← weighted_sum, weighted_eq_map_weightedSyms, h]
    rfl
  have hx := (s.wtabAt x).isLt
  exact ⟨hlen, by simp [h], by omega⟩

/-- Equal weights give equal arenas below NODE_COUNT, whatever the two states' draws (40_tree_builder.md R125). -/
theorem built_nodeAt_congr {s s' : State} (h : s'.weighted s'.wtabLen.toNat = s.weighted s.wtabLen.toNat) {j : Nat}
    (hj : j < s.built.nodeCount.toNat) : s'.built.nodeAt j = s.built.nodeAt j := by
  rw [State.built, setArena_nodeCount, BitVec.toNat_ofNat] at hj
  obtain ⟨x, hx⟩ : ∃ x, (buildArena (s.weighted s.wtabLen.toNat)).1[j]? = some x :=
    ⟨_, List.getElem?_eq_getElem (hj.trans_le (Nat.mod_le _ _))⟩
  rw [built_nodeAt_of_getElem? hx, built_nodeAt_of_getElem? (h ▸ hx)]

end Sys2Proof.Machine
end

section
/-! PROOFS. The statements about NOP and BUILD (40_tree_builder.md). -/

namespace Sys2Proof.Machine

open Sys2Proof.Claims

/-- Settles O16: a BUILD that ends with OK had a buildable table, and leaves the arena of `arenaOk_build`. -/
theorem buildGivesTheArenaInvariant : Obligations.BuildGivesTheArenaInvariant := by
  intro s t hl hexec hok
  have hbuild := buildable_of_exec_ok hexec hok
  cases hexec.symm.trans (exec_build_of_buildable hbuild)
  obtain ⟨hlen, hnone, hne⟩ := (buildable_iff_weighted s).mp hbuild
  have harena : arenaOk s.built := (arenaOk_build hl hlen hnone hne).2
  exact arenaOk_congr rfl harena

/-- Settles O14: the counts, the seed, the merges and the root's weight of the arena that BUILD writes. -/
theorem buildCompletes : Obligations.BuildCompletes := fun s hl hb =>
  ⟨s.built.complete .ok 0, exec_build_of_buildable hb, built_leafCount hl hb, built_nodeCount hl hb,
    built_root hl hb, fun _ _ hj => built_leaf hl hb hj,
    fun _ hj hj' => mergesTwoLeast_children (built_merge hl hb hj hj'), built_rootWeight hl hb, rfl⟩

/-- Settles O15: every internal entry is a merge of the two least members of the queue. -/
theorem buildMergesTheTwoLeast : Obligations.BuildMergesTheTwoLeast := fun s hl hb =>
  ⟨s.built.complete .ok 0, exec_build_of_buildable hb, fun _ hj hj' => built_merge hl hb hj hj'⟩

/-- Settles O17: the four results of BUILD rest on the parameters, WTAB_LEN and the weights below it. -/
theorem buildReadsOnlyItsWeights : Obligations.BuildReadsOnlyItsWeights := by
  intro s s' t _ hcfg hlen hweights hexec
  have hws : s'.weighted s'.wtabLen.toNat = s.weighted s.wtabLen.toNat := by
    rw [hlen, weighted_congr hweights]
  rcases execBuild_cases s with ⟨hlong, e⟩ | ⟨hfits, i, hover, e⟩ | ⟨hfits, hnil, e⟩ |
      ⟨hfits, hnone, hne, e⟩ <;> cases hexec.symm.trans e
  · exact ⟨_, exec_build_badLength (by rwa [hcfg, hlen]), rfl, rfl, nofun⟩
  · exact ⟨_, exec_build_weightOverflow (by rwa [hcfg, hlen]) (hws ▸ hover), rfl, rfl, nofun⟩
  · exact ⟨_, exec_build_emptyInput (by rwa [hcfg, hlen]) (hws ▸ hnil), rfl, rfl, nofun⟩
  · have hbuild : buildable s' :=
      (buildable_iff_weighted s').mpr ⟨by rwa [hcfg, hlen], hws ▸ hnone, hws ▸ hne⟩
    refine ⟨_, exec_build_of_buildable hbuild, rfl, rfl,
      fun _ => ⟨?_, ?_, ?_, fun j hj => built_nodeAt_congr hws hj⟩⟩
    all_goals simp only [State.built, hws, complete_nodeCount, complete_root, complete_leafCount,
      setArena_nodeCount, setArena_root, setArena_leafCount]

/-- Settles O18: the checks in the order of the pseudocode, each on its own table. -/
theorem buildPreCheckErrors : Obligations.BuildPreCheckErrors := fun s =>
  ⟨exec_build_badLength,
    fun hlen _ hi hbelow habove => exec_build_weightOverflow hlen (overflowAt_weighted s hi hbelow habove),
    fun hlen hnil => exec_build_emptyInput hlen ((weighted_eq_nil_iff s _).mpr hnil)⟩

/-- Settles O19: with one leaf the counts are 1 and the root is that leaf. -/
theorem loneSymbolGivesTheDegenerateTree : Obligations.LoneSymbolGivesTheDegenerateTree := by
  intro s x hl hlen hlone
  have hb := buildable_of_lone hlen hlone
  have hroot := built_root hl hb
  have hnodes := built_nodeCount hl hb
  have hleaves := built_leafCount hl hb
  rw [hlone] at hroot hnodes hleaves
  exact ⟨s.built.complete .ok 0, exec_build_of_buildable hb, rfl, built_leaf hl hb (by rw [hlone]; rfl),
    BitVec.eq_of_toNat_eq hroot, BitVec.eq_of_toNat_eq hnodes, BitVec.eq_of_toNat_eq hleaves, rfl, rfl⟩

/-- Settles O13: NOP is its completion (40_tree_builder.md R120). -/
theorem nopCompletes : Obligations.NopCompletes := execNop_eq

end Sys2Proof.Machine
end

section
/-! SUPPORT. GEN_CODES on the tree of the arena (41_code_map.md R140 to R144): which of its results it has, and the
code table, MAX_LEN and codes it leaves, as the state shows them. -/

namespace Sys2Proof.Machine

/-! ### The codes of a tree -/

/-- The codes of a tree's leaves, in pre-order: each leaf's symbol with the code of its path (41_code_map.md R140,
R142). `treeCodes_eq_pathCodes` ties it to GEN_CODES' traversal. -/
def pathCodes (t : CodeTree) : List (Sym × Code) := t.paths.map fun p => (p.1, pathCode p.2)

/-- The lone leaf gets the code "0" (41_code_map.md R141). -/
theorem treeCodes_leaf (w : Weight) (x : Sym) : treeCodes (.leaf w x) = .ok [(x, { len := 1, code := 0 })] := rfl

theorem treeCodes_eq_pathCodes {w : Weight} {l r : CodeTree}
    (h : ∀ p ∈ (CodeTree.node w l r).paths, p.2.length ≤ 64) :
    treeCodes (.node w l r) = .ok (pathCodes (.node w l r)) :=
  treeCodes_node h

theorem pathCodes_of_treeCodes {w : Weight} {l r : CodeTree} {codes : List (Sym × Code)}
    (h : treeCodes (.node w l r) = .ok codes) : codes = pathCodes (.node w l r) := by
  rw [treeCodes_eq_pathCodes (paths_le_of_treeCodes h)] at h
  cases h
  rfl

/-- A leaf deeper than 64 is never the lone leaf, so GEN_CODES reports the first such leaf (41_code_map.md R140). -/
theorem treeCodes_error {t : CodeTree} {p : Sym × List Bool}
    (h : t.paths.find? (fun q => 64 < q.2.length) = some p) : treeCodes t = .error p.1 := by
  cases t with
  | leaf w x => cases h
  | node w l r => exact visitCodes_error _ 0 0 p (by simpa only [Nat.zero_add] using h)

theorem pathCodes_fst (t : CodeTree) : (pathCodes t).map Prod.fst = t.syms := by
  rw [pathCodes, List.map_map, ← t.paths_fst]
  rfl

theorem codeFor_pathCodes {t : CodeTree} (hn : t.syms.Nodup) {p : Sym × List Bool} (hp : p ∈ t.paths) :
    codeFor (pathCodes t) p.1.toNat = pathCode p.2 :=
  codeFor_of_mem (p := (p.1, pathCode p.2)) (pathCodes_fst t ▸ hn) (List.mem_map_of_mem hp)

/-- A symbol that no leaf has gets the entry (0, 0) (41_code_map.md R144). -/
theorem codeFor_pathCodes_of_not_mem {t : CodeTree} {i : Nat} (h : ∀ x ∈ t.syms, x.toNat ≠ i) :
    codeFor (pathCodes t) i = { len := 0, code := 0 } :=
  codeFor_of_not_mem fun _ hp => h _ (pathCodes_fst t ▸ List.mem_map_of_mem hp)

theorem longestCode_pathCodes_ge {t : CodeTree} (h : ∀ p ∈ t.paths, p.2.length ≤ 64) {p : Sym × List Bool}
    (hp : p ∈ t.paths) : p.2.length ≤ longestCode (pathCodes t) := by
  rw [← pathCode_len (h p hp)]
  exact longestCode_ge (p.1, pathCode p.2) (List.mem_map_of_mem hp)

theorem longestCode_pathCodes_mem {t : CodeTree} (h : ∀ p ∈ t.paths, p.2.length ≤ 64) :
    ∃ p ∈ t.paths, longestCode (pathCodes t) = p.2.length := by
  obtain ⟨c, hc, hlongest⟩ := longestCode_mem (codes := pathCodes t) (by simpa [pathCodes] using t.paths_ne_nil)
  obtain ⟨p, hp, rfl⟩ := List.mem_map.mp hc
  exact ⟨p, hp, hlongest.trans (pathCode_len (h p hp))⟩

/-- Codes of a tree part as its paths do: a code that begins another is the same symbol's (41_code_map.md R142). -/
theorem treeCodes_sym_eq_of_isPrefix {t : CodeTree} {codes : List (Sym × Code)} (h : treeCodes t = .ok codes) :
    ∀ p ∈ codes, ∀ q ∈ codes, codeBits p.2 <+: codeBits q.2 → p.1 = q.1 := by
  cases t with
  | leaf w x =>
    cases h
    simp
  | node w l r =>
    have hdepth := paths_le_of_treeCodes h
    cases pathCodes_of_treeCodes h
    intro p hp q hq hbegins
    obtain ⟨a, ha, rfl⟩ := List.mem_map.mp hp
    obtain ⟨b, hb, rfl⟩ := List.mem_map.mp hq
    rw [codeBits_pathCode (hdepth a ha), codeBits_pathCode (hdepth b hb)] at hbegins
    exact CodeTree.sym_eq_of_path _ a ha b hb (CodeTree.paths_prefix_free _ a ha b hb hbegins)

/-! ### The results -/

/-- The state with the Code Map that GEN_CODES writes (41_code_map.md R140), before completion. -/
def State.withCodes (s : State) (codes : List (Sym × Code)) : State :=
  s.setCodes (codeTable s.cfg.nsym codes) (longestCode codes)

section
variable {s : State} {t : CodeTree} (hv : s.treeValid = true) (ht : s.tree = some t)
include hv ht

theorem exec_genCodes_ok {codes : List (Sym × Code)} (hc : treeCodes t = .ok codes) :
    exec .genCodes s = .next ((s.withCodes codes).complete .ok 0) := by
  rcases execGenCodes_cases s with ⟨hno, _⟩ | ⟨_, hnone, _⟩ | ⟨_, _, _, ht', hx, _⟩ | ⟨_, _, _, ht', hc', e⟩
  · cases hv.symm.trans hno
  · cases ht.symm.trans hnone
  · cases ht.symm.trans ht'
    cases hc.symm.trans hx
  · cases ht.symm.trans ht'
    cases hc.symm.trans hc'
    exact e

theorem exec_genCodes_codeTooLong {x : Sym} (hx : treeCodes t = .error x) :
    exec .genCodes s = .next (s.loseCodes.complete .codeTooLong (x.setWidth 32)) := by
  rcases execGenCodes_cases s with ⟨hno, _⟩ | ⟨_, hnone, _⟩ | ⟨_, _, _, ht', hx', e⟩ | ⟨_, _, _, ht', hc, _⟩
  · cases hv.symm.trans hno
  · cases ht.symm.trans hnone
  · cases ht.symm.trans ht'
    cases hx.symm.trans hx'
    exact e
  · cases ht.symm.trans ht'
    cases hx.symm.trans hc

end

/-- GEN_CODES ends with OK only where the arena's tree has codes, and writes them. -/
theorem treeCodes_of_exec_ok {s u : State} (h : exec .genCodes s = .next u) (hok : u.errCode = .ok) :
    ∃ t codes, treeCodes t = .ok codes ∧ u = (s.withCodes codes).complete .ok 0 := by
  rcases execGenCodes_cases s with ⟨_, e⟩ | ⟨_, _, e⟩ | ⟨_, _, _, _, _, e⟩ | ⟨_, t, codes, _, hc, e⟩
  · cases h.symm.trans e
    cases hok
  · cases h.symm.trans e
  · cases h.symm.trans e
    cases hok
  · cases h.symm.trans e
    exact ⟨t, codes, hc, rfl⟩

/-! ### What the state shows -/

theorem withCodes_ctabAt (s : State) (codes : List (Sym × Code)) {i : Nat} (hi : i < s.cfg.nsym) (c : ResultCode)
    (info : Word) : ((s.withCodes codes).complete c info).ctabAt i = codeFor codes i := by
  rw [State.ctabAt, complete_mem, State.withCodes, setCodes_ctab, read_ofList, codeTable_getElem? codes hi,
    Option.getD_some]

theorem withCodes_maxLen (s : State) (codes : List (Sym × Code)) (c : ResultCode) (info : Word) :
    ((s.withCodes codes).complete c info).maxLen.toNat = longestCode codes := by
  have hlongest := longestCode_lt codes
  exact Nat.mod_eq_of_lt (by omega)

end Sys2Proof.Machine
end

section
/-! PROOFS. The statements about GEN_CODES (41_code_map.md). -/

namespace Sys2Proof.Machine

/-- Settles O20: the code table holds the codes of the paths, whose symbols are distinct and below NSYM. -/
theorem genCodesWritesThePaths : Obligations.GenCodesWritesThePaths := by
  intro s w l r _ hv harena ht hdepth
  obtain ⟨_, _, ht', -, -, -, hnodup, hbelow, -⟩ := tree_of_arenaOk harena
  cases ht.symm.trans ht'
  refine ⟨_, exec_genCodes_ok hv ht (treeCodes_eq_pathCodes hdepth), fun p hp => ?_, fun i hi hnone => ?_, ?_,
    fun p hp => ?_, rfl⟩
  · rw [withCodes_ctabAt s _ (hbelow _ (CodeTree.mem_syms_of_path hp)), codeFor_pathCodes hnodup hp]
    exact ⟨pathCode_len (hdepth p hp), CodeTree.node_path_pos hp, pathCode_bit (hdepth p hp), pathCode_high⟩
  · rw [withCodes_ctabAt s _ hi, codeFor_pathCodes_of_not_mem hnone]
  · rw [withCodes_maxLen]
    exact longestCode_pathCodes_mem hdepth
  · rw [withCodes_maxLen]
    exact longestCode_pathCodes_ge hdepth hp

/-- Settles O21: a leaf at ROOT is the arena's whole tree, and its one code is "0". -/
theorem degenerateTreeGetsCodeZero : Obligations.DegenerateTreeGetsCodeZero := by
  intro s w x _ hv hroot hx
  have hlevels : (CodeTree.leaf w x).syms.length ≤ s.cfg.nodeMax := by
    simp only [CodeTree.syms, List.length_singleton, Config.nodeMax]
    omega
  have ht : s.tree = some (.leaf w x) := treeAt_of_holdsTree (holdsTree_leaf hroot) hlevels
  refine ⟨_, exec_genCodes_ok hv ht (treeCodes_leaf w x), ?_, fun i hi hne => ?_, rfl, rfl⟩
  · rw [withCodes_ctabAt s _ hx]
    exact codeFor_of_mem (codes := [(x, { len := 1, code := 0 })]) (List.nodup_singleton x)
      (List.mem_singleton_self _)
  · rw [withCodes_ctabAt s _ hi]
    exact codeFor_of_not_mem (by simpa using hne.symm)

/-- Settles O22: coded symbols have entries among the tree's codes, which part as the paths do. -/
theorem codesArePrefixFree : Obligations.CodesArePrefixFree := by
  intro s u _ _ hexec hok x y hx hy hne hlenx hleny hbegins
  obtain ⟨t, codes, hcodes, rfl⟩ := treeCodes_of_exec_ok hexec hok
  rw [withCodes_ctabAt s codes hx] at hlenx hbegins
  rw [withCodes_ctabAt s codes hy] at hleny hbegins
  obtain ⟨p, hp, rfl, hpx⟩ := mem_of_codeFor hlenx
  obtain ⟨q, hq, rfl, hqy⟩ := mem_of_codeFor hleny
  rw [hpx, hqy] at hbegins
  exact hne (congrArg BitVec.toNat (treeCodes_sym_eq_of_isPrefix hcodes p hp q hq hbegins))

/-- Settles O23: the traversal reports the first leaf that is too deep, and the codes are lost. -/
theorem deepTreeEndsWithCodeTooLong : Obligations.DeepTreeEndsWithCodeTooLong :=
  fun s _ _ hv ht hdeep => ⟨_, exec_genCodes_codeTooLong hv ht (treeCodes_error hdeep), rfl,
    read_allAny Config.anyCtab s.draws⟩

end Sys2Proof.Machine
end

section
/-! SUPPORT. ENCODE, PACK and UNPACK (42_bit_packer.md R150 to R173): which state answers which completion, what BITBUF
shows after bits are written, and the symbols, codes and artifact bytes as the state shows them. -/

namespace Sys2Proof.Machine

open Sys2Proof.Claims

/-! ### What BITBUF and BIT_LEN show after bits are written -/

theorem bitAt_setBits (s : State) {bits : List Bool} {i : Nat} {b : Bool} (h : bits[i]? = some b) :
    (s.setBits bits).bitAt i = b := by
  simp [State.bitAt, h]

theorem bitstring_setBits (s : State) (bits : List Bool) : (s.setBits bits).bitstring bits.length = bits := by
  apply List.ext_getElem (bitstring_length _ _)
  intro i hi hi'
  rw [← Option.some_inj, ← List.getElem?_eq_getElem hi, bitstring_getElem? _ hi',
    bitAt_setBits s (List.getElem?_eq_getElem hi')]

/-- The bits written do not depend on the state they are written to. -/
theorem bitAt_setBits_eq (s s' : State) {bits : List Bool} {i : Nat} (h : i < bits.length) :
    (s.setBits bits).bitAt i = (s'.setBits bits).bitAt i := by
  have hi := List.getElem?_eq_getElem h
  rw [bitAt_setBits s hi, bitAt_setBits s' hi]

theorem bitLen_setBits_le (s : State) (bits : List Bool) : (s.setBits bits).bitLen.toNat ≤ bits.length := by
  rw [setBits_bitLen, BitVec.toNat_ofNat]
  exact Nat.mod_le _ _

/-- BIT_LEN holds the length of every bitstring that fits BITBUF. -/
theorem bitLen_setBits {s : State} {bits : List Bool} (hc : s.cfg.legal = true)
    (hfit : bits.length ≤ s.cfg.bitbufBits) : (s.setBits bits).bitLen.toNat = bits.length := by
  obtain ⟨-, -, -, ⟨-, -, hcap⟩, -⟩ := (legal_iff _).mp hc
  rw [setBits_bitLen, BitVec.toNat_ofNat]
  exact Nat.mod_eq_of_lt (by omega)

/-! ### ENCODE: the symbols and their codes -/

theorem coded_of_mem_symbols {s : State} {n : Nat} (h : ∀ e, e < n → coded s e) :
    ∀ x ∈ s.symbols n, x.toNat < s.cfg.nsym ∧ (s.ctabAt x.toNat).len ≠ 0 := by
  intro x hx
  obtain ⟨e, he, rfl⟩ := List.mem_map.mp hx
  exact h e (List.mem_range.mp he)

theorem symbols_lens_sum (s : State) (n : Nat) :
    ((s.symbols n).map fun x => (s.ctabAt x.toNat).len.toNat).sum = codeLengthSum s n := by
  rw [State.symbols, List.map_map]
  rfl

theorem codeLengthSum_succ (s : State) (n : Nat) :
    codeLengthSum s (n + 1) = codeLengthSum s n + (s.ctabAt (s.symAt n).toNat).len.toNat := by
  simp [codeLengthSum, List.range_succ]

theorem flatMap_codeBits_length (s : State) (n : Nat) :
    ((s.symbols n).flatMap fun x => codeBits (s.ctabAt x.toNat)).length = codeLengthSum s n := by
  simp only [List.length_flatMap, codeBits_length, symbols_lens_sum]

theorem symbols_eq_append_cons (s : State) {e n : Nat} (h : e < n) :
    ∃ rest, s.symbols n = s.symbols e ++ s.symAt e :: rest := by
  obtain ⟨k, rfl⟩ := Nat.exists_eq_add_of_le (Nat.succ_le_of_lt h)
  exact ⟨_, by rw [State.symbols, List.range_add, List.range_succ, List.map_append, List.map_append,
    List.append_assoc]; rfl⟩

section
variable {s : State} (hv : s.codesValid = true) (hcount : s.symCount.toNat ≤ s.cfg.symbufMax)
include hv hcount

theorem exec_encode_ok {bits : List Bool}
    (hb : encodeFrom s.ctabAt s.cfg.nsym s.cfg.bitbufBits 0 0 (s.symbols s.symCount.toNat) = .ok bits) :
    exec .encode s = .next ((s.setBits bits).complete .ok 0) := by
  rcases execEncode_cases s with ⟨hno, _⟩ | ⟨_, hlong, _⟩ | ⟨_, _, _, _, he, _⟩ | ⟨_, _, _, hb', e⟩
  · cases hv.symm.trans hno
  · omega
  · cases hb.symm.trans he
  · cases hb.symm.trans hb'
    exact e

theorem exec_encode_error {c : ResultCode} {info : Word}
    (he : encodeFrom s.ctabAt s.cfg.nsym s.cfg.bitbufBits 0 0 (s.symbols s.symCount.toNat) = .error (c, info)) :
    exec .encode s = .next (s.loseBits.complete c info) := by
  rcases execEncode_cases s with ⟨hno, _⟩ | ⟨_, hlong, _⟩ | ⟨_, _, _, _, he', e⟩ | ⟨_, _, _, hb, _⟩
  · cases hv.symm.trans hno
  · omega
  · cases he.symm.trans he'
    exact e
  · cases he.symm.trans hb

/-- ENCODE when the first `e` entries are coded and fit, and entry `e` has no code (42_bit_packer.md R150). -/
theorem exec_encode_unknownSymbol {e : Nat} (he : e < s.symCount.toNat) (hcoded : ∀ j, j < e → coded s j)
    (hfit : codeLengthSum s e ≤ s.cfg.bitbufBits) (hbad : ¬ coded s e) :
    exec .encode s = .next (s.loseBits.complete .unknownSymbol (BitVec.ofNat 32 e)) := by
  obtain ⟨rest, hsyms⟩ := symbols_eq_append_cons s he
  refine exec_encode_error hv hcount ?_
  rw [hsyms, encodeFrom_unknown (coded_of_mem_symbols hcoded) (by rwa [symbols_lens_sum, Nat.zero_add]) hbad,
    symbols_length, Nat.zero_add]

/-- ENCODE when the first `e` entries are coded and fit, and the code of entry `e` does not (42_bit_packer.md R150). -/
theorem exec_encode_outOverflow {e : Nat} (he : e < s.symCount.toNat) (hcoded : ∀ j, j < e → coded s j)
    (hfit : codeLengthSum s e ≤ s.cfg.bitbufBits) (hcode : coded s e)
    (hfull : s.cfg.bitbufBits < codeLengthSum s (e + 1)) :
    exec .encode s = .next (s.loseBits.complete .outOverflow (BitVec.ofNat 32 e)) := by
  obtain ⟨rest, hsyms⟩ := symbols_eq_append_cons s he
  rw [codeLengthSum_succ] at hfull
  refine exec_encode_error hv hcount ?_
  rw [hsyms, encodeFrom_overflow (coded_of_mem_symbols hcoded) (by rwa [symbols_lens_sum, Nat.zero_add]) hcode
    (by rwa [symbols_lens_sum, Nat.zero_add]), symbols_length, Nat.zero_add]

end

/-! ### PACK: the pre-check errors -/

theorem exec_pack_badLength {s : State} (h : s.cfg.bitbufBits < s.bitLen.toNat) :
    exec .pack s = .next (s.complete .badLength 0x020) := by
  rcases execPack_cases s with ⟨_, e⟩ | hfits | hfits
  · exact e
  all_goals omega

theorem exec_pack_outOverflow {s : State} (hlen : s.bitLen.toNat ≤ s.cfg.bitbufBits)
    (hbig : s.cfg.artMax < artifactLength s.bitLen.toNat) :
    exec .pack s = .next (s.complete .outOverflow (BitVec.ofNat 32 (artifactLength s.bitLen.toNat))) := by
  rcases execPack_cases s with hlong | ⟨_, _, e⟩ | hfits
  · omega
  · exact e
  · omega

/-! ### UNPACK: the bits after the header -/

/-- The first `n` bits of the artifact after its header (42_bit_packer.md). -/
def State.artBits (s : State) (n : Nat) : List Bool := (List.range n).map (artBit s)

@[simp] theorem artBits_length (s : State) (n : Nat) : (s.artBits n).length = n := by simp [State.artBits]

theorem artBits_getElem? (s : State) {n i : Nat} (h : i < n) : (s.artBits n)[i]? = some (artBit s i) := by
  simp [State.artBits, h]

theorem artBytes_getElem? (s : State) {n i : Nat} (h : i < n) : (s.artBytes n)[i]? = some (s.artByte i) := by
  simp [State.artBytes, h]

/-- What UNPACK writes are the first bits after the header (42_bit_packer.md R170). -/
theorem unpackedBits_artBytes (s : State) {n len : Nat} (h : len ≤ 8 * (n - 1)) :
    unpackedBits (s.artBytes n) len = s.artBits len := by
  have hlength : (unpackedBits (s.artBytes n) len).length = len := unpackedBits_length _ _ (by rwa [artBytes_length])
  apply List.ext_getElem?
  intro i
  rcases Nat.lt_or_ge i len with hi | hi
  · rw [unpackedBits_getElem? _ hi, artBytes_getElem? s (by omega), artBits_getElem? s hi]
    rfl
  · rw [List.getElem?_eq_none (by omega), List.getElem?_eq_none (by rwa [artBits_length])]

/-! ### UNPACK: one lemma per completion, the hypotheses in the order of its checks (42_bit_packer.md R170) -/

section
variable {s : State}

theorem exec_unpack_badLength (h : s.cfg.artMax < s.artLen.toNat) :
    exec .unpack s = .next (s.complete .badLength 0x024) := by
  rcases execUnpack_cases s with ⟨_, e⟩ | hno | hno | hno | hno | hno
  · exact e
  all_goals omega

theorem exec_unpack_noByte (h : s.artLen.toNat = 0) :
    exec .unpack s = .next (s.complete .malformedArtifact 0) := by
  rcases execUnpack_cases s with hno | ⟨_, _, e⟩ | hno | hno | hno | hno
  · omega
  · exact e
  all_goals omega

variable (hlen : s.artLen.toNat ≤ s.cfg.artMax)
include hlen

theorem exec_unpack_badPad (hpos : s.artLen.toNat ≠ 0)
    (h : (s.artByte 0).toNat < 1 ∨ 8 < (s.artByte 0).toNat) :
    exec .unpack s = .next (s.complete .malformedArtifact 1) := by
  rcases execUnpack_cases s with hno | hno | ⟨_, _, _, e⟩ | hno | hno | hno
  · omega
  · omega
  · exact e
  all_goals omega

variable (hpad1 : 1 ≤ (s.artByte 0).toNat) (hpad8 : (s.artByte 0).toNat ≤ 8)
include hpad1 hpad8

theorem exec_unpack_padTooLong (hpos : s.artLen.toNat ≠ 0)
    (h : 8 * (s.artLen.toNat - 1) < (s.artByte 0).toNat) :
    exec .unpack s = .next (s.complete .malformedArtifact 2) := by
  rcases execUnpack_cases s with hno | hno | hno | ⟨_, _, _, _, _, e⟩ | hno | hno
  on_goal 4 => exact e
  all_goals omega

variable (hpad : (s.artByte 0).toNat ≤ 8 * (s.artLen.toNat - 1))
include hpad

theorem exec_unpack_outOverflow (h : s.cfg.bitbufBits < 8 * (s.artLen.toNat - 1) - (s.artByte 0).toNat) :
    exec .unpack s = .next (s.complete .outOverflow
      (BitVec.ofNat 32 (8 * (s.artLen.toNat - 1) - (s.artByte 0).toNat))) := by
  rcases execUnpack_cases s with hno | hno | hno | hno | ⟨_, _, _, _, _, _, e⟩ | hno
  on_goal 5 => exact e
  all_goals omega

theorem exec_unpack_ok (h : 8 * (s.artLen.toNat - 1) - (s.artByte 0).toNat ≤ s.cfg.bitbufBits) :
    exec .unpack s =
      .next ((s.setBits (s.artBits (8 * (s.artLen.toNat - 1) - (s.artByte 0).toNat))).complete .ok 0) := by
  rw [← unpackedBits_artBytes s (Nat.sub_le _ _)]
  rcases execUnpack_cases s with hno | hno | hno | hno | hno | ⟨_, _, _, _, _, _, e⟩
  on_goal 6 => exact e
  all_goals omega

end

end Sys2Proof.Machine
end

section
/-! PROOFS. The statements about ENCODE, PACK and UNPACK (42_bit_packer.md). -/

namespace Sys2Proof.Machine

open Sys2Proof.Claims

/-- Settles O28: the artifact passes every check, and the bits after its header are those `artBit` names. -/
theorem unpackRecoversTheBits : Obligations.UnpackRecoversTheBits := by
  intro s hc hlen hpad1 hpad8 hpad hfit
  have hbitLen := (bitLen_setBits (s := s) hc ((artBits_length s _).trans_le hfit)).trans (artBits_length s _)
  exact ⟨_, exec_unpack_ok hlen hpad1 hpad8 hpad hfit, hbitLen,
    fun i hi => bitAt_setBits s (artBits_getElem? s (hi.trans_eq hbitLen)), rfl⟩

/-- Settles O30: PACK leaves an artifact that UNPACK accepts, whose bits before the padding are BITBUF's. -/
theorem packThenUnpackRestoresTheBits : Obligations.PackThenUnpackRestoresTheBits := by
  intro s hc hlen
  obtain ⟨t, hpack, hartLen, hpad, hpad1, hpad8, hbits, -, ht⟩ := packWritesTheArtifact s hc hlen
  have hcfg : t.cfg = s.cfg := (congrArg State.cfg ht).trans (complete_cfg ..)
  obtain ⟨-, -, -, -, ⟨-, hart, -⟩, -⟩ := (legal_iff _).mp hc
  obtain ⟨u, hunpack, hlen', hbits', hu⟩ := unpackRecoversTheBits t (hcfg ▸ hc) (by rw [hcfg]; omega) hpad1 hpad8
    (by omega) (by rw [hcfg]; omega)
  have hsame : u.bitLen.toNat = s.bitLen.toNat := by omega
  exact ⟨t, u, hpack, hunpack, congrArg State.errCode hu, BitVec.eq_of_toNat_eq hsame,
    fun i hi => (hbits' i (hi.trans_eq hsame.symm)).trans (hbits i hi)⟩

/-- Settles O24: the loop emits the codes in order, and their total length is that of the codes' LEN fields. -/
theorem encodeConcatenatesTheCodes : Obligations.EncodeConcatenatesTheCodes := by
  intro s hc hv hcount hcoded hfit
  have hlength := flatMap_codeBits_length s s.symCount.toNat
  have hloop := (encodeFrom_ok_iff (e := 0) (Nat.zero_le s.cfg.bitbufBits)).mpr
    ⟨coded_of_mem_symbols hcoded, by rwa [symbols_lens_sum, Nat.zero_add], rfl⟩
  have hbitLen := bitLen_setBits (s := s) hc (hlength.trans_le hfit)
  refine ⟨_, exec_encode_ok hv hcount hloop, hbitLen.trans hlength, ?_, rfl⟩
  rw [complete_bitLen, hbitLen]
  exact bitstring_setBits s _

/-- Settles O25: the loop stops at entry `e`, and the bits are lost. -/
theorem encodeReportsTheFirstBadEntry : Obligations.EncodeReportsTheFirstBadEntry :=
  fun _ _ hv hcount he hcoded hfit =>
    ⟨fun hbad => ⟨_, exec_encode_unknownSymbol hv hcount he hcoded hfit hbad, rfl⟩,
      fun hcode hfull => ⟨_, exec_encode_outOverflow hv hcount he hcoded hfit hcode hfull, rfl⟩⟩

/-- Settles O29: every check of UNPACK reads only parameters, ART_LEN and the header, and the bits it writes lie
before the padding. -/
theorem unpackIgnoresThePadding : Obligations.UnpackIgnoresThePadding := by
  intro s s' t hcfg hartLen hheader hagree hexec
  have hcases := execUnpack_cases s
  rw [← hcfg, ← hartLen, ← hheader] at hcases
  rw [← hartLen, ← hheader] at hagree
  rcases hcases with ⟨hlong, e⟩ | ⟨_, hzero, e⟩ | ⟨hlen, hpos, hbad, e⟩ |
    ⟨hlen, hpos, hpad1, hpad8, hbad, e⟩ |
    ⟨hlen, _, hpad1, hpad8, hpad, hbig, e⟩ | ⟨hlen, _, hpad1, hpad8, hpad, hfit, e⟩ <;>
    cases hexec.symm.trans e
  · exact ⟨_, exec_unpack_badLength hlong, rfl, rfl, nofun⟩
  · exact ⟨_, exec_unpack_noByte hzero, rfl, rfl, nofun⟩
  · exact ⟨_, exec_unpack_badPad hlen hpos hbad, rfl, rfl, nofun⟩
  · exact ⟨_, exec_unpack_padTooLong hlen hpad1 hpad8 hpos hbad, rfl, rfl, nofun⟩
  · exact ⟨_, exec_unpack_outOverflow hlen hpad1 hpad8 hpad hbig, rfl, rfl, nofun⟩
  · have hbits : s'.artBits (8 * (s'.artLen.toNat - 1) - (s'.artByte 0).toNat) =
        s.artBits (8 * (s'.artLen.toNat - 1) - (s'.artByte 0).toNat) :=
      List.map_congr_left fun i hi => hagree i (List.mem_range.mp hi)
    refine ⟨_, exec_unpack_ok hlen hpad1 hpad8 hpad hfit, rfl, rfl, fun _ => ?_⟩
    rw [hbits, unpackedBits_artBytes s (Nat.sub_le _ _)]
    exact ⟨rfl, fun i hi => bitAt_setBits_eq s' s (hi.trans_le (bitLen_setBits_le s _))⟩

/-- Settles O27: each check applies where those before it pass. -/
theorem packAndUnpackPreCheckErrors : Obligations.PackAndUnpackPreCheckErrors := by
  intro s
  have hneeded : artifactLength s.bitLen.toNat = 2 + s.bitLen.toNat / 8 := by
    rw [artifactLength_eq, Nat.add_comm]
  refine ⟨exec_pack_badLength, fun hlen hbig => ?_, exec_unpack_badLength, fun h => exec_unpack_noByte (by simp [h]),
    fun hlen hpos hbad => exec_unpack_badPad hlen (by omega) (by omega), fun hlen hpos hpad1 hpad8 =>
      ⟨exec_unpack_padTooLong hlen hpad1 hpad8 (by omega), exec_unpack_outOverflow hlen hpad1 hpad8⟩⟩
  rw [← hneeded] at hbig ⊢
  exact exec_pack_outOverflow hlen hbig

end Sys2Proof.Machine
end

section
/-! SUPPORT. DECODE on the tree of the arena (43_decoder.md R180 to R184): what its automaton gives for paths, for an
unfinished path and for one path too many, which state answers which completion, and that it inverts the Code Map. -/

namespace Sys2Proof.Machine

/-- An arena with the invariant holds the tree that it shows, each entry once. -/
theorem holdsTree_of_tree {s : State} {t : CodeTree} (h : arenaOk s) (ht : s.tree = some t) :
    ∃ is, holdsTree s.nodeAt t s.root.toNat is ∧ is.Nodup := by
  obtain ⟨_, is, ht', hholds, hnodup, -⟩ := tree_of_arenaOk h
  cases ht.symm.trans ht'
  exact ⟨is, hholds, hnodup⟩

theorem not_mem_tail_of_holdsTree {node : Nat → Node} {t : CodeTree} {n : Nat} {is : List Nat}
    (h : holdsTree node t n is) (hnd : is.Nodup) : n ∉ is.tail := by
  cases t with
  | leaf w x =>
    obtain ⟨-, rfl⟩ := h
    exact List.not_mem_nil
  | node w a b =>
    obtain ⟨_, _, _, _, -, -, -, rfl, -⟩ := h
    exact (List.nodup_cons.mp hnd).1

/-! ### The symbols of a bitstring -/

theorem decodedSymbols_leaf {node : Nat → Node} {root : Nat} {w : Weight} {x : Sym} (h : node root = .leaf w x)
    (cap : Nat) (bits : List Bool) : decodedSymbols node root cap bits = repeatSym x cap 0 bits := by
  rw [decodedSymbols, h]

section
variable {node : Nat → Node} {root : Nat} {w : Weight} {l r : CodeTree} {is : List Nat}
  (h : holdsTree node (.node w l r) root is)
include h

theorem decodedSymbols_node (cap : Nat) (bits : List Bool) :
    decodedSymbols node root cap bits = walkBits node root cap 0 root 0 0 bits := by
  obtain ⟨_, _, _, _, hroot, -⟩ := h
  rw [decodedSymbols, hroot]

variable (hnd : is.Nodup) {cap : Nat} {xs : List (Sym × List Bool)}
  (hxs : ∀ x ∈ xs, x ∈ (CodeTree.node w l r).paths)
include hnd hxs

/-- After a sequence of paths that fit, an error of the rest is DECODE's error. -/
theorem decodedSymbols_paths_error (hcap : xs.length ≤ cap) {rest : List Bool} {e : ResultCode × Word}
    (he : ∀ start, walkBits node root cap (xs.flatMap Prod.snd).length root start xs.length rest = .error e) :
    decodedSymbols node root cap (xs.flatMap Prod.snd ++ rest) = .error e := by
  obtain ⟨start, hwalk⟩ := walkBits_paths h hnd xs hxs 0 0 0 ((Nat.zero_add _).trans_le hcap) rest
  rw [decodedSymbols_node h, hwalk, Nat.zero_add, Nat.zero_add, he]

/-- A sequence of paths that fit gives the leaves' symbols (43_decoder.md R180). -/
theorem decodedSymbols_paths (hcap : xs.length ≤ cap) :
    decodedSymbols node root cap (xs.flatMap Prod.snd) = .ok (xs.map Prod.fst) := by
  obtain ⟨start, hwalk⟩ := walkBits_paths h hnd xs hxs 0 0 0 ((Nat.zero_add _).trans_le hcap) []
  rw [List.append_nil] at hwalk
  rw [decodedSymbols_node h, hwalk, walkBits, if_neg (not_not_intro rfl)]
  exact congrArg Except.ok (List.append_nil _)

/-- Bits that stop inside a path give the index of that path's first bit (43_decoder.md R182). -/
theorem decodedSymbols_unfinished (hcap : xs.length ≤ cap) {p : Sym × List Bool} {q : List Bool}
    (hp : p ∈ (CodeTree.node w l r).paths) (hq : q <+: p.2) (hne : q ≠ p.2) (hq0 : q ≠ []) :
    decodedSymbols node root cap (xs.flatMap Prod.snd ++ q) =
      .error (.treeBitstreamMismatch, BitVec.ofNat 32 (xs.flatMap Prod.snd).length) := by
  refine decodedSymbols_paths_error h hnd hxs hcap fun start => ?_
  rw [walkBits_unfinished h (not_mem_tail_of_holdsTree h hnd) hp hq hne (.inl hq0), if_neg hq0, codeStart,
    if_pos rfl]

/-- One path more than fits gives the index of its last bit (43_decoder.md R180). -/
theorem decodedSymbols_overflow (hcap : xs.length = cap + 1) (rest : List Bool) :
    decodedSymbols node root cap (xs.flatMap Prod.snd ++ rest) =
      .error (.outOverflow, BitVec.ofNat 32 ((xs.flatMap Prod.snd).length - 1)) := by
  obtain rfl | ⟨ys, p, rfl⟩ := xs.eq_nil_or_concat'
  · cases hcap
  simp only [List.mem_append, List.mem_singleton, List.length_append, List.length_singleton] at hxs hcap
  have hp := hxs p (.inr rfl)
  have hne : p.2 ≠ [] := List.length_pos_iff.mp (CodeTree.node_path_pos hp)
  have hfull : ys.length ≥ cap := by omega
  rw [List.flatMap_append, List.flatMap_singleton, List.append_assoc, List.length_append]
  refine decodedSymbols_paths_error h hnd (fun x hx => hxs x (.inl hx)) (by omega) fun start => ?_
  rw [walkBits_path h (not_mem_tail_of_holdsTree h hnd) hp hne, if_pos hfull]

end

/-! ### Decoding the codes of the Code Map (43_decoder.md R184) -/

/-- Where a symbol of a tree of two leaves or more has a code, the code is its leaf's path. -/
theorem mem_paths_of_coded {w : Weight} {l r : CodeTree} {codes : List (Sym × Code)}
    (hcodes : treeCodes (.node w l r) = .ok codes) {x : Sym} (hx : (codeFor codes x.toNat).len ≠ 0) :
    (x, codeBits (codeFor codes x.toNat)) ∈ (CodeTree.node w l r).paths := by
  have hdepth := paths_le_of_treeCodes hcodes
  obtain ⟨c, hc, hsym, hcode⟩ := mem_of_codeFor hx
  cases pathCodes_of_treeCodes hcodes
  obtain ⟨p, hp, rfl⟩ := List.mem_map.mp hc
  rw [hcode, codeBits_pathCode (hdepth p hp), ← BitVec.eq_of_toNat_eq hsym]
  exact hp

/-- The one coded symbol of the one-leaf tree is the leaf's, with a code of one bit (41_code_map.md R141). -/
theorem coded_leaf {w : Weight} {x y : Sym} {codes : List (Sym × Code)} (hcodes : treeCodes (.leaf w x) = .ok codes)
    (hy : (codeFor codes y.toNat).len ≠ 0) : y = x ∧ (codeBits (codeFor codes y.toNat)).length = 1 := by
  cases hcodes
  obtain ⟨c, hc, hsym, hcode⟩ := mem_of_codeFor hy
  cases List.mem_singleton.mp hc
  exact ⟨(BitVec.eq_of_toNat_eq hsym).symm, by rw [hcode, codeBits_length]; rfl⟩

/-- DECODE inverts the Code Map: the codes of symbols that fit decode to those symbols, on every tree. -/
theorem decodedSymbols_codeBits {node : Nat → Node} {t : CodeTree} {root cap : Nat} {is : List Nat}
    {codes : List (Sym × Code)} {syms : List Sym} (h : holdsTree node t root is) (hnd : is.Nodup)
    (hcodes : treeCodes t = .ok codes) (hsyms : ∀ x ∈ syms, (codeFor codes x.toNat).len ≠ 0)
    (hcap : syms.length ≤ cap) :
    decodedSymbols node root cap (syms.flatMap fun x => codeBits (codeFor codes x.toNat)) = .ok syms := by
  cases t with
  | leaf w x =>
    have hone := fun y hy => coded_leaf hcodes (hsyms y hy)
    have hlength : (syms.flatMap fun y => codeBits (codeFor codes y.toNat)).length = syms.length := by
      rw [List.length_flatMap, List.map_congr_left fun y hy => (hone y hy).2]
      simp
    rw [decodedSymbols_leaf h.1, repeatSym_ok _ _ _ _ (by omega), hlength,
      ← List.eq_replicate_of_mem fun y hy => (hone y hy).1]
  | node w l r =>
    have hpaths : ∀ p ∈ syms.map (fun x => (x, codeBits (codeFor codes x.toNat))),
        p ∈ (CodeTree.node w l r).paths := by
      intro p hp
      obtain ⟨x, hx, rfl⟩ := List.mem_map.mp hp
      exact mem_paths_of_coded hcodes (hsyms x hx)
    have hdecoded := decodedSymbols_paths h hnd hpaths ((List.length_map _).trans_le hcap)
    simpa only [List.flatMap_map, List.map_map, Function.comp_def, List.map_id'] using hdecoded

/-! ### What SYMBUF and SYM_COUNT show after symbols are written -/

theorem symAt_setSyms (s : State) {syms : List Sym} {i : Nat} {x : Sym} (h : syms[i]? = some x) :
    (s.setSyms syms).symAt i = x := by
  simp [State.symAt, h]

theorem symbols_getElem? (s : State) {n i : Nat} (h : i < n) : (s.symbols n)[i]? = some (s.symAt i) := by
  simp [State.symbols, h]

theorem symbols_setSyms (s : State) (syms : List Sym) : (s.setSyms syms).symbols syms.length = syms := by
  apply List.ext_getElem (symbols_length _ _)
  intro i hi hi'
  rw [← Option.some_inj, ← List.getElem?_eq_getElem hi, symbols_getElem? _ hi',
    symAt_setSyms s (List.getElem?_eq_getElem hi')]

/-- SYM_COUNT holds the number of symbols wherever they fit SYMBUF. -/
theorem symCount_setSyms {s : State} {syms : List Sym} (hc : s.cfg.legal = true)
    (hfit : syms.length ≤ s.cfg.symbufMax) : (s.setSyms syms).symCount.toNat = syms.length := by
  obtain ⟨-, -, ⟨-, -, hcap⟩, -⟩ := (legal_iff _).mp hc
  rw [setSyms_symCount, BitVec.toNat_ofNat]
  exact Nat.mod_eq_of_lt (by omega)

/-! ### The completions past the pre-checks (43_decoder.md R180) -/

section
variable {s : State} (hv : s.treeValid = true) (hlen : s.bitLen.toNat ≤ s.cfg.bitbufBits)
include hv hlen

theorem exec_decode_ok {syms : List Sym}
    (hd : decodedSymbols s.nodeAt s.root.toNat s.cfg.symbufMax (s.bitstring s.bitLen.toNat) = .ok syms) :
    exec .decode s = .next ((s.setSyms syms).complete .ok 0) := by
  rcases execDecode_cases s with ⟨hno, _⟩ | ⟨_, hlong, _⟩ | ⟨_, _, _, _, he, _⟩ | ⟨_, _, _, hd', e⟩
  · cases hv.symm.trans hno
  · omega
  · cases hd.symm.trans he
  · cases hd.symm.trans hd'
    exact e

theorem exec_decode_error {c : ResultCode} {info : Word}
    (he : decodedSymbols s.nodeAt s.root.toNat s.cfg.symbufMax (s.bitstring s.bitLen.toNat) = .error (c, info)) :
    exec .decode s = .next (s.loseSyms.complete c info) := by
  rcases execDecode_cases s with ⟨hno, _⟩ | ⟨_, hlong, _⟩ | ⟨_, _, _, _, he', e⟩ | ⟨_, _, _, hd, _⟩
  · cases hv.symm.trans hno
  · omega
  · cases he.symm.trans he'
    exact e
  · cases he.symm.trans hd

end

/-! ### A successful ENCODE (42_bit_packer.md R150) -/

/-- ENCODE ends with OK only where every symbol has a code and the codes fit, and writes the codes. -/
theorem bits_of_encode_ok {s t : State} (h : exec .encode s = .next t) (hok : t.errCode = .ok) :
    s.codesValid = true ∧ s.symCount.toNat ≤ s.cfg.symbufMax ∧
      (∀ x ∈ s.symbols s.symCount.toNat, x.toNat < s.cfg.nsym ∧ (s.ctabAt x.toNat).len ≠ 0) ∧
      ∃ bits, bits = (s.symbols s.symCount.toNat).flatMap (fun x => codeBits (s.ctabAt x.toNat)) ∧
        bits.length ≤ s.cfg.bitbufBits ∧ t = (s.setBits bits).complete .ok 0 := by
  rcases execEncode_cases s with ⟨_, e⟩ | ⟨_, _, e⟩ | ⟨_, _, c, i, hx, e⟩ | ⟨hv, hcount, bits, hb, e⟩
  · cases h.symm.trans e
    cases hok
  · cases h.symm.trans e
    cases hok
  · cases h.symm.trans e
    cases (show c = .ok from hok)
    exact absurd (encodeFrom_codes hx) (by decide)
  · cases h.symm.trans e
    obtain ⟨hcoded, -, hbits⟩ := (encodeFrom_ok_iff (Nat.zero_le _)).mp hb
    exact ⟨hv, hcount, hcoded, bits, hbits, by simpa using encodeFrom_len (Nat.zero_le _) hb, rfl⟩

end Sys2Proof.Machine
end

section
/-! PROOFS. The statements about DECODE (43_decoder.md). -/

namespace Sys2Proof.Machine

/-- Settles O31: the automaton emits the symbol of each path, and SYMBUF holds them all. -/
theorem decodeFollowsThePaths : Obligations.DecodeFollowsThePaths := by
  intro s w l r xs hc hv harena ht hlen hxs hbits hcap
  obtain ⟨is, hholds, hnd⟩ := holdsTree_of_tree harena ht
  have hdecoded := decodedSymbols_paths hholds hnd hxs hcap
  rw [← hbits] at hdecoded
  have hlength : (xs.map Prod.fst).length = xs.length := List.length_map _
  refine ⟨_, exec_decode_ok hv hlen hdecoded, (symCount_setSyms hc (hlength.trans_le hcap)).trans hlength, ?_, rfl⟩
  exact hlength ▸ symbols_setSyms s (xs.map Prod.fst)

/-- Settles O35: ENCODE leaves the codes of the symbols, which DECODE inverts on the same tree. -/
theorem encodeThenDecodeRestoresTheSymbols : Obligations.EncodeThenDecodeRestoresTheSymbols := by
  intro s t hinv hexec hok
  obtain ⟨hcv, hcount, hcoded, bits, hbits, hfit, rfl⟩ := bits_of_encode_ok hexec hok
  obtain ⟨tree, codes, htree, hcodes, hctab, -⟩ := hinv.codes hcv
  obtain ⟨is, hholds, hnd⟩ := holdsTree_of_tree (hinv.tree (hinv.codesNeedTree hcv)) htree
  have hentry := fun x hx => hctab x.toNat (hcoded x hx).1
  have hbitLen := bitLen_setBits (s := s) hinv.legal hfit
  have hdecoded := decodedSymbols_codeBits hholds hnd hcodes (fun x hx => hentry x hx ▸ (hcoded x hx).2)
    ((symbols_length s _).trans_le hcount)
  rw [← List.flatMap_congr fun x hx => congrArg codeBits (hentry x hx), ← hbits, ← bitstring_setBits s bits,
    ← hbitLen] at hdecoded
  refine ⟨_, exec_decode_ok (s := (s.setBits bits).complete .ok 0) (hinv.codesNeedTree hcv) (hbitLen.trans_le hfit)
    hdecoded, rfl, ?_, fun j hj => symAt_setSyms _ (symbols_getElem? s hj)⟩
  simp

/-- Settles O32: the paths fit, and the rest of the bits stops inside a path. -/
theorem decodeReportsAnUnfinishedCode : Obligations.DecodeReportsAnUnfinishedCode := by
  intro s w l r xs q _ hv harena ht hlen hxs ⟨p, hp, hq, hne⟩ hq0 hbits hcap
  obtain ⟨is, hholds, hnd⟩ := holdsTree_of_tree harena ht
  have herror := decodedSymbols_unfinished hholds hnd hxs hcap hp hq hne hq0
  exact ⟨_, exec_decode_error hv hlen (hbits ▸ herror), rfl⟩

/-- Settles O33: all paths but the last fit; on the one-leaf tree each bit is a symbol. -/
theorem decodeReportsSymbolOverflow : Obligations.DecodeReportsSymbolOverflow := by
  constructor
  · intro s w l r xs rest _ hv harena ht hlen hxs hbits hcap
    obtain ⟨is, hholds, hnd⟩ := holdsTree_of_tree harena ht
    have herror := decodedSymbols_overflow hholds hnd hxs hcap rest
    exact ⟨_, exec_decode_error hv hlen (hbits ▸ herror), rfl⟩
  · intro s w x hv hroot hlen hbig
    have herror := repeatSym_overflow x s.cfg.symbufMax 0 (s.bitstring s.bitLen.toNat) (Nat.zero_le _) (by simpa)
    exact ⟨_, exec_decode_error hv hlen ((decodedSymbols_leaf hroot _ _).trans herror), rfl⟩

/-- Settles O34: the automaton emits the root's symbol for each bit, and SYMBUF holds them all. -/
theorem degenerateTreeDecodesEveryBit : Obligations.DegenerateTreeDecodesEveryBit := by
  intro s w x hv hroot hlen hcap
  have hdecoded := repeatSym_ok x s.cfg.symbufMax 0 (s.bitstring s.bitLen.toNat) (by simpa)
  rw [bitstring_length, ← decodedSymbols_leaf hroot] at hdecoded
  have hcount : (s.setSyms (List.replicate s.bitLen.toNat x)).symCount = s.bitLen := by simp
  have hsyms := symbols_setSyms s (List.replicate s.bitLen.toNat x)
  rw [List.length_replicate] at hsyms
  exact ⟨_, exec_decode_ok hv hlen hdecoded, hcount, hsyms, by simp [State.setSyms]⟩

end Sys2Proof.Machine
end

section
/-! SUPPORT. SERIALIZE and DESERIALIZE (44_tree_serializer.md R190 to R199): the bytes that TREEBUF shows, which state
answers which completion, the arena that DESERIALIZE leaves, and when an error of one record is the whole parse's. -/

namespace Sys2Proof.Machine

open Sys2Proof.Claims

/-! ### The bytes of TREEBUF -/

@[simp] theorem treeBytes_length (s : State) : (treeBytes s).length = s.treeLen.toNat := by simp [treeBytes]

/-- The bytes that TREE_LEN counts, as the parse reads them. -/
theorem treeBytes_eq_iff {s : State} {bs : List Byte} :
    treeBytes s = bs ↔ bytesAt s.treeByte 0 bs ∧ bs.length = s.treeLen.toNat := by
  constructor
  · rintro rfl
    refine ⟨fun k x hk => ?_, treeBytes_length s⟩
    obtain ⟨hk, rfl⟩ := List.getElem?_eq_some_iff.mp hk
    simp [treeBytes]
  · rintro ⟨hb, hlen⟩
    refine List.ext_getElem ((treeBytes_length s).trans hlen.symm) fun k hk hk' => ?_
    rw [← hb k _ (List.getElem?_eq_getElem hk')]
    simp [treeBytes]

/-- Bytes that stand at the front of TREEBUF, within TREE_LEN, with the rest that TREE_LEN counts. -/
theorem treeBytes_eq_append {s : State} {bs : List Byte} (h : bytesAt s.treeByte 0 bs)
    (hl : bs.length ≤ s.treeLen.toNat) :
    ∃ rest, treeBytes s = bs ++ rest ∧ bs.length + rest.length = s.treeLen.toNat := by
  have hfront : bs <+: treeBytes s := List.prefix_iff_getElem?.mpr fun k hk => by
    rw [← h k _ (List.getElem?_eq_getElem hk), Nat.zero_add]
    simp [treeBytes, hk.trans_le hl]
  obtain ⟨rest, hrest⟩ := hfront
  exact ⟨rest, hrest.symm, by rw [← treeBytes_length, ← hrest, List.length_append]⟩

theorem treeBytes_eq_cons {s : State} {b : Byte} (h : s.treeByte 0 = b) (hl : 0 < s.treeLen.toNat) :
    ∃ rest, treeBytes s = b :: rest ∧ 1 + rest.length = s.treeLen.toNat :=
  treeBytes_eq_append (bs := [b]) (bytesAt_cons.mpr ⟨h, fun _ _ hk => by cases hk⟩) hl

theorem treeByte_setTreeBytes (s : State) {bs : List Byte} {i : Nat} {b : Byte} (h : bs[i]? = some b) :
    (s.setTreeBytes bs bs.length).treeByte i = b := by
  simp [State.treeByte, h]

/-- TREE_LEN holds the number of bytes wherever they fit TREEBUF. -/
theorem treeLen_setTreeBytes {s : State} {bs : List Byte} (hc : s.cfg.legal = true)
    (hfit : bs.length ≤ s.cfg.treeMax) : (s.setTreeBytes bs bs.length).treeLen.toNat = bs.length := by
  obtain ⟨-, -, -, -, -, ⟨-, -, hcap⟩⟩ := (legal_iff _).mp hc
  rw [setTreeBytes_treeLen, BitVec.toNat_ofNat]
  exact Nat.mod_eq_of_lt (by omega)

theorem treeBytes_setTreeBytes {s : State} {bs : List Byte} (hc : s.cfg.legal = true)
    (hfit : bs.length ≤ s.cfg.treeMax) : treeBytes (s.setTreeBytes bs bs.length) = bs := by
  refine treeBytes_eq_iff.mpr ⟨fun k b hk => ?_, (treeLen_setTreeBytes hc hfit).symm⟩
  rw [Nat.zero_add]
  exact treeByte_setTreeBytes s hk

/-- A leaf's tag starts the record of the weight and the symbol that stand after it (30_encoding.md R106). -/
theorem bytesAt_leafRecord {byte : Nat → Byte} {p : Nat} (h : byte p = 0) :
    bytesAt byte p (leafRecord (be32 byte (p + 1)) (be16 byte (p + 5))) := by
  rw [leafRecord, bytesBe32_be32, bytesBe16_be16]
  simp only [List.cons_append, List.nil_append, bytesAt_cons, h, Nat.add_assoc, Nat.reduceAdd, true_and]
  intro k x hk
  cases hk

/-! ### SERIALIZE (44_tree_serializer.md R190) -/

theorem sumsExact_of_holdsTree {node : Nat → Node} {t : CodeTree} {n : Nat} {is : List Nat}
    (h : holdsTree node t n is) : t.sumsExact := by
  induction t generalizing n is with
  | leaf w x => trivial
  | node w a b iha ihb =>
    obtain ⟨_, _, _, _, -, ha, hb, -, hsum⟩ := h
    exact ⟨hsum, iha ha, ihb hb⟩

/-- The tree of an arena with the invariant is an allowed one, and the descriptor counts it (10_state.md R42). -/
theorem treeOk_of_arenaOk {s : State} {t : CodeTree} (h : arenaOk s) (ht : s.tree = some t) :
    treeOk s.cfg.nsym t ∧ s.leafCount.toNat = t.syms.length ∧ s.nodeCount.toNat = 2 * t.syms.length - 1 := by
  obtain ⟨_, _, ht', hholds, -, -, hnodup, hsyms, hpos, hleaves, hnodes⟩ := tree_of_arenaOk h
  cases ht.symm.trans ht'
  exact ⟨⟨hnodup, hsyms, hpos, sumsExact_of_holdsTree hholds⟩, hleaves, hnodes⟩

/-- TREE_MAX holds the records of every allowed tree (00_scope.md R8). -/
theorem serTree_length_le {c : Config} {t : CodeTree} (hc : c.legal = true) (ht : treeOk c.nsym t) :
    (serTree t).length ≤ c.treeMax := by
  obtain ⟨-, -, -, -, -, ⟨-, hcap, -⟩⟩ := (legal_iff _).mp hc
  have hlen := serTree_length t
  have hleaves := syms_length_le ht.1 ht.2.1
  omega

/-- The state with the records of this tree in TREEBUF. -/
def State.serialized (s : State) (t : CodeTree) : State := s.setTreeBytes (serTree t) (serTree t).length

section
variable {s : State} {t : CodeTree} (hc : s.cfg.legal = true) (ht : treeOk s.cfg.nsym t)
include hc ht

theorem treeLen_serialized : (s.serialized t).treeLen.toNat = (serTree t).length :=
  treeLen_setTreeBytes hc (serTree_length_le hc ht)

theorem treeBytes_serialized : treeBytes (s.serialized t) = serTree t :=
  treeBytes_setTreeBytes hc (serTree_length_le hc ht)

end

theorem exec_serialize_ok {s : State} {t : CodeTree} (hc : s.cfg.legal = true) (hv : s.treeValid = true)
    (ha : arenaOk s) (ht : s.tree = some t) :
    exec .serialize s = .next ((s.serialized t).complete .ok 0) := by
  obtain ⟨htree, hleaves, -⟩ := treeOk_of_arenaOk ha ht
  have hfit := serTree_length_le hc htree
  have hlen : 12 * s.leafCount.toNat - 5 = (serTree t).length := by
    have := serTree_length t
    omega
  rcases execSerialize_cases s with ⟨hno, _⟩ | ⟨_, hlong, _⟩ | ⟨_, _, hnone, _⟩ | ⟨_, _, t', ht', e⟩
  · cases hv.symm.trans hno
  · omega
  · cases ht.symm.trans hnone
  · cases ht.symm.trans ht'
    rwa [hlen] at e

/-! ### DESERIALIZE, each completion (44_tree_serializer.md R195) -/

theorem exec_deserialize_badLength {s : State} (h : s.cfg.treeMax < s.treeLen.toNat) :
    exec .deserialize s = .next (s.complete .badLength 0x028) := by
  rcases execDeserialize_cases s with ⟨_, e⟩ | ⟨hfit, _⟩ | ⟨hfit, _⟩
  · exact e
  · omega
  · omega

section
variable {s : State} (hlen : s.treeLen.toNat ≤ s.cfg.treeMax)
include hlen

theorem exec_deserialize_ok {r : Parsed}
    (hr : parseBlob s.treeByte s.treeLen.toNat s.cfg.nodeMax s.cfg.nsym = .ok r) :
    exec .deserialize s = .next ((s.setArena r.nodes 0 ((r.nodes.length + 1) / 2)).complete .ok 0) := by
  rcases execDeserialize_cases s with ⟨hlong, _⟩ | ⟨_, _, he, _⟩ | ⟨_, _, hr', e⟩
  · omega
  · cases hr.symm.trans he
  · cases hr.symm.trans hr'
    exact e

theorem malformedAt_of_parseBlob {i : Nat}
    (he : parseBlob s.treeByte s.treeLen.toNat s.cfg.nodeMax s.cfg.nsym = .error i) : malformedAt s i := by
  rcases execDeserialize_cases s with ⟨hlong, _⟩ | ⟨_, _, he', e⟩ | ⟨_, _, hr, _⟩
  · omega
  · cases he.symm.trans he'
    exact ⟨_, e, rfl⟩
  · cases he.symm.trans hr

/-- DESERIALIZE ends with OK only where the blob parses. -/
theorem parseBlob_of_exec_ok {u : State} (h : exec .deserialize s = .next u) (hok : u.errCode = .ok) :
    ∃ r, parseBlob s.treeByte s.treeLen.toNat s.cfg.nodeMax s.cfg.nsym = .ok r := by
  rcases execDeserialize_cases s with ⟨hlong, _⟩ | ⟨_, _, _, e⟩ | ⟨_, r, hr, _⟩
  · omega
  · cases h.symm.trans e
    cases hok
  · exact ⟨r, hr⟩

end

/-- TREE_LEN as ERR_INFO, for a record that runs past the end (44_tree_serializer.md R196). -/
theorem arenaLost_of_malformedAt_treeLen {s : State} (h : malformedAt s s.treeLen.toNat) :
    ∃ u, exec .deserialize s = .next u ∧ u = arenaLost s u s.treeLen := by
  rwa [malformedAt, BitVec.ofNat_toNat, BitVec.setWidth_eq] at h

/-- The blobs that parse are the records of the allowed trees (44_tree_serializer.md R197). -/
theorem parseBlob_treeBytes_iff {s : State} {r : Parsed} (hc : s.cfg.legal = true) :
    parseBlob s.treeByte s.treeLen.toNat s.cfg.nodeMax s.cfg.nsym = .ok r ↔
      ∃ t, treeOk s.cfg.nsym t ∧ treeBytes s = serTree t ∧ r = parsedTree t 0 0 [] := by
  obtain ⟨-, ⟨hnsym, -⟩, -⟩ := (legal_iff _).mp hc
  simp only [treeBytes_eq_iff, and_assoc]
  exact parseBlob_ok_iff hnsym

/-! ### The arena that DESERIALIZE leaves (44_tree_serializer.md R198) -/

/-- The state with this tree in the arena, in pre-order from index 0. -/
def State.rebuilt (s : State) (t : CodeTree) : State := s.setArena (preNodes t 0) 0 t.syms.length

theorem exec_deserialize_of_tree {s : State} {t : CodeTree} (hc : s.cfg.legal = true)
    (hlen : s.treeLen.toNat ≤ s.cfg.treeMax) (ht : treeOk s.cfg.nsym t) (hb : treeBytes s = serTree t) :
    exec .deserialize s = .next ((s.rebuilt t).complete .ok 0) := by
  have hleaves : ((preNodes t 0).length + 1) / 2 = t.syms.length := by
    have := preNodes_length t 0
    omega
  rw [State.rebuilt, ← hleaves]
  exact exec_deserialize_ok hlen ((parseBlob_treeBytes_iff hc).mpr ⟨t, ht, hb, rfl⟩)

/-- In pre-order the left child of an internal entry is the next entry. -/
theorem preNodes_left {t : CodeTree} {i j : Nat} {x : Node} (h : (preNodes t i)[j]? = some x)
    (hx : x.isLeaf = false) : x.left = BitVec.ofNat 17 (i + j + 1) := by
  induction t generalizing i j with
  | leaf w y =>
    cases j with
    | zero =>
      cases h
      cases hx
    | succ j => cases h
  | node w l r ihl ihr =>
    cases j with
    | zero =>
      cases h
      rfl
    | succ j =>
      rw [preNodes, List.getElem?_cons_succ] at h
      by_cases hj : j < (preNodes l (i + 1)).length
      · rw [List.getElem?_append_left hj] at h
        rw [ihl h]
        congr 1
        omega
      · rw [List.getElem?_append_right (by omega)] at h
        rw [ihr h]
        congr 1
        omega

section
variable {s : State} {t : CodeTree} (hc : s.cfg.legal = true) (ht : treeOk s.cfg.nsym t)
include hc ht

/-- An allowed tree has between 1 and 65536 leaves, so its counts and indices fit their fields. -/
theorem syms_length_range : 1 ≤ t.syms.length ∧ t.syms.length ≤ s.cfg.nsym ∧ t.syms.length ≤ 65536 := by
  obtain ⟨-, ⟨-, hnsym⟩, -⟩ := (legal_iff _).mp hc
  have hleaves := syms_length_le ht.1 ht.2.1
  exact ⟨t.syms_pos, hleaves, by omega⟩

theorem rebuilt_leafCount : (s.rebuilt t).leafCount.toNat = t.syms.length := by
  have hk := syms_length_range hc ht
  exact Nat.mod_eq_of_lt (by omega)

theorem rebuilt_nodeCount : (s.rebuilt t).nodeCount.toNat = 2 * t.syms.length - 1 := by
  have hk := syms_length_range hc ht
  have hlen := preNodes_length t 0
  rw [State.rebuilt, setArena_nodeCount, BitVec.toNat_ofNat, Nat.mod_eq_of_lt (by omega)]
  omega

theorem holdsTree_rebuilt :
    holdsTree (arenaOf (Config.anyNode s.draws) (preNodes t 0)) t 0 (List.range (preNodes t 0).length) := by
  have hk := syms_length_range hc ht
  have hlen := preNodes_length t 0
  obtain ⟨-, -, -, hsums⟩ := ht
  rw [List.range_eq_range']
  exact holdsTree_preNodes t 0 hsums (by omega) fun k x hk => by simp [arenaOf, hk]

theorem arenaOk_rebuilt : arenaOk (s.rebuilt t) :=
  (arenaOk_setArena hc (holdsTree_rebuilt hc ht) (.refl _) ht.1 ht.2.1 ht.2.2.1).2

theorem tree_rebuilt : (s.rebuilt t).tree = some t := by
  have hk := syms_length_range hc ht
  have hholds := holdsTree_congr (node' := (s.rebuilt t).nodeAt) (holdsTree_rebuilt hc ht)
    fun n _ => setArena_nodeAt ..
  exact treeAt_of_holdsTree hholds (show _ ≤ 2 * s.cfg.nsym - 1 by omega)

theorem rebuilt_left {j : Nat} (hj : j < (s.rebuilt t).nodeCount.toNat)
    (hx : ((s.rebuilt t).nodeAt j).isLeaf = false) : ((s.rebuilt t).nodeAt j).left.toNat = j + 1 := by
  have hk := syms_length_range hc ht
  have hlen := preNodes_length t 0
  rw [rebuilt_nodeCount hc ht] at hj
  have hentry := List.getElem?_eq_getElem (show j < (preNodes t 0).length by omega)
  rw [State.rebuilt, setArena_nodeAt, hentry, Option.getD_some] at hx ⊢
  rw [preNodes_left hentry hx, BitVec.toNat_ofNat, Nat.mod_eq_of_lt (by omega)]
  omega

end

/-! ### The first wrong record (44_tree_serializer.md R196) -/

/-- Nothing is wrong before the first record. -/
theorem subtreesOk_nil (nsym : Nat) : subtreesOk nsym (treesBefore []) := by simp [subtreesOk, treesBefore]

theorem subtreesOk_append {nsym : Nat} {as bs : List CodeTree} (h : subtreesOk nsym (as ++ bs)) :
    subtreesOk nsym bs ∧ ∀ x ∈ bs.flatMap CodeTree.syms, x ∉ as.flatMap CodeTree.syms := by
  obtain ⟨hnodup, hsyms, hsums⟩ := h
  rw [List.flatMap_append] at hnodup hsyms
  obtain ⟨-, hnodup, hdisjoint⟩ := List.nodup_append.mp hnodup
  exact ⟨⟨hnodup, fun x hx => hsyms x (List.mem_append_right _ hx), fun t ht => hsums t (List.mem_append_right _ ht)⟩,
    fun x hx hx' => hdisjoint x hx' x hx rfl⟩

section
variable {byte : Nat → Byte} {len nodeMax nsym fuel i p : Nat} {seen : List Sym} (hfuel : nodeMax + 1 ≤ fuel + i)
include hfuel

/-- The records of an allowed tree with new symbols parse wherever they fit the arena. -/
theorem parseRecord_of_treeOk {t : CodeTree} (ht : treeOk nsym t) (hb : bytesAt byte p (serTree t))
    (hl : p + (serTree t).length ≤ len) (hnew : ∀ x ∈ t.syms, x ∉ seen)
    (hfit : i + (2 * t.syms.length - 1) ≤ nodeMax) :
    parseRecord byte len nodeMax nsym fuel i p seen = .ok (parsedTree t i p seen) := by
  obtain ⟨hnodup, hsyms, hpos, hsums⟩ := ht
  have hnodes := preNodes_length t i
  exact parseRecord_of_tree t (treeDepth_fits hfuel (by omega)) hb hl hnodup hnew hsyms hpos hsums (by omega)

/-- The records of two subtrees of one tree with new symbols parse one after the other. -/
theorem parseRecord_of_subtrees {l r : CodeTree} (ho : subtreesOk nsym [l, r])
    (hb : bytesAt byte p (serTree l ++ serTree r)) (hl : p + (serTree l ++ serTree r).length ≤ len)
    (hnew : ∀ x ∈ [l, r].flatMap CodeTree.syms, x ∉ seen) (hfit : i + recordsOf [l, r] ≤ nodeMax) :
    ∃ a b, parseRecord byte len nodeMax nsym fuel i p seen = .ok a ∧
      parseRecord byte len nodeMax nsym fuel (i + a.nodes.length) a.pos a.seen = .ok b ∧
      a.weight = l.weight.toNat ∧ b.weight = r.weight.toNat := by
  obtain ⟨htl, hr, hdisjoint⟩ := subtreesOk_cons ho
  obtain ⟨htr, -⟩ := subtreesOk_cons hr
  obtain ⟨hbl, hbr⟩ := bytesAt_append.mp hb
  have hnodes := preNodes_length l i
  simp only [recordsOf, List.map_cons, List.map_nil, List.sum_cons, List.sum_nil] at hfit
  simp only [List.flatMap_cons, List.flatMap_nil, List.append_nil, List.mem_append] at hnew hdisjoint
  rw [List.length_append] at hl
  have hnewr : ∀ x ∈ r.syms, x ∉ l.syms.reverse ++ seen := fun x hx => by
    rw [List.mem_append, List.mem_reverse]
    exact not_or.mpr ⟨fun hx' => hdisjoint x hx' hx, hnew x (.inr hx)⟩
  exact ⟨_, _, parseRecord_of_treeOk hfuel htl hbl (by omega) (fun x hx => hnew x (.inl hx)) (by omega),
    parseRecord_of_treeOk (i := i + (preNodes l i).length) (p := p + (serTree l).length) (by omega) htr hbr (by omega)
      hnewr (by omega), rfl, rfl⟩

end

section
variable {s : State} (hlen : s.treeLen.toNat ≤ s.cfg.treeMax)
include hlen

/-- An error of the first record is the whole blob's. -/
theorem malformedAt_of_parseRecord {e : Nat}
    (h : parseRecord s.treeByte s.treeLen.toNat s.cfg.nodeMax s.cfg.nsym (s.cfg.nodeMax + 1) 0 0 [] = .error e) :
    malformedAt s e :=
  malformedAt_of_parseBlob hlen (by rw [parseBlob, h])

/-- Bytes after a whole allowed tree are reported at the first of them (44_tree_serializer.md R195). -/
theorem malformedAt_trailing {t : CodeTree} (ht : treeOk s.cfg.nsym t) (hb : bytesAt s.treeByte 0 (serTree t))
    (hl : (serTree t).length < s.treeLen.toNat) : malformedAt s (serTree t).length := by
  have hk := syms_length_le ht.1 ht.2.1
  have hparse := parseRecord_of_treeOk (len := s.treeLen.toNat) (nodeMax := s.cfg.nodeMax) (i := 0) (p := 0)
    (seen := []) le_rfl ht hb (by omega) (by simp) (show _ ≤ 2 * s.cfg.nsym - 1 by omega)
  refine malformedAt_of_parseBlob hlen ?_
  rw [parseBlob, hparse]
  simp [parsedTree, hl.ne]

section
variable {up : List (Weight × Option CodeTree)} {rest : List Byte} (hb : treeBytes s = bytesBefore up ++ rest)
  (ho : subtreesOk s.cfg.nsym (treesBefore up)) (hi : recordsBefore up ≤ s.cfg.nodeMax)
include hb ho hi

/-- The parse comes to the record that stands after `up` with the symbols before it seen, and an error there is the
whole blob's. -/
theorem parse_reaches_record : ∃ fuel seen, s.cfg.nodeMax ≤ fuel + recordsBefore up ∧
    (∀ x, x ∈ seen ↔ x ∈ (treesBefore up).flatMap CodeTree.syms) ∧
    bytesAt s.treeByte (bytesBefore up).length rest ∧ (bytesBefore up).length + rest.length = s.treeLen.toNat ∧
    ∀ e, parseRecord s.treeByte s.treeLen.toNat s.cfg.nodeMax s.cfg.nsym (fuel + 1) (recordsBefore up)
      (bytesBefore up).length seen = .error e → malformedAt s e := by
  obtain ⟨hbytes, hl⟩ := treeBytes_eq_iff.mp hb
  obtain ⟨hbefore, hrest⟩ := bytesAt_append.mp hbytes
  rw [Nat.zero_add] at hrest
  rw [List.length_append] at hl
  obtain ⟨fuel, seen, hfuel, hseen, hafter⟩ := parseRecord_error_after (len := s.treeLen.toNat) up
    (fuel := s.cfg.nodeMax + 1) (i := 0) (seen := []) le_rfl hbefore (by omega) ho (by simp) (by omega)
  obtain ⟨fuel, rfl⟩ : ∃ f, fuel = f + 1 := ⟨fuel - 1, by omega⟩
  simp only [Nat.zero_add] at hafter
  exact ⟨fuel, seen, by omega, by simpa using hseen, hrest, hl,
    fun e he => malformedAt_of_parseRecord hlen (hafter e he)⟩

/-! What the parse reports at that record, a lemma for each row of 44_tree_serializer.md R196. -/

theorem malformedAt_end (hr : rest = []) : malformedAt s s.treeLen.toNat := by
  obtain ⟨_, _, -, -, -, hl, hafter⟩ := parse_reaches_record hlen hb ho hi
  obtain ⟨hend, -⟩ := parseRecord_error
  rw [hr, List.length_nil] at hl
  exact hafter _ (hend (by omega))

theorem malformedAt_reservedTag {b : Byte} {bs : List Byte} (hr : rest = b :: bs) (hbad : 1 < b.toNat) :
    malformedAt s (bytesBefore up).length := by
  obtain ⟨_, _, -, -, hbytes, hl, hafter⟩ := parse_reaches_record hlen hb ho hi
  obtain ⟨-, htag, -⟩ := parseRecord_error
  rw [hr, List.length_cons] at hl
  obtain ⟨rfl, -⟩ := bytesAt_cons.mp (hr ▸ hbytes)
  exact hafter _ (htag (by omega) hbad)

theorem malformedAt_shortLeaf {bs : List Byte} (hr : rest = 0x00 :: bs) (hshort : bs.length < 6) :
    malformedAt s s.treeLen.toNat := by
  obtain ⟨_, _, -, -, hbytes, hl, hafter⟩ := parse_reaches_record hlen hb ho hi
  obtain ⟨-, -, hleaf, -⟩ := parseRecord_error
  rw [hr, List.length_cons] at hl
  exact hafter _ (hleaf (by omega) (bytesAt_cons.mp (hr ▸ hbytes)).1 (by omega))

theorem malformedAt_shortInternal {bs : List Byte} (hr : rest = 0x01 :: bs) (hshort : bs.length < 4) :
    malformedAt s s.treeLen.toNat := by
  obtain ⟨_, _, -, -, hbytes, hl, hafter⟩ := parse_reaches_record hlen hb ho hi
  obtain ⟨-, -, -, hinternal, -⟩ := parseRecord_error
  rw [hr, List.length_cons] at hl
  exact hafter _ (hinternal (by omega) (bytesAt_cons.mp (hr ▸ hbytes)).1 (by omega))

theorem malformedAt_badLeaf {w : Weight} {x : Sym} {bs : List Byte} (hr : rest = leafRecord w x ++ bs)
    (hbad : recordsBefore up = s.cfg.nodeMax ∨ w = 0 ∨ s.cfg.nsym ≤ x.toNat ∨
      x ∈ (treesBefore up).flatMap CodeTree.syms) : malformedAt s (bytesBefore up).length := by
  obtain ⟨_, _, -, hseen, hbytes, hl, hafter⟩ := parse_reaches_record hlen hb ho hi
  obtain ⟨-, -, -, -, -, hleaf⟩ := parseRecord_error
  rw [hr, List.length_append, leafRecord_length] at hl
  rw [← hseen] at hbad
  exact hafter _ (hleaf w x (by omega) (bytesAt_append.mp (hr ▸ hbytes)).1 (hbad.imp_left Eq.ge))

theorem malformedAt_tooManyRecords {w : Weight} {bs : List Byte} (hr : rest = internalRecord w ++ bs)
    (hmax : recordsBefore up = s.cfg.nodeMax) : malformedAt s (bytesBefore up).length := by
  obtain ⟨_, _, -, -, hbytes, hl, hafter⟩ := parse_reaches_record hlen hb ho hi
  obtain ⟨-, -, -, -, hmany, -⟩ := parseRecord_error
  rw [hr, List.length_append, internalRecord_length] at hl
  exact hafter _ (hmany (by omega) (bytesAt_cons.mp (bytesAt_append.mp (hr ▸ hbytes)).1).1 hmax.ge)

/-- An internal weight that is not the sum of its subtrees' weights, where both subtrees are right. -/
theorem malformedAt_wrongSum {w : Weight} {l r : CodeTree} {bs : List Byte}
    (hr : rest = internalRecord w ++ serTree l ++ serTree r ++ bs)
    (hlr : subtreesOk s.cfg.nsym (treesBefore up ++ [l, r]))
    (hfit : recordsBefore up + 1 + recordsOf [l, r] ≤ s.cfg.nodeMax)
    (hsum : w.toNat ≠ l.weight.toNat + r.weight.toNat) : malformedAt s (bytesBefore up).length := by
  obtain ⟨fuel, seen, hfuel, hseen, hbytes, hl, hafter⟩ := parse_reaches_record hlen hb ho hi
  rw [hr, List.append_assoc (internalRecord w)] at hbytes hl
  obtain ⟨hw, hsubtrees⟩ := bytesAt_append.mp (bytesAt_append.mp hbytes).1
  rw [List.length_append, List.length_append, internalRecord_length] at hl
  obtain ⟨hlr, hnew⟩ := subtreesOk_append hlr
  obtain ⟨a, b, ha, hb, hweightl, hweightr⟩ := parseRecord_of_subtrees (len := s.treeLen.toNat)
    (nodeMax := s.cfg.nodeMax) (fuel := fuel) (i := recordsBefore up + 1) (by omega) hlr hsubtrees
    (by rw [internalRecord_length]; omega) (fun x hx => (hseen x).not.mpr (hnew x hx)) hfit
  have hroom : recordsBefore up < s.cfg.nodeMax := by omega
  obtain ⟨-, hinternal⟩ := parseRecord_internal hw (len := s.treeLen.toNat) (by omega) hroom
  exact hafter _ ((hinternal a ha).2 b hb (by omega))

end
end

end Sys2Proof.Machine
end

section
/-! PROOFS. The statements about SERIALIZE and DESERIALIZE (44_tree_serializer.md). -/

namespace Sys2Proof.Machine

open Sys2Proof.Claims

/-- Settles O38: the records parse to the tree's entries in pre-order, and those hold the tree. -/
theorem deserializeRebuildsTheTree : Obligations.DeserializeRebuildsTheTree := fun _ _ hc hlen ht hb =>
  ⟨_, exec_deserialize_of_tree hc hlen ht hb, tree_rebuilt hc ht, arenaOk_congr rfl (arenaOk_rebuilt hc ht), rfl,
    rebuilt_leafCount hc ht, rebuilt_nodeCount hc ht, fun _ => rebuilt_left hc ht, rfl⟩

/-- Settles O39: what parses is the records of an allowed tree, and every allowed tree is rebuilt. -/
theorem deserializeAcceptsExactlySerializedTrees : Obligations.DeserializeAcceptsExactlySerializedTrees := by
  intro s u hc hlen hexec
  have haccepted (hok : u.errCode = .ok) : ∃ t, treeOk s.cfg.nsym t ∧ treeBytes s = serTree t := by
    obtain ⟨r, hr⟩ := parseBlob_of_exec_ok hlen hexec hok
    obtain ⟨t, ht, hb, -⟩ := (parseBlob_treeBytes_iff hc).mp hr
    exact ⟨t, ht, hb⟩
  refine ⟨⟨haccepted, fun ⟨t, ht, hb⟩ => ?_⟩, fun hok => ?_⟩
  · cases hexec.symm.trans (exec_deserialize_of_tree hc hlen ht hb)
    rfl
  · obtain ⟨t, ht, hb⟩ := haccepted hok
    cases hexec.symm.trans (exec_deserialize_of_tree hc hlen ht hb)
    exact arenaOk_congr rfl (arenaOk_rebuilt hc ht)

/-- Settles O41: the bytes are the records of the tree of the invariant, which DESERIALIZE rebuilds; its records are
the same bytes. -/
theorem serializeThenDeserializeRestoresTheTree : Obligations.SerializeThenDeserializeRestoresTheTree := by
  intro s hinv hv
  have hc := hinv.legal
  have harena := hinv.tree hv
  obtain ⟨t, _, htree, -⟩ := tree_of_arenaOk harena
  obtain ⟨ht, hleaves, hnodes⟩ := treeOk_of_arenaOk harena htree
  have hlen := (treeLen_serialized hc ht).trans_le (serTree_length_le hc ht)
  have hbytes := treeBytes_serialized hc ht
  have hrebuilt := tree_rebuilt (s := (s.serialized t).complete .ok 0) hc ht
  refine ⟨_, _, _, exec_serialize_ok hc hv harena htree, exec_deserialize_of_tree hc hlen ht hbytes, rfl, rfl,
    hrebuilt.trans htree.symm, ?_, ?_,
    exec_serialize_ok hc rfl (arenaOk_congr rfl (arenaOk_rebuilt hc ht)) hrebuilt, ?_⟩
  · exact BitVec.eq_of_toNat_eq ((rebuilt_leafCount hc ht).trans hleaves.symm)
  · exact BitVec.eq_of_toNat_eq ((rebuilt_nodeCount hc ht).trans hnodes.symm)
  · exact (treeBytes_serialized (s := (((s.serialized t).complete .ok 0).rebuilt t).complete .ok 0) hc ht).trans
      hbytes.symm

/-- Settles O37: TREE_MAX holds the records of every allowed tree, and 12·k − 5 is their length. -/
theorem serializeWritesTheTree : Obligations.SerializeWritesTheTree := by
  intro s t hc hv harena htree
  have ht := (treeOk_of_arenaOk harena htree).1
  have hlen := serTree_length t
  exact ⟨_, exec_serialize_ok hc hv harena htree, (treeLen_serialized hc ht).trans (by omega),
    treeBytes_serialized hc ht, rfl⟩

/-- Settles O40: the parse comes to every record before which nothing is wrong; the first record is the one with
nothing before it. -/
theorem firstRecordErrors : Obligations.FirstRecordErrors := by
  intro s hc
  refine ⟨exec_deserialize_badLength, fun hlen => ?_⟩
  have hnone := subtreesOk_nil s.cfg.nsym
  have hzero : recordsBefore [] ≤ s.cfg.nodeMax := Nat.zero_le _
  have hempty (h : s.treeLen = 0) : ∃ u, exec .deserialize s = .next u ∧ u = arenaLost s u s.treeLen := by
    have hb : treeBytes s = bytesBefore [] ++ [] := by simp [treeBytes, h, bytesBefore]
    exact arenaLost_of_malformedAt_treeLen (malformedAt_end hlen hb hnone hzero rfl)
  have hshortFirst {b : Byte} (htag : (s.treeByte 0).toNat = b.toNat)
      (h : ∀ bs, treeBytes s = b :: bs → 1 + bs.length = s.treeLen.toNat → malformedAt s s.treeLen.toNat) :
      ∃ u, exec .deserialize s = .next u ∧ u = arenaLost s u s.treeLen := by
    rcases Nat.eq_zero_or_pos s.treeLen.toNat with hnil | hpos
    · exact hempty (BitVec.eq_of_toNat_eq hnil)
    · obtain ⟨bs, hb, hl⟩ := treeBytes_eq_cons (BitVec.eq_of_toNat_eq htag) hpos
      exact arenaLost_of_malformedAt_treeLen (h bs hb hl)
  refine ⟨fun h => ?_, fun hpos htag => ?_, fun htag hshort => ?_, fun htag hshort => ?_, fun htag hfit => ?_,
    fun up rest hb ho hi => ⟨malformedAt_end hlen hb ho hi, fun _ _ => malformedAt_reservedTag hlen hb ho hi,
      fun _ => malformedAt_shortLeaf hlen hb ho hi, fun _ => malformedAt_shortInternal hlen hb ho hi,
      fun _ _ _ => malformedAt_badLeaf hlen hb ho hi, fun _ _ => malformedAt_tooManyRecords hlen hb ho hi,
      fun _ _ _ _ => malformedAt_wrongSum hlen hb ho hi⟩, fun t rest ht hb hrest => ?_⟩
  · have hlost := hempty h
    rwa [h] at hlost
  · obtain ⟨rest, hb, -⟩ := treeBytes_eq_cons rfl hpos
    exact malformedAt_reservedTag hlen hb hnone hzero rfl htag
  · exact hshortFirst (b := 0) htag fun _ hb hl => malformedAt_shortLeaf hlen hb hnone hzero rfl (by omega)
  · exact hshortFirst (b := 1) htag fun _ hb hl => malformedAt_shortInternal hlen hb hnone hzero rfl (by omega)
  · have hleaf := bytesAt_leafRecord (byte := s.treeByte) (p := 0) (BitVec.eq_of_toNat_eq htag)
    constructor
    · intro hbad
      obtain ⟨rest, hb, -⟩ := treeBytes_eq_append hleaf hfit
      exact malformedAt_badLeaf hlen hb hnone hzero rfl (.inr (hbad.imp_right .inl))
    · intro hw hx hmore
      have hpos : 1 ≤ (be32 s.treeByte 1).toNat := Nat.one_le_iff_ne_zero.mpr fun h => hw (BitVec.eq_of_toNat_eq h)
      exact malformedAt_trailing hlen (t := .leaf (be32 s.treeByte 1) (be16 s.treeByte 5))
        ⟨by simp [CodeTree.syms], by simpa [CodeTree.syms] using hx, hpos, trivial⟩ hleaf hmore
  · obtain ⟨hbytes, hl⟩ := treeBytes_eq_iff.mp hb
    have hpos := List.length_pos_of_ne_nil hrest
    rw [List.length_append] at hl
    exact malformedAt_trailing hlen ht (bytesAt_append.mp hbytes).1 (by omega)

end Sys2Proof.Machine
end

section
/-! SUPPORT. The completion of a command (60_exceptions.md R210 to R215): the step that runs it, which ending its code
names, and what no command writes. -/

namespace Sys2Proof.Machine

/-! ### The step that runs a command -/

theorem step_of_decode_ok {s : State} {w : Word} {i : Instr} (hphase : s.phase = .running w 0)
    (hi : decode w = .ok i) : step s = exec i s := by
  simp only [step, hphase, hi]

theorem tableWord_toNat (w : Word) : tableWord 32 w.toNat = w := by
  rw [tableWord, Nat.mod_eq_of_lt w.isLt, BitVec.ofNat_toNat, BitVec.setWidth_eq]

/-! ### Which ending a code names -/

theorem preCheck_not_inFlight (i : Instr) : ∀ c ∈ preCheckCodes i, c ∉ inFlightCodes i := by
  cases i <;> decide

/-- A pre-check error completes with the state unchanged (60_exceptions.md R214). -/
theorem exec_preCheck {i : Instr} {s t : State} (h : exec i s = .next t) (hc : t.errCode ∈ preCheckCodes i) :
    ∃ c info, c ≠ .ok ∧ t = s.complete c info := by
  have hne := errorCode_ne_ok (.inl hc)
  rcases exec_ending h with ⟨c, info, _, rfl⟩ | ⟨c, info, hc', rfl⟩ | ⟨u, _, rfl⟩
  · exact ⟨c, info, hne, rfl⟩
  · exact absurd hc' (preCheck_not_inFlight i c hc)
  · exact absurd rfl hne

/-- An in-flight error completes with the command's output lost (60_exceptions.md R215). -/
theorem exec_inFlight {i : Instr} {s t : State} (h : exec i s = .next t) (hc : t.errCode ∈ inFlightCodes i) :
    ∃ c info, c ∈ inFlightCodes i ∧ t = (lostOutput i s).complete c info := by
  rcases exec_ending h with ⟨c, info, hc', rfl⟩ | ⟨c, info, hc', rfl⟩ | ⟨u, _, rfl⟩
  · exact absurd hc (preCheck_not_inFlight i c hc')
  · exact ⟨c, info, hc', rfl⟩
  · exact absurd rfl (errorCode_ne_ok (.inr hc))

theorem complete_eq_of_ne_ok (s : State) {c : ResultCode} (info : Word) (h : c ≠ .ok) : s.complete c info =
    { s with errCode := c, errInfo := info, err := true, done := true, phase := .idle } := by
  simp only [State.complete, h, ne_eq, not_false_eq_true, decide_true]

theorem ResultCode.byte_le (c : ResultCode) : c.byte.toNat ≤ 0x0C := by
  cases c <;> decide

/-! ### What no command writes -/

/-- The parameters, CTRL, CMD, the weights and the host: what no command writes (30_encoding.md R95). -/
def State.hostPart (s : State) : Config × Bool × Word × Word × Ram Weight × List HostLine × Nat × Response :=
  (s.cfg, s.irqEn, s.cmd, s.wtabLen, s.mem.wtab, s.program, s.line, s.response)

theorem lostOutput_hostPart (i : Instr) (s : State) : (lostOutput i s).hostPart = s.hostPart := by
  cases i <;> rfl

theorem okOutput_hostPart {i : Instr} {s u : State} (h : okOutput i s u) : u.hostPart = s.hostPart := by
  cases i with
  | nop => exact congrArg State.hostPart h
  | build | deserialize => obtain ⟨_, _, _, rfl⟩ := h; rfl
  | genCodes => obtain ⟨_, _, _, rfl⟩ := h; rfl
  | encode | pack | unpack | decode => obtain ⟨_, rfl⟩ := h; rfl
  | serialize => obtain ⟨_, _, rfl⟩ := h; rfl

/-- A command that answers a next state completed, and left alone what no command writes. -/
theorem exec_completes {i : Instr} {s t : State} (h : exec i s = .next t) :
    ∃ (u : State) (c : ResultCode) (info : Word),
      t = u.complete c info ∧ u.hostPart = s.hostPart ∧ (c = .ok → info = 0) := by
  rcases exec_ending h with ⟨c, info, hc, rfl⟩ | ⟨c, info, hc, rfl⟩ | ⟨u, hu, rfl⟩
  · exact ⟨s, c, info, rfl, rfl, fun hok => absurd hok (errorCode_ne_ok (.inl hc))⟩
  · exact ⟨_, c, info, rfl, lostOutput_hostPart i s, fun hok => absurd hok (errorCode_ne_ok (.inr hc))⟩
  · exact ⟨u, .ok, 0, rfl, okOutput_hostPart hu, fun _ => rfl⟩

end Sys2Proof.Machine
end

section
/-! SUPPORT. The errors of missing prerequisites and bad lengths (60_exceptions.md R217), and why a command that failed
fails again: an error leaves all that the command reads (R221). -/

namespace Sys2Proof.Machine

section
variable {s : State}

theorem exec_genCodes_noTree (h : s.treeValid = false) : exec .genCodes s = .next (s.complete .noTree 0) :=
  if_pos h

theorem exec_decode_noTree (h : s.treeValid = false) : exec .decode s = .next (s.complete .noTree 0) :=
  if_pos h

theorem exec_serialize_noTree (h : s.treeValid = false) : exec .serialize s = .next (s.complete .noTree 0) :=
  if_pos h

theorem exec_encode_noCodes (h : s.codesValid = false) : exec .encode s = .next (s.complete .noCodes 0) :=
  if_pos h

theorem exec_encode_badLength (hv : s.codesValid = true) (h : s.cfg.symbufMax < s.symCount.toNat) :
    exec .encode s = .next (s.complete .badLength 0x01C) :=
  (if_neg fun hno => Bool.false_ne_true (hno.symm.trans hv)).trans (if_pos h)

theorem exec_decode_badLength (hv : s.treeValid = true) (h : s.cfg.bitbufBits < s.bitLen.toNat) :
    exec .decode s = .next (s.complete .badLength 0x020) :=
  (if_neg fun hno => Bool.false_ne_true (hno.symm.trans hv)).trans (if_pos h)

theorem exec_serialize_outOverflow (hv : s.treeValid = true)
    (h : s.cfg.treeMax < 12 * s.leafCount.toNat - 5) : exec .serialize s =
      .next (s.complete .outOverflow (BitVec.ofNat 32 (12 * s.leafCount.toNat - 5))) :=
  (if_neg fun hno => Bool.false_ne_true (hno.symm.trans hv)).trans (if_pos h)

end

theorem exec_deserialize_treeMalformed {s : State} {i : Nat} (hlen : s.treeLen.toNat ≤ s.cfg.treeMax)
    (he : parseBlob s.treeByte s.treeLen.toNat s.cfg.nodeMax s.cfg.nsym = .error i) :
    exec .deserialize s = .next (s.loseArena.complete .treeMalformed (BitVec.ofNat 32 i)) := by
  rcases execDeserialize_cases s with ⟨hlong, _⟩ | ⟨_, _, he', e⟩ | ⟨_, _, hr, _⟩
  · omega
  · cases he.symm.trans he'
    exact e
  · cases he.symm.trans hr

/-! ### A failed command issued again -/

/-- If the command fails, then at the state it leaves it fails with the same result. -/
def failsAgain (i : Instr) (s : State) : Prop :=
  ∀ t, exec i s = .next t → t.errCode ≠ .ok →
    ∃ u, exec i t = .next u ∧ u.errCode = t.errCode ∧ u.errInfo = t.errInfo

section
variable {i : Instr} {s u u' : State} {c : ResultCode} {info : Word}

theorem failsAgain_of_complete (e : exec i s = .next (u.complete c info))
    (e' : exec i (u.complete c info) = .next (u'.complete c info)) : failsAgain i s := by
  intro t h _
  cases h.symm.trans e
  exact ⟨_, e', rfl, rfl⟩

theorem failsAgain_of_ok (e : exec i s = .next (u.complete .ok info)) : failsAgain i s := by
  intro t h hne
  cases h.symm.trans e
  exact absurd rfl hne

theorem failsAgain_of_fault {f : Fault} (e : exec i s = .fault f) : failsAgain i s := by
  intro t h
  cases h.symm.trans e

end

theorem build_failsAgain (s : State) : failsAgain .build s := by
  rcases execBuild_cases s with ⟨hlong, e⟩ | ⟨hlen, _, hover, e⟩ | ⟨hlen, hnil, e⟩ | ⟨_, _, _, e⟩
  · exact failsAgain_of_complete e (exec_build_badLength hlong)
  · exact failsAgain_of_complete e (exec_build_weightOverflow hlen hover)
  · exact failsAgain_of_complete e (exec_build_emptyInput hlen hnil)
  · exact failsAgain_of_ok e

/-- CODE_TOO_LONG takes away the codes and not the tree they are made from. -/
theorem genCodes_failsAgain (s : State) : failsAgain .genCodes s := by
  rcases execGenCodes_cases s with ⟨hv, e⟩ | ⟨_, _, e⟩ | ⟨hv, _, _, ht, hx, e⟩ | ⟨_, _, _, _, _, e⟩
  · exact failsAgain_of_complete e (exec_genCodes_noTree hv)
  · exact failsAgain_of_fault e
  · exact failsAgain_of_complete e (exec_genCodes_codeTooLong (s := s.loseCodes.complete _ _) hv ht hx)
  · exact failsAgain_of_ok e

/-- An in-flight error of ENCODE takes away the bits and not the symbols and codes. -/
theorem encode_failsAgain (s : State) : failsAgain .encode s := by
  rcases execEncode_cases s with ⟨hv, e⟩ | ⟨hv, hlong, e⟩ | ⟨hv, hlen, _, _, he, e⟩ | ⟨_, _, _, _, e⟩
  · exact failsAgain_of_complete e (exec_encode_noCodes hv)
  · exact failsAgain_of_complete e (exec_encode_badLength hv hlong)
  · exact failsAgain_of_complete e (exec_encode_error (s := s.loseBits.complete _ _) hv hlen he)
  · exact failsAgain_of_ok e

theorem pack_failsAgain (s : State) : failsAgain .pack s := by
  rcases execPack_cases s with ⟨hlong, e⟩ | ⟨hlen, hbig, e⟩ | ⟨_, _, e⟩
  · exact failsAgain_of_complete e (exec_pack_badLength hlong)
  · exact failsAgain_of_complete e (exec_pack_outOverflow hlen hbig)
  · exact failsAgain_of_ok e

theorem unpack_failsAgain (s : State) : failsAgain .unpack s := by
  rcases execUnpack_cases s with ⟨hlong, e⟩ | ⟨_, hzero, e⟩ | ⟨hlen, hpos, hbad, e⟩ |
    ⟨hlen, hpos, hpad1, hpad8, hshort, e⟩ | ⟨hlen, _, hpad1, hpad8, hpad, hbig, e⟩ | ⟨_, _, _, _, _, _, e⟩
  · exact failsAgain_of_complete e (exec_unpack_badLength hlong)
  · exact failsAgain_of_complete e (exec_unpack_noByte hzero)
  · exact failsAgain_of_complete e (exec_unpack_badPad hlen hpos hbad)
  · exact failsAgain_of_complete e (exec_unpack_padTooLong hlen hpad1 hpad8 hpos hshort)
  · exact failsAgain_of_complete e (exec_unpack_outOverflow hlen hpad1 hpad8 hpad hbig)
  · exact failsAgain_of_ok e

/-- An in-flight error of DECODE takes away the symbols and not the tree and bits. -/
theorem decode_failsAgain (s : State) : failsAgain .decode s := by
  rcases execDecode_cases s with ⟨hv, e⟩ | ⟨hv, hlong, e⟩ | ⟨hv, hlen, _, _, he, e⟩ | ⟨_, _, _, _, e⟩
  · exact failsAgain_of_complete e (exec_decode_noTree hv)
  · exact failsAgain_of_complete e (exec_decode_badLength hv hlong)
  · exact failsAgain_of_complete e (exec_decode_error (s := s.loseSyms.complete _ _) hv hlen he)
  · exact failsAgain_of_ok e

theorem serialize_failsAgain (s : State) : failsAgain .serialize s := by
  rcases execSerialize_cases s with ⟨hv, e⟩ | ⟨hv, hbig, e⟩ | ⟨_, _, _, e⟩ | ⟨_, _, _, _, e⟩
  · exact failsAgain_of_complete e (exec_serialize_noTree hv)
  · exact failsAgain_of_complete e (exec_serialize_outOverflow hv hbig)
  · exact failsAgain_of_fault e
  · exact failsAgain_of_ok e

/-- TREE_MALFORMED takes away the arena and not the blob. -/
theorem deserialize_failsAgain (s : State) : failsAgain .deserialize s := by
  rcases execDeserialize_cases s with ⟨hlong, e⟩ | ⟨hlen, _, he, e⟩ | ⟨_, _, _, e⟩
  · exact failsAgain_of_complete e (exec_deserialize_badLength hlong)
  · exact failsAgain_of_complete e (exec_deserialize_treeMalformed hlen he)
  · exact failsAgain_of_ok e

end Sys2Proof.Machine
end

section
/-! SUPPORT. What an output buffer shows beyond its new length, and that each command's output fits its buffer, so that
the length register counts it (60_exceptions.md R216). -/

namespace Sys2Proof.Machine

theorem read_ofList_of_le {α : Type} (any : Nat → Nat → α) (d : Nat) {vs : List α} {k : Nat}
    (h : vs.length ≤ k) : (Ram.ofList d vs).read any k = any d k := by
  rw [read_ofList, List.getElem?_eq_none h, Option.getD_none]

section
variable {s : State} {k : Nat} (hl : s.cfg.legal = true)
include hl

theorem bitAt_setBits_beyond {bits : List Bool} (hfit : bits.length ≤ s.cfg.bitbufBits)
    (hk : (s.setBits bits).bitLen.toNat ≤ k) : (s.setBits bits).bitAt k = Config.anyBitbuf s.draws k :=
  read_ofList_of_le _ _ (bitLen_setBits hl hfit ▸ hk)

theorem symAt_setSyms_beyond {syms : List Sym} (hfit : syms.length ≤ s.cfg.symbufMax)
    (hk : (s.setSyms syms).symCount.toNat ≤ k) : (s.setSyms syms).symAt k = Config.anySymbuf s.draws k :=
  read_ofList_of_le _ _ (symCount_setSyms hl hfit ▸ hk)

theorem artByte_setArt_beyond {bits : List Bool} (hfit : bits.length ≤ s.cfg.bitbufBits)
    (hk : (s.setArt (artifactOf bits)).artLen.toNat ≤ k) :
    (s.setArt (artifactOf bits)).artByte k = Config.anyArtbuf s.draws k := by
  rw [artLen_setArt_artifactOf s hl hfit, ← artifactOf_length] at hk
  exact read_ofList_of_le _ _ hk

theorem treeByte_setTreeBytes_beyond {bytes : List Byte} {n : Nat} (hfit : n ≤ s.cfg.treeMax)
    (hk : (s.setTreeBytes bytes n).treeLen.toNat ≤ k) :
    (s.setTreeBytes bytes n).treeByte k = Config.anyTreebuf s.draws k := by
  obtain ⟨-, -, -, -, -, ⟨-, -, hcap⟩⟩ := (legal_iff _).mp hl
  rw [setTreeBytes_treeLen, BitVec.toNat_ofNat, Nat.mod_eq_of_lt (by omega)] at hk
  exact read_ofList_of_le _ _ ((List.length_take_le ..).trans hk)

theorem nodeAt_setArena_beyond {nodes : List Node} {root leaves : Nat} (hfit : nodes.length ≤ s.cfg.nodeMax)
    (hk : (s.setArena nodes root leaves).nodeCount.toNat ≤ k) :
    (s.setArena nodes root leaves).nodeAt k = Config.anyNode s.draws k := by
  obtain ⟨-, ⟨-, hnsym⟩, -⟩ := (legal_iff _).mp hl
  have hcap : nodes.length ≤ 2 * s.cfg.nsym - 1 := hfit
  rw [setArena_nodeCount, BitVec.toNat_ofNat, Nat.mod_eq_of_lt (by omega)] at hk
  exact read_ofList_of_le _ _ hk

end

/-- If this outcome is a success, its state has the property. -/
def succeedsWith (P : State → Prop) (o : Host.Outcome State Fault Refusal) : Prop :=
  ∀ t, o = .next t → t.errCode = .ok → P t

section
variable {P : State → Prop} {o : Host.Outcome State Fault Refusal} {u : State} {c : ResultCode} {info : Word}

theorem succeedsWith_of_ok (e : o = .next (u.complete .ok info)) (h : P (u.complete .ok info)) :
    succeedsWith P o := by
  rintro t rfl _
  cases e
  exact h

theorem succeedsWith_of_error (e : o = .next (u.complete c info)) (hc : c ≠ .ok) : succeedsWith P o := by
  rintro t rfl hok
  cases e
  exact absurd hok hc

theorem succeedsWith_of_fault {f : Fault} (e : o = .fault f) : succeedsWith P o := by
  rintro t rfl
  cases e

end

section
variable {s : State} (hl : s.cfg.legal = true)
include hl

theorem execEncode_beyond : succeedsWith
    (fun t => ∀ k, t.bitLen.toNat ≤ k → t.bitAt k = Config.anyBitbuf s.draws k) (execEncode s) := by
  rcases execEncode_cases s with ⟨_, e⟩ | ⟨_, _, e⟩ | ⟨_, _, _, _, he, e⟩ | ⟨_, _, _, hb, e⟩
  · exact succeedsWith_of_error e nofun
  · exact succeedsWith_of_error e nofun
  · exact succeedsWith_of_error e (errorCode_ne_ok (.inr (encodeFrom_codes he)))
  · have hlen := encodeFrom_len (Nat.zero_le _) hb
    exact succeedsWith_of_ok e fun _ hk => bitAt_setBits_beyond hl (by omega) hk

theorem execUnpack_beyond : succeedsWith
    (fun t => ∀ k, t.bitLen.toNat ≤ k → t.bitAt k = Config.anyBitbuf s.draws k) (execUnpack s) := by
  rcases execUnpack_cases s with ⟨_, e⟩ | ⟨_, _, e⟩ | ⟨_, _, _, e⟩ | ⟨_, _, _, _, _, e⟩ |
    ⟨_, _, _, _, _, _, e⟩ | ⟨_, _, _, _, _, hlen, e⟩
  on_goal 6 =>
    exact succeedsWith_of_ok e fun _ hk => bitAt_setBits_beyond hl ((List.length_take_le ..).trans hlen) hk
  all_goals exact succeedsWith_of_error e nofun

theorem execPack_beyond : succeedsWith
    (fun t => ∀ k, t.artLen.toNat ≤ k → t.artByte k = Config.anyArtbuf s.draws k) (execPack s) := by
  rcases execPack_cases s with ⟨_, e⟩ | ⟨_, _, e⟩ | ⟨hlen, _, e⟩
  · exact succeedsWith_of_error e nofun
  · exact succeedsWith_of_error e nofun
  · exact succeedsWith_of_ok e fun _ hk => artByte_setArt_beyond hl ((bitstring_length ..).trans_le hlen) hk

theorem execDecode_beyond : succeedsWith
    (fun t => ∀ k, t.symCount.toNat ≤ k → t.symAt k = Config.anySymbuf s.draws k) (execDecode s) := by
  rcases execDecode_cases s with ⟨_, e⟩ | ⟨_, _, e⟩ | ⟨_, _, _, _, he, e⟩ | ⟨_, _, _, hs, e⟩
  · exact succeedsWith_of_error e nofun
  · exact succeedsWith_of_error e nofun
  · exact succeedsWith_of_error e (errorCode_ne_ok (.inr (decodedSymbols_codes he)))
  · exact succeedsWith_of_ok e fun _ hk => symAt_setSyms_beyond hl (decodedSymbols_len hs) hk

theorem execSerialize_beyond : succeedsWith
    (fun t => ∀ k, t.treeLen.toNat ≤ k → t.treeByte k = Config.anyTreebuf s.draws k) (execSerialize s) := by
  rcases execSerialize_cases s with ⟨_, e⟩ | ⟨_, _, e⟩ | ⟨_, _, _, e⟩ | ⟨_, hlen, _, _, e⟩
  · exact succeedsWith_of_error e nofun
  · exact succeedsWith_of_error e nofun
  · exact succeedsWith_of_fault e
  · exact succeedsWith_of_ok e fun _ hk => treeByte_setTreeBytes_beyond hl hlen hk

theorem execBuild_beyond : succeedsWith
    (fun t => ∀ k, t.nodeCount.toNat ≤ k → t.nodeAt k = Config.anyNode s.draws k) (execBuild s) := by
  rcases execBuild_cases s with ⟨_, e⟩ | ⟨_, _, _, e⟩ | ⟨_, _, e⟩ | ⟨hlen, hnone, hne, e⟩
  · exact succeedsWith_of_error e nofun
  · exact succeedsWith_of_error e nofun
  · exact succeedsWith_of_error e nofun
  · have hfit := (arenaOk_build hl hlen hnone hne).1
    refine succeedsWith_of_ok e fun k hk => ?_
    rw [complete_nodeCount] at hk
    exact nodeAt_setArena_beyond hl hfit hk

theorem execDeserialize_beyond : succeedsWith
    (fun t => ∀ k, t.nodeCount.toNat ≤ k → t.nodeAt k = Config.anyNode s.draws k) (execDeserialize s) := by
  rcases execDeserialize_cases s with ⟨_, e⟩ | ⟨_, _, _, e⟩ | ⟨_, r, hr, e⟩
  · exact succeedsWith_of_error e nofun
  · exact succeedsWith_of_error e nofun
  · have hfit := (arenaOk_deserialize hl hr).1
    refine succeedsWith_of_ok e fun k hk => ?_
    rw [complete_nodeCount] at hk
    exact nodeAt_setArena_beyond hl hfit hk

end

end Sys2Proof.Machine
end

section
/-! SUPPORT. CTRL and the interrupt output (10_state.md R25, 60_exceptions.md R220): what CTRL holds, and what raises
and clears IRQ. -/

namespace Sys2Proof.Machine

/-- An accepted write at a register's offset is the register's write. -/
theorem eq_writeReg_of_memWrite {s t : State} {r : Reg} {v : Word}
    (h : memWrite s (regOffset r) 4 v = .ok t) : t = s.writeReg v r := by
  obtain ⟨-, -, l, hl, -, -, rfl⟩ := (memWrite_ok_iff ..).mp h
  cases (locate_regOffset s.cfg r).symm.trans hl
  rfl

/-- IRQ_EN is bit 0 of CTRL; the other bits read 0 (10_state.md R25). -/
theorem ctrlWord_bits (s : State) :
    s.ctrlWord.getLsbD 0 = s.irqEn ∧ ∀ j, 1 ≤ j → s.ctrlWord.getLsbD j = false := by
  unfold State.ctrlWord
  cases s.irqEn with
  | false => simp
  | true => exact ⟨rfl, fun j hj => by simp [BitVec.getLsbD_one]; omega⟩

theorem writeCtrl_of_not_srst {s : State} {v : Word} (h : v.getLsbD 1 = false) :
    s.writeCtrl v = { s with irqEn := v.getLsbD 0 } :=
  if_neg fun hsrst => Bool.false_ne_true (h.symm.trans hsrst)

theorem irq_eq_false_of_not_done {s : State} (h : s.done = false) : s.irq = false := by
  rw [State.irq, h, Bool.and_false]

theorem irq_eq_false_of_not_irqEn {s : State} (h : s.irqEn = false) : s.irq = false := by
  rw [State.irq, h, Bool.false_and]

theorem writeCtrl_irq {s : State} {v : Word} (h : v.getLsbD 0 = false ∨ v.getLsbD 1 = true) :
    (s.writeCtrl v).irq = false := by
  apply irq_eq_false_of_not_irqEn
  unfold State.writeCtrl
  split
  · rfl
  · exact h.resolve_right ‹_›

end Sys2Proof.Machine
end

section
/-! PROOFS. The statements about results and exceptions (60_exceptions.md). -/

namespace Sys2Proof.Machine

/-- Settles O6: every ending of a command is a completion of a state with the same host part. -/
theorem completionRecordsTheResult : Obligations.CompletionRecordsTheResult := by
  refine ⟨fun _ _ _ => rfl, fun i s t h => ?_⟩
  obtain ⟨u, c, info, rfl, hpart, hinfo⟩ := exec_completes h
  simp only [State.hostPart, Prod.mk.injEq] at hpart
  obtain ⟨hcfg, hirq, hcmd, hlen, hwtab, hprogram, hline, hresponse⟩ := hpart
  exact ⟨rfl, rfl, rfl, decide_eq_true_iff, hinfo, hirq, hcmd, hlen, hwtab, hcfg, hprogram, hline, hresponse⟩

/-- Settles O7: the table of numbers, and the codes of a command's endings. -/
theorem resultCodesOfEachCommand : Obligations.ResultCodesOfEachCommand := by
  refine ⟨rfl, rfl, rfl, rfl, rfl, rfl, rfl, rfl, rfl, rfl, rfl, rfl, rfl,
    fun s => ⟨memRead_reg (r := .errCode) fun _ => rfl, s.errCode.byte_le⟩, fun i s t h => ?_⟩
  rcases exec_ending h with ⟨_, _, hc, rfl⟩ | ⟨_, _, hc, rfl⟩ | ⟨_, _, rfl⟩
  · exact .inr (.inl hc)
  · exact .inr (.inr hc)
  · exact .inl rfl

/-- Settles O8: a pre-check error and ILLEGAL_CMD complete the state they found. -/
theorem preCheckErrorsChangeNothing : Obligations.PreCheckErrorsChangeNothing := by
  refine ⟨fun i s t h hc => ?_, fun s w e hphase he => ⟨_, step_of_decode_error hphase he, rfl, rfl⟩⟩
  obtain ⟨c, info, hne, rfl⟩ := exec_preCheck h hc
  exact complete_eq_of_ne_ok s info hne

/-- Settles O9: an in-flight error completes the state of `lostOutput`, which names what is lost. -/
theorem inFlightErrorsInvalidateTheOutput : Obligations.InFlightErrorsInvalidateTheOutput := by
  refine ⟨fun s t h hc => ?_, fun s t h hc => ?_, fun s t h hc => ?_, fun s t h hc => ?_⟩ <;>
    obtain ⟨c, info, hc, rfl⟩ := exec_inFlight h hc
  · exact ⟨rfl, read_allAny Config.anyCtab s.draws⟩
  · exact ⟨rfl, read_allAny Config.anyBitbuf s.draws⟩
  · exact ⟨rfl, read_allAny Config.anySymbuf s.draws⟩
  · cases List.mem_singleton.mp hc
    exact ⟨rfl, rfl, read_allAny Config.anyNode s.draws⟩

/-- Settles O10: the new output fits its buffer, so its length register counts it, and what lies beyond was not
written. -/
theorem entriesBeyondTheNewLengthAreAny : Obligations.EntriesBeyondTheNewLengthAreAny := fun _ t hl =>
  ⟨execEncode_beyond hl t, execUnpack_beyond hl t, execPack_beyond hl t, execDecode_beyond hl t,
    execSerialize_beyond hl t, execBuild_beyond hl t, execDeserialize_beyond hl t⟩

/-- Settles O11: an error leaves what the command reads, so the same checks fail again. -/
theorem failedCommandFailsAgain : Obligations.FailedCommandFailsAgain := by
  intro i s
  cases i with
  | nop => exact failsAgain_of_ok (execNop_eq s)
  | build => exact build_failsAgain s
  | genCodes => exact genCodes_failsAgain s
  | encode => exact encode_failsAgain s
  | pack => exact pack_failsAgain s
  | unpack => exact unpack_failsAgain s
  | decode => exact decode_failsAgain s
  | serialize => exact serialize_failsAgain s
  | deserialize => exact deserialize_failsAgain s

/-- Settles O3: the phase decides what a step is; the word that `withFetchWord` places is the encoding itself. -/
theorem stepRunsTheIssuedCommand : Obligations.StepRunsTheIssuedCommand := by
  refine ⟨fun s w i => step_of_decode_ok, fun s w n hphase => ?_, fun s hphase => ?_, fun s i => ?_⟩
  · simp only [step, hphase]
  · simp only [step, hphase]
  · exact step_of_decode_ok rfl ((congrArg decode (tableWord_toNat _)).trans (decode_encode i))

/-- Settles O12: the prerequisite is the first check and the length the second. -/
theorem prerequisitesAndLengthsComeFirst : Obligations.PrerequisitesAndLengthsComeFirst := by
  refine fun s => ⟨fun hv => ?_, exec_encode_noCodes, exec_encode_badLength, exec_decode_badLength⟩
  simp only [List.forall_mem_cons]
  exact ⟨exec_genCodes_noTree hv, exec_decode_noTree hv, exec_serialize_noTree hv, nofun⟩

/-- Settles O51: CTRL stores IRQ_EN, a completion raises DONE, and each listed event clears DONE or IRQ_EN. -/
theorem interruptFollowsDone : Obligations.InterruptFollowsDone := by
  refine ⟨fun _ => rfl, fun s v hv => ?_, fun s => ⟨s.ctrlWord, memRead_reg (r := .ctrl) fun _ => rfl,
    ctrlWord_bits s⟩, fun i s t h => ?_, fun s t v h hv => ?_, fun s t v h => ?_, fun s t v h hv => ?_,
    fun _ => rfl⟩
  · rw [← writeCtrl_of_not_srst hv]
    exact memWrite_reg (r := .ctrl) v rfl fun _ => rfl
  · obtain ⟨-, -, hdone, -, -, hirq, -⟩ := completionRecordsTheResult.2 i s t h
    rw [State.irq, hdone, hirq, Bool.and_true]
  · cases eq_writeReg_of_memWrite (r := .status) h
    exact irq_eq_false_of_not_done (by simp [State.writeReg, hv])
  · cases eq_writeReg_of_memWrite (r := .cmd) h
    exact irq_eq_false_of_not_done rfl
  · cases eq_writeReg_of_memWrite (r := .ctrl) h
    exact writeCtrl_irq hv

end Sys2Proof.Machine
end

section
/-! SUPPORT. The soft reset (70_reset_and_hazards.md R251): what abandoning a command leaves unchanged, and which state
the reset gives for a running command. -/

namespace Sys2Proof.Machine

/-- Abandoning a command touches the RAMs and the draws only. -/
theorem abandon_frame (s : State) : s.abandon =
    { s with mem := s.abandon.mem, draws := s.abandon.draws, nodeView := s.abandon.nodeView } := by
  rcases abandon_cases s with h | ⟨_, _, i, _, _, h⟩
  · rw [h]
  · rw [h]
    cases i <;> rfl

/-- The registers take their values of 10_state.md R45; the RAMs and the draws are those of the abandoned command, and
the host keeps its place. -/
theorem softReset_eq (s : State) : s.softReset =
    { State.powerOn s.cfg s.draws with
      mem := s.softReset.mem, draws := s.softReset.draws, nodeView := s.softReset.nodeView, program := s.program
      line := s.line, response := s.response } := by
  rw [State.softReset, abandon_frame s]
  rfl

theorem softReset_mem_idle {s : State} (h : s.busy = false) : s.softReset.mem = s.mem := by
  rw [softReset_mem, abandon_idle (phase_idle_of_not_busy h)]

section
variable {s : State} {w : Word} {n : Nat}

/-- A running word that is no command has no output to lose. -/
theorem softReset_mem_of_no_command (hphase : s.phase = .running w n) (hw : ∀ i, w ≠ encode i) :
    s.softReset.mem = s.mem := by
  rcases abandon_cases s with h | ⟨w', _, i, hphase', hi, _⟩
  · rw [softReset_mem, h]
  · cases hphase.symm.trans hphase'
    exact absurd ((decode_eq_ok_iff w i).mp hi) (hw i)

/-- A running command loses its output. -/
theorem softReset_of_running {i : Instr} (hphase : s.phase = .running (encode i) n) :
    s.softReset = (s.loseOutputOf i).clearRegisters := by
  simp only [State.softReset, State.abandon, hphase, decode_encode]

end

end Sys2Proof.Machine
end

section
/-! SUPPORT. A running command on its way to its completion (70_reset_and_hazards.md R260, R261): a host that waits
uses up its turns, and under the invariant the completion step answers a next state. -/

namespace Sys2Proof.Machine

/-- The host waits: it is at the end of its list, or at a BUSYLOOP on its own line (30_encoding.md R110). -/
def State.hostWaits (s : State) : Prop :=
  s.program.length ≤ s.line ∨ s.program[s.line]? = some (.busyLoop s.line)

/-- While BUSY = 1 a waiting host stays at its line; at most the port's answer changes. -/
theorem hostTurn_of_waits {s : State} (hwait : s.hostWaits) (hb : s.busy = true) :
    ∃ r, hostTurn s = .next (s.answer r s.line) := by
  rcases hwait with hend | hloop
  · refine ⟨s.response, ?_⟩
    simp only [hostTurn, List.getElem?_eq_none hend]
    rfl
  · have hread : memRead s 0x008 4 = .ok s.statusWord := memRead_reg (r := .status) fun _ => rfl
    refine ⟨.data s.statusWord, ?_⟩
    simp only [hostTurn, hloop, hread, (statusWord_bits s).1, hb, if_true]

/-- While the host waits, a step only uses up one of its turns. -/
theorem step_of_waits {s : State} {w : Word} {n : Nat} (hphase : s.phase = .running w (n + 1))
    (hwait : s.hostWaits) :
    ∃ r, step s = .next (({ s with phase := .running w n } : State).answer r s.line) := by
  simp only [step, hphase]
  exact hostTurn_of_waits (s := { s with phase := .running w n }) hwait rfl

/-- Under the invariant a command always completes: where TREE_VALID = 1 the arena holds a tree. -/
theorem exec_next_of_inv {s : State} (h : s.Inv) (i : Instr) : ∃ t, exec i s = .next t := by
  rcases exec_stops i s with hnext | ⟨hv, hnone, _⟩
  · exact hnext
  · obtain ⟨t, _, htree, -⟩ := tree_of_arenaOk (h.tree hv)
    cases hnone.symm.trans htree

/-- The completion step, of a command and of a word that is no command (60_exceptions.md R210). -/
theorem step_completes {s : State} {w : Word} (h : s.Inv) (hphase : s.phase = .running w 0) :
    ∃ (u : State) (c : ResultCode) (info : Word), step s = .next (u.complete c info) ∧ u.cmd = w := by
  obtain ⟨hcmd, -⟩ := h.issued w 0 hphase
  cases hdecode : decode w with
  | error e => exact ⟨s, _, _, step_of_decode_error hphase hdecode, hcmd⟩
  | ok i =>
    obtain ⟨t, ht⟩ := exec_next_of_inv h i
    obtain ⟨u, c, info, rfl, hpart, -⟩ := exec_completes ht
    simp only [State.hostPart, Prod.mk.injEq] at hpart
    obtain ⟨-, -, hkept, -⟩ := hpart
    exact ⟨u, c, info, (step_of_decode_ok hphase hdecode).trans ht, hkept.trans hcmd⟩

/-- A run of a waiting host's `n` turns and the completion step after them. -/
theorem run_completes {s : State} {w : Word} {n : Nat} (h : s.Inv) (hphase : s.phase = .running w n)
    (hwait : s.hostWaits) : ∃ (u : State) (c : ResultCode) (info : Word),
      Sys2Proof.core.run (n + 1) s = .next (u.complete c info) ∧ u.cmd = w := by
  induction n generalizing s with
  | zero =>
    obtain ⟨u, c, info, hstep, hcmd⟩ := step_completes h hphase
    exact ⟨u, c, info, run_succ 0 hstep, hcmd⟩
  | succ n ih =>
    obtain ⟨r, hstep⟩ := step_of_waits hphase hwait
    rw [run_succ _ hstep]
    exact ih (step_endsInInv h _ hstep) rfl hwait

end Sys2Proof.Machine
end

section
/-! SUPPORT. The state that a successful command leaves (60_exceptions.md R210). -/

namespace Sys2Proof.Machine

/-- A command that ends with OK completes with its output written. -/
theorem exec_ok {i : Instr} {s t : State} (h : exec i s = .next t) (hok : t.errCode = .ok) :
    ∃ u, okOutput i s u ∧ t = u.complete .ok 0 := by
  rcases exec_ending h with ⟨_, _, hc, rfl⟩ | ⟨_, _, hc, rfl⟩ | hu
  · exact absurd hok (errorCode_ne_ok (.inl hc))
  · exact absurd hok (errorCode_ne_ok (.inr hc))
  · exact hu

end Sys2Proof.Machine
end

section
/-! PROOFS. The statements about reset and hazards (70_reset_and_hazards.md). -/

namespace Sys2Proof.Machine

/-- Settles O53: CTRL is open to a write in every state; the write is the soft reset, which clears the registers and
makes the output of the running command ANY. -/
theorem softResetClearsRegisters : Obligations.SoftResetClearsRegisters := by
  intro s v hv
  have hwrite : memWrite s 0x004 4 v = .ok s.softReset := by
    rw [← writeCtrl_softReset s hv]
    exact memWrite_reg (r := .ctrl) v rfl fun _ => rfl
  refine ⟨s.softReset, hwrite, softReset_eq s, softReset_mem_idle, fun w n hphase => ?_⟩
  refine ⟨softReset_mem_of_no_command hphase, ?nop, ?tree, ?codes, ?bits, ?art, ?syms, ?treeBytes⟩
  case nop =>
    rintro rfl
    rw [softReset_of_running hphase]
    rfl
  case tree | bits =>
    rintro (rfl | rfl) <;> rw [softReset_of_running hphase] <;> exact ⟨rfl, fun _ => rfl⟩
  case codes | art | syms | treeBytes =>
    rintro rfl
    rw [softReset_of_running hphase]
    exact ⟨rfl, fun _ => rfl⟩

/-- Settles O54: the new arena leaves CTAB alone and takes away CODES_VALID, which is ENCODE's first check. -/
theorem staleCodesAreRefused : Obligations.StaleCodesAreRefused := by
  intro s t h hok
  obtain ⟨nodes, root, leaves, rfl⟩ : ∃ nodes root leaves, t = (s.setArena nodes root leaves).complete .ok 0 := by
    rcases h with h | h <;> obtain ⟨_, ⟨nodes, root, leaves, rfl⟩, rfl⟩ := exec_ok h hok <;>
      exact ⟨nodes, root, leaves, rfl⟩
  exact ⟨rfl, rfl, exec_encode_noCodes rfl⟩

/-- Settles O58: the host's turns run out while it waits, and the completion step records the command that CMD holds. -/
theorem runningCommandCompletes : Obligations.RunningCommandCompletes := by
  intro s w n h hphase hwait
  obtain ⟨u, c, info, hrun, hcmd⟩ := run_completes h hphase hwait
  exact ⟨u.complete c info, hrun, rfl, rfl, hcmd⟩

end Sys2Proof.Machine
end
